-- ==== Sys2Proof/Word.lean ====
section
/-! DEFINITION. The word types of the RNC1 block and their plainest arithmetic (00_scope.md rule R5). -/

namespace Sys2Proof

/-- One byte of `IN` or `OUT` (20_memory.md rules R40, R41). -/
abbrev Byte := BitVec 8

/-- `mask(n) = 2^n - 1` (rule R5). -/
def mask (n : Nat) : Nat := 2 ^ n - 1

end Sys2Proof
end

