-- ==== Sys2Proof/Config.lean ====
section
/-! DEFINITION. The fixed parameters of the block (00_scope.md rule R4). The open ones (`IN`, `IN_LEN`, `OUT_CAP`)
are placed by the host and stand in State (log entry 5). The spec leaves no value free, so nothing here is opaque. -/

namespace Sys2Proof.Config

/-- `NSLOT`: symbol slots of a table. -/
abbrev nslot : Nat := 16
/-- `REFILL_W`: bits of one refill of the bit queue. -/
abbrev refillW : Nat := 16
/-- `MAXREAD`: the widest `RDBITS` or `PEEK`. -/
abbrev maxRead : Nat := 16
/-- `CNT_W`: bits of the leaf-count field of a table descriptor. -/
abbrev cntW : Nat := 5
/-- `LEN_W`: bits of one code-length field. -/
abbrev lenW : Nat := 4
/-- `NSUB_W`: bits of the subchunk-count field. -/
abbrev nsubW : Nat := 16
/-- `PAD_W`: bits of the leading padding. -/
abbrev padW : Nat := 2
/-- `HDR_LEN`: bytes of the header (18, not the 15 of the source; 90_conflicts.md C1). -/
abbrev hdrLen : Nat := 18
/-- `SIG`: the signature bytes `52 4E 43 01` as a number, byte 0 the most significant. -/
abbrev sig : Nat := 0x524E4301

end Sys2Proof.Config
end

