-- ==== Sys2Proof/Syntax.lean ====
section
/-! DEFINITION. The syntax: one constructor of `Instr` for each of the 72 rows of spec/opcode_table.json (30_encoding.md
rule R71), with the operand types they use. The fields an element's encoding carries are its operands (log entry 2). -/

namespace Sys2Proof

/-- The three table roles (10_state.md rule R18). -/
inductive Role where
  /-- `T_LIT`: the first table of a block, literal-run lengths. -/
  | lit
  /-- `T_DIST`: the second table of a block, match distance minus 1. -/
  | dist
  /-- `T_CNT`: the third table of a block, match count minus 2. -/
  | cnt
deriving DecidableEq, Repr

/-- One slot of a table: `depth` (0 means unused) and the stored, bit-reversed `code` (rule R18). -/
structure Slot where
  depth : BitVec 4
  code : BitVec 16
deriving DecidableEq, Repr

/-- A table: 16 slots, the slot index is the symbol (rule R18). -/
abbrev Table := Vector Slot 16

/-- The three tables; they are separate storage (rule R26). -/
structure Tables where
  lit : Table
  dist : Table
  cnt : Table
deriving DecidableEq, Repr

/-- Which stream element comes next inside a phase visit: the position in the grammar of rule R60, one constructor for
each place where the sequencer starts an operation. The numbers some of them hold are the scratch values of one subchunk
that rule R11 lets a model keep. DESIGN CHOICE (log entry 1): the finer split of the step that rule R162 allows. -/
inductive Elem where
  /-- the header (phase HEADER) -/
  | hdr
  /-- the two pad bits (phase HEADER) -/
  | pad2
  /-- a table descriptor (phase PER_BLOCK) -/
  | tab (role : Role)
  /-- the subchunk count (phase PER_BLOCK) -/
  | nsub
  /-- the `VAL` of a `LITRUN` (phase PER_SUBCHUNK) -/
  | litVal
  /-- the `run` raw bytes of a `LITRUN` -/
  | litCopy (run : Nat)
  /-- the first `VAL` of a `MATCH` -/
  | distVal
  /-- the second `VAL` of a `MATCH`, after the first gave `v1` -/
  | cntVal (v1 : Nat)
  /-- the copy of a `MATCH` whose values are `v1` and `v2` -/
  | matchCopy (v1 v2 : Nat)
deriving DecidableEq, Repr

/-- The stream elements and the internal operations, one constructor per row of spec/opcode_table.json. -/
inductive Instr where
  /-- `HDR`: the 18 header bytes after a good signature (rules R62, R151). -/
  | hdr (ulen plen : BitVec 32) (crc1 crc2 : BitVec 16) (margin blocks : BitVec 8)
  /-- `PAD2`: two leading bits, any value (rules R63, R152). -/
  | pad2 (v : BitVec 2)
  /-- `HUFTAB.0`: an empty table descriptor (rules R64, R118). -/
  | huftab0 (role : Role)
  /-- `HUFTAB.1`: count field 1, 1 code lengths (rules R64, R118). -/
  | huftab1 (role : Role) (lens : List (BitVec 4))
  /-- `HUFTAB.2`: count field 2, 2 code lengths (rules R64, R118). -/
  | huftab2 (role : Role) (lens : List (BitVec 4))
  /-- `HUFTAB.3`: count field 3, 3 code lengths (rules R64, R118). -/
  | huftab3 (role : Role) (lens : List (BitVec 4))
  /-- `HUFTAB.4`: count field 4, 4 code lengths (rules R64, R118). -/
  | huftab4 (role : Role) (lens : List (BitVec 4))
  /-- `HUFTAB.5`: count field 5, 5 code lengths (rules R64, R118). -/
  | huftab5 (role : Role) (lens : List (BitVec 4))
  /-- `HUFTAB.6`: count field 6, 6 code lengths (rules R64, R118). -/
  | huftab6 (role : Role) (lens : List (BitVec 4))
  /-- `HUFTAB.7`: count field 7, 7 code lengths (rules R64, R118). -/
  | huftab7 (role : Role) (lens : List (BitVec 4))
  /-- `HUFTAB.8`: count field 8, 8 code lengths (rules R64, R118). -/
  | huftab8 (role : Role) (lens : List (BitVec 4))
  /-- `HUFTAB.9`: count field 9, 9 code lengths (rules R64, R118). -/
  | huftab9 (role : Role) (lens : List (BitVec 4))
  /-- `HUFTAB.10`: count field 10, 10 code lengths (rules R64, R118). -/
  | huftab10 (role : Role) (lens : List (BitVec 4))
  /-- `HUFTAB.11`: count field 11, 11 code lengths (rules R64, R118). -/
  | huftab11 (role : Role) (lens : List (BitVec 4))
  /-- `HUFTAB.12`: count field 12, 12 code lengths (rules R64, R118). -/
  | huftab12 (role : Role) (lens : List (BitVec 4))
  /-- `HUFTAB.13`: count field 13, 13 code lengths (rules R64, R118). -/
  | huftab13 (role : Role) (lens : List (BitVec 4))
  /-- `HUFTAB.14`: count field 14, 14 code lengths (rules R64, R118). -/
  | huftab14 (role : Role) (lens : List (BitVec 4))
  /-- `HUFTAB.15`: count field 15, 15 code lengths (rules R64, R118). -/
  | huftab15 (role : Role) (lens : List (BitVec 4))
  /-- `HUFTAB.16`: count field 16, 16 code lengths (rules R64, R118). -/
  | huftab16 (role : Role) (lens : List (BitVec 4))
  /-- `HUFTAB.17`: count field 17, clamped to 16, 16 code lengths (rules R64, R118). -/
  | huftab17 (role : Role) (lens : List (BitVec 4))
  /-- `HUFTAB.18`: count field 18, clamped to 16, 16 code lengths (rules R64, R118). -/
  | huftab18 (role : Role) (lens : List (BitVec 4))
  /-- `HUFTAB.19`: count field 19, clamped to 16, 16 code lengths (rules R64, R118). -/
  | huftab19 (role : Role) (lens : List (BitVec 4))
  /-- `HUFTAB.20`: count field 20, clamped to 16, 16 code lengths (rules R64, R118). -/
  | huftab20 (role : Role) (lens : List (BitVec 4))
  /-- `HUFTAB.21`: count field 21, clamped to 16, 16 code lengths (rules R64, R118). -/
  | huftab21 (role : Role) (lens : List (BitVec 4))
  /-- `HUFTAB.22`: count field 22, clamped to 16, 16 code lengths (rules R64, R118). -/
  | huftab22 (role : Role) (lens : List (BitVec 4))
  /-- `HUFTAB.23`: count field 23, clamped to 16, 16 code lengths (rules R64, R118). -/
  | huftab23 (role : Role) (lens : List (BitVec 4))
  /-- `HUFTAB.24`: count field 24, clamped to 16, 16 code lengths (rules R64, R118). -/
  | huftab24 (role : Role) (lens : List (BitVec 4))
  /-- `HUFTAB.25`: count field 25, clamped to 16, 16 code lengths (rules R64, R118). -/
  | huftab25 (role : Role) (lens : List (BitVec 4))
  /-- `HUFTAB.26`: count field 26, clamped to 16, 16 code lengths (rules R64, R118). -/
  | huftab26 (role : Role) (lens : List (BitVec 4))
  /-- `HUFTAB.27`: count field 27, clamped to 16, 16 code lengths (rules R64, R118). -/
  | huftab27 (role : Role) (lens : List (BitVec 4))
  /-- `HUFTAB.28`: count field 28, clamped to 16, 16 code lengths (rules R64, R118). -/
  | huftab28 (role : Role) (lens : List (BitVec 4))
  /-- `HUFTAB.29`: count field 29, clamped to 16, 16 code lengths (rules R64, R118). -/
  | huftab29 (role : Role) (lens : List (BitVec 4))
  /-- `HUFTAB.30`: count field 30, clamped to 16, 16 code lengths (rules R64, R118). -/
  | huftab30 (role : Role) (lens : List (BitVec 4))
  /-- `HUFTAB.31`: count field 31, clamped to 16, 16 code lengths (rules R64, R118). -/
  | huftab31 (role : Role) (lens : List (BitVec 4))
  /-- `NSUB`: the subchunk count (rules R65, R155). -/
  | nsub (n : BitVec 16)
  /-- `VAL.0`: value 0 (rules R66, R300). -/
  | val0 (role : Role)
  /-- `VAL.1`: value 1 (rules R66, R301). -/
  | val1 (role : Role)
  /-- `VAL.2`: value `2 + e` (rules R66, R302). -/
  | val2 (role : Role) (e : BitVec 1)
  /-- `VAL.3`: value `4 + e` (rules R66, R303). -/
  | val3 (role : Role) (e : BitVec 2)
  /-- `VAL.4`: value `8 + e` (rules R66, R304). -/
  | val4 (role : Role) (e : BitVec 3)
  /-- `VAL.5`: value `16 + e` (rules R66, R305). -/
  | val5 (role : Role) (e : BitVec 4)
  /-- `VAL.6`: value `32 + e` (rules R66, R306). -/
  | val6 (role : Role) (e : BitVec 5)
  /-- `VAL.7`: value `64 + e` (rules R66, R307). -/
  | val7 (role : Role) (e : BitVec 6)
  /-- `VAL.8`: value `128 + e` (rules R66, R308). -/
  | val8 (role : Role) (e : BitVec 7)
  /-- `VAL.9`: value `256 + e` (rules R66, R309). -/
  | val9 (role : Role) (e : BitVec 8)
  /-- `VAL.10`: value `512 + e` (rules R66, R310). -/
  | val10 (role : Role) (e : BitVec 9)
  /-- `VAL.11`: value `1024 + e` (rules R66, R311). -/
  | val11 (role : Role) (e : BitVec 10)
  /-- `VAL.12`: value `2048 + e` (rules R66, R312). -/
  | val12 (role : Role) (e : BitVec 11)
  /-- `VAL.13`: value `4096 + e` (rules R66, R313). -/
  | val13 (role : Role) (e : BitVec 12)
  /-- `VAL.14`: value `8192 + e` (rules R66, R314). -/
  | val14 (role : Role) (e : BitVec 13)
  /-- `VAL.15`: value `16384 + e` (rules R66, R315). -/
  | val15 (role : Role) (e : BitVec 14)
  /-- `LITRUN` (rules R67, R135). -/
  | litrun
  /-- `MATCH` (rules R68, R137). -/
  | lzmatch
  /-- `RESET`, a host operation (rule R200). -/
  | reset
  /-- `START`, a host operation (rule R150). -/
  | start
  /-- `RDBYTES(n)` (rule R90). -/
  | rdbytes (n : Nat)
  /-- `RDBE32()` (rule R91). -/
  | rdbe32
  /-- `RDBE16()` (rule R92). -/
  | rdbe16
  /-- `RDU8()` (rule R93). -/
  | rdu8
  /-- `LOOKW()` (rule R94). -/
  | lookw
  /-- `FETCHW()` (rule R95). -/
  | fetchw
  /-- `PEEK(n)`, `n <= 16` (rule R96). -/
  | peek (n : Nat)
  /-- `RDBITS(n)`, `n <= 16` (rule R97). -/
  | rdbits (n : Nat)
  /-- `MIRROR(c, w)`, `1 <= w <= 15` (rule R112). -/
  | mirror (c w : Nat)
  /-- `DECVAL(role)` (rule R125). -/
  | decval (role : Role)
  /-- `FORMVAL(i)`, `i` a slot index (rule R126). -/
  | formval (i : BitVec 4)
  /-- `CPYLIT(n)`, `1 <= n <= 32767` (rule R136). -/
  | cpylit (n : Nat)
  /-- `CPYMATCH(d, c)`, `1 <= d <= 32768`, `2 <= c <= 32769` (rule R139). -/
  | cpymatch (d c : Nat)
  /-- `StepHeader` (rule R153). -/
  | stepHeader
  /-- `StepBlock` (rule R154). -/
  | stepBlock
  /-- `StepSubchunk` (rule R156). -/
  | stepSubchunk
  /-- `EndBlock` (rule R157). -/
  | endBlock
deriving DecidableEq, Repr

end Sys2Proof
end

