-- ==== Sys2Proof/WellFormed.lean ====
section
/-! DEFINITION. Which operands a rule admits. A term of `Instr` outside it is no element of a stream and no call the
sequencer makes (30_encoding.md rule R64; 40_byte_and_bit_reader.md rules R96 to R98; 41_huffman_table_builder.md rule
R112; 43_lz_expander.md rules R136, R139). Operands whose type already says their range need no check. -/

namespace Sys2Proof

/-- The operands are those the instruction's rule names. -/
def Instr.wf : Instr → Bool
  | .hdr _ _ _ _ _ _ => true
  | .pad2 _ => true
  | .huftab0 _ => true
  | .huftab1 _ lens => lens.length == 1
  | .huftab2 _ lens => lens.length == 2
  | .huftab3 _ lens => lens.length == 3
  | .huftab4 _ lens => lens.length == 4
  | .huftab5 _ lens => lens.length == 5
  | .huftab6 _ lens => lens.length == 6
  | .huftab7 _ lens => lens.length == 7
  | .huftab8 _ lens => lens.length == 8
  | .huftab9 _ lens => lens.length == 9
  | .huftab10 _ lens => lens.length == 10
  | .huftab11 _ lens => lens.length == 11
  | .huftab12 _ lens => lens.length == 12
  | .huftab13 _ lens => lens.length == 13
  | .huftab14 _ lens => lens.length == 14
  | .huftab15 _ lens => lens.length == 15
  | .huftab16 _ lens => lens.length == 16
  | .huftab17 _ lens => lens.length == 16
  | .huftab18 _ lens => lens.length == 16
  | .huftab19 _ lens => lens.length == 16
  | .huftab20 _ lens => lens.length == 16
  | .huftab21 _ lens => lens.length == 16
  | .huftab22 _ lens => lens.length == 16
  | .huftab23 _ lens => lens.length == 16
  | .huftab24 _ lens => lens.length == 16
  | .huftab25 _ lens => lens.length == 16
  | .huftab26 _ lens => lens.length == 16
  | .huftab27 _ lens => lens.length == 16
  | .huftab28 _ lens => lens.length == 16
  | .huftab29 _ lens => lens.length == 16
  | .huftab30 _ lens => lens.length == 16
  | .huftab31 _ lens => lens.length == 16
  | .nsub _ => true
  | .val0 _ => true
  | .val1 _ => true
  | .val2 _ _ => true
  | .val3 _ _ => true
  | .val4 _ _ => true
  | .val5 _ _ => true
  | .val6 _ _ => true
  | .val7 _ _ => true
  | .val8 _ _ => true
  | .val9 _ _ => true
  | .val10 _ _ => true
  | .val11 _ _ => true
  | .val12 _ _ => true
  | .val13 _ _ => true
  | .val14 _ _ => true
  | .val15 _ _ => true
  | .litrun => true
  | .lzmatch => true
  | .reset => true
  | .start => true
  | .rdbytes _ => true
  | .rdbe32 => true
  | .rdbe16 => true
  | .rdu8 => true
  | .lookw => true
  | .fetchw => true
  | .peek n => decide (n ≤ Config.maxRead)
  | .rdbits n => decide (n ≤ Config.maxRead)
  | .mirror _ w => decide (1 ≤ w) && decide (w ≤ 15)
  | .decval _ => true
  | .formval _ => true
  | .cpylit n => decide (1 ≤ n) && decide (n ≤ 32767)
  | .cpymatch d c => decide (1 ≤ d) && decide (d ≤ 32768) && decide (2 ≤ c) && decide (c ≤ 32769)
  | .stepHeader => true
  | .stepBlock => true
  | .stepSubchunk => true
  | .endBlock => true

end Sys2Proof
end

