-- ==== Sys2Proof/Decode.lean ====
section
/-! DEFINITION. The decoder, total on any bytes and bits and rejecting by name, and after it the encoder, written from the
formats of 30_encoding.md rules R62 to R68. A bit format is one number whose bit 0 is the first bit consumed (rule R71).
There is no opcode field: the position in the grammar says which element stands next (rule R60). -/

namespace Sys2Proof

/-- Why no element stands at the cursor. Each is the cause of the error entry its rule names. -/
inductive Reject where
  /-- fewer bytes than the header needs (60_exceptions.md rule R176) -/
  | truncated
  /-- the first four bytes are not `52 4E 43 01` (rule R177) -/
  | badSignature
  /-- no used slot of the table in force matches the next bits (rule R178) -/
  | noMatch
deriving DecidableEq, Repr

/-- What the decoder answers. -/
inductive Decoded where
  | instr (i : Instr)
  | reject (r : Reject)
deriving DecidableEq, Repr

/-- `E[lo + n - 1 : lo]` (rule R5). -/
def bitField (E lo n : Nat) : Nat := (E >>> lo) &&& mask n

/-- Bytes read as a number, the lowest address the most significant (20_memory.md rule R42 a). -/
def beNat : List Byte → Nat
  | [] => 0
  | b :: bs => b.toNat * 256 ^ bs.length + beNat bs

/-- The `n` bytes of a number, the most significant at the lowest address (rule R42 a). -/
def beBytes : Nat → Nat → List Byte
  | 0, _ => []
  | n + 1, v => BitVec.ofNat 8 (v >>> (8 * n)) :: beBytes n v

/-- The `n` bytes of a number, the least significant at the lowest address (rule R42 b). -/
def leBytes : Nat → Nat → List Byte
  | 0, _ => []
  | n + 1, v => BitVec.ofNat 8 v :: leBytes n (v >>> 8)

/-- The table of a role (10_state.md rule R18). -/
def Tables.get (T : Tables) : Role → Table
  | .lit => T.lit
  | .dist => T.dist
  | .cnt => T.cnt

/-- One table replaced, the two others kept (rule R26). -/
def Tables.set (T : Tables) (r : Role) (t : Table) : Tables :=
  match r with
  | .lit => { T with lit := t }
  | .dist => { T with dist := t }
  | .cnt => { T with cnt := t }

/-- A slot no symbol uses (rule R18: for `depth = 0`, `code = 0`). -/
def unusedSlot : Slot := ⟨0, 0⟩

/-- A table with no used slot. -/
def emptyTable : Table := Vector.replicate 16 unusedSlot

/-- Three tables with no used slot, as after `RESET` (rule R23). -/
def emptyTables : Tables := ⟨emptyTable, emptyTable, emptyTable⟩

/-- The comparison of `DECVAL`: a used slot whose stored code equals the low `depth` bits of the peek
(42_value_decode.md rule R125). -/
def slotMatches (p : Nat) (t : Slot) : Bool :=
  t.depth != 0 && (p &&& mask t.depth.toNat) == t.code.toNat

/-- The scan of `DECVAL` over the slots from index `k` upward: the index and depth of the first match (rule R125). -/
def scanSlots (p : Nat) : List Slot → Nat → Option (Nat × Nat)
  | [], _ => none
  | t :: ts, k => if slotMatches p t then some (k, t.depth.toNat) else scanSlots p ts (k + 1)

/-- `HDR` (rule R62): the signature gate, then the length, then the six fields, in the order of 44_sequencer.md
rule R151. -/
def decodeHdr (b : List Byte) : Decoded :=
  if b.length < 4 then .reject .truncated
  else if beNat (b.take 4) ≠ Config.sig then .reject .badSignature
  else if b.length < Config.hdrLen then .reject .truncated
  else .instr (.hdr (BitVec.ofNat 32 (beNat ((b.drop 4).take 4))) (BitVec.ofNat 32 (beNat ((b.drop 8).take 4)))
    (BitVec.ofNat 16 (beNat ((b.drop 12).take 2))) (BitVec.ofNat 16 (beNat ((b.drop 14).take 2)))
    (BitVec.ofNat 8 (beNat ((b.drop 16).take 1))) (BitVec.ofNat 8 (beNat ((b.drop 17).take 1))))

/-- `n` code-length fields of 4 bits from bit 0 of `E` upward (rule R64). -/
def lengthFields : Nat → Nat → List (BitVec 4)
  | 0, _ => []
  | n + 1, E => BitVec.ofNat 4 E :: lengthFields n (E >>> Config.lenW)

/-- The `HUFTAB` row of a count field (rule R64). -/
def huftabInstr (r : Role) (count : Nat) (lens : List (BitVec 4)) : Instr :=
  match count with
  | 0 => .huftab0 r
  | 1 => .huftab1 r lens
  | 2 => .huftab2 r lens
  | 3 => .huftab3 r lens
  | 4 => .huftab4 r lens
  | 5 => .huftab5 r lens
  | 6 => .huftab6 r lens
  | 7 => .huftab7 r lens
  | 8 => .huftab8 r lens
  | 9 => .huftab9 r lens
  | 10 => .huftab10 r lens
  | 11 => .huftab11 r lens
  | 12 => .huftab12 r lens
  | 13 => .huftab13 r lens
  | 14 => .huftab14 r lens
  | 15 => .huftab15 r lens
  | 16 => .huftab16 r lens
  | 17 => .huftab17 r lens
  | 18 => .huftab18 r lens
  | 19 => .huftab19 r lens
  | 20 => .huftab20 r lens
  | 21 => .huftab21 r lens
  | 22 => .huftab22 r lens
  | 23 => .huftab23 r lens
  | 24 => .huftab24 r lens
  | 25 => .huftab25 r lens
  | 26 => .huftab26 r lens
  | 27 => .huftab27 r lens
  | 28 => .huftab28 r lens
  | 29 => .huftab29 r lens
  | 30 => .huftab30 r lens
  | _ => .huftab31 r lens

/-- `HUFTAB` (rule R64): the 5-bit count, then `min(count, 16)` lengths. -/
def decodeHuftab (r : Role) (E : Nat) : Instr :=
  huftabInstr r (bitField E 0 Config.cntW)
    (lengthFields (min (bitField E 0 Config.cntW) Config.nslot) (E >>> Config.cntW))

/-- The `VAL` row of a matched slot, with its extra bits (rule R66). -/
def valInstr (r : Role) (k e : Nat) : Instr :=
  match k with
  | 0 => .val0 r
  | 1 => .val1 r
  | 2 => .val2 r (BitVec.ofNat 1 e)
  | 3 => .val3 r (BitVec.ofNat 2 e)
  | 4 => .val4 r (BitVec.ofNat 3 e)
  | 5 => .val5 r (BitVec.ofNat 4 e)
  | 6 => .val6 r (BitVec.ofNat 5 e)
  | 7 => .val7 r (BitVec.ofNat 6 e)
  | 8 => .val8 r (BitVec.ofNat 7 e)
  | 9 => .val9 r (BitVec.ofNat 8 e)
  | 10 => .val10 r (BitVec.ofNat 9 e)
  | 11 => .val11 r (BitVec.ofNat 10 e)
  | 12 => .val12 r (BitVec.ofNat 11 e)
  | 13 => .val13 r (BitVec.ofNat 12 e)
  | 14 => .val14 r (BitVec.ofNat 13 e)
  | _ => .val15 r (BitVec.ofNat 14 e)

/-- `VAL` (rules R66, R128): the first matching slot, then its `k - 1` extra bits. -/
def decodeVal (r : Role) (t : Table) (E : Nat) : Decoded :=
  match scanSlots (bitField E 0 16) t.toList 0 with
  | none => .reject .noMatch
  | some (k, d) => .instr (valInstr r k (bitField E d (k - 1)))

/-- The element that stands next: `pos` is the position in the grammar, `T` the tables in force, `bytes` what `IN`
still holds at the cursor (18 bytes are enough) and `E` the next bits of the stream (80 are enough). At the two copy
positions nothing is read: the operands come from the values already decoded (43_lz_expander.md rules R135, R137). -/
def decode (pos : Elem) (T : Tables) (bytes : List Byte) (E : Nat) : Decoded :=
  match pos with
  | .hdr => decodeHdr bytes
  | .pad2 => .instr (.pad2 (BitVec.ofNat 2 E))
  | .tab r => .instr (decodeHuftab r E)
  | .nsub => .instr (.nsub (BitVec.ofNat 16 E))
  | .litVal => decodeVal .lit T.lit E
  | .litCopy run => .instr (.cpylit run)
  | .distVal => decodeVal .dist T.dist E
  | .cntVal _ => decodeVal .cnt T.cnt E
  | .matchCopy v1 v2 => .instr (.cpymatch (v1 + 1) (v2 + 2))

/-- What an instruction's encoding is: bytes of `IN`, a number of bits of the queue with their value, or nothing of its
own (the compound and the internal rows, rule R71). -/
inductive Encoding where
  | bytes (b : List Byte)
  | bits (width value : Nat)
  | internal
deriving DecidableEq, Repr

/-- The length fields as one number, slot 0 lowest (rule R64). -/
def packLengths : List (BitVec 4) → Nat
  | [] => 0
  | l :: ls => l.toNat ||| (packLengths ls <<< Config.lenW)

/-- `E[4:0] = count`, `E[8+4i : 5+4i] =` length of slot `i` (rule R64). -/
def encodeHuftab (count : Nat) (lens : List (BitVec 4)) : Encoding :=
  .bits (Config.cntW + Config.lenW * min count Config.nslot) (count ||| (packLengths lens <<< Config.cntW))

/-- `E[depth-1 : 0] =` the stored code of slot `k`, `E[depth+k-2 : depth] = e` (rule R66). -/
def encodeVal (T : Tables) (r : Role) (k e : Nat) : Encoding :=
  let t := (T.get r).toList.getD k unusedSlot
  .bits (t.depth.toNat + (k - 1)) (t.code.toNat ||| (e <<< t.depth.toNat))

/-- The encoding of an instruction; a `VAL`'s code is taken from the table in force. -/
def encode (T : Tables) : Instr → Encoding
  | .hdr u p c k m b => .bytes (beBytes 4 Config.sig ++ beBytes 4 u.toNat ++ beBytes 4 p.toNat ++ beBytes 2 c.toNat
      ++ beBytes 2 k.toNat ++ beBytes 1 m.toNat ++ beBytes 1 b.toNat)
  | .pad2 v => .bits Config.padW v.toNat
  | .huftab0 _ => encodeHuftab 0 []
  | .huftab1 _ lens => encodeHuftab 1 lens
  | .huftab2 _ lens => encodeHuftab 2 lens
  | .huftab3 _ lens => encodeHuftab 3 lens
  | .huftab4 _ lens => encodeHuftab 4 lens
  | .huftab5 _ lens => encodeHuftab 5 lens
  | .huftab6 _ lens => encodeHuftab 6 lens
  | .huftab7 _ lens => encodeHuftab 7 lens
  | .huftab8 _ lens => encodeHuftab 8 lens
  | .huftab9 _ lens => encodeHuftab 9 lens
  | .huftab10 _ lens => encodeHuftab 10 lens
  | .huftab11 _ lens => encodeHuftab 11 lens
  | .huftab12 _ lens => encodeHuftab 12 lens
  | .huftab13 _ lens => encodeHuftab 13 lens
  | .huftab14 _ lens => encodeHuftab 14 lens
  | .huftab15 _ lens => encodeHuftab 15 lens
  | .huftab16 _ lens => encodeHuftab 16 lens
  | .huftab17 _ lens => encodeHuftab 17 lens
  | .huftab18 _ lens => encodeHuftab 18 lens
  | .huftab19 _ lens => encodeHuftab 19 lens
  | .huftab20 _ lens => encodeHuftab 20 lens
  | .huftab21 _ lens => encodeHuftab 21 lens
  | .huftab22 _ lens => encodeHuftab 22 lens
  | .huftab23 _ lens => encodeHuftab 23 lens
  | .huftab24 _ lens => encodeHuftab 24 lens
  | .huftab25 _ lens => encodeHuftab 25 lens
  | .huftab26 _ lens => encodeHuftab 26 lens
  | .huftab27 _ lens => encodeHuftab 27 lens
  | .huftab28 _ lens => encodeHuftab 28 lens
  | .huftab29 _ lens => encodeHuftab 29 lens
  | .huftab30 _ lens => encodeHuftab 30 lens
  | .huftab31 _ lens => encodeHuftab 31 lens
  | .nsub n => .bits Config.nsubW n.toNat
  | .val0 r => encodeVal T r 0 0
  | .val1 r => encodeVal T r 1 0
  | .val2 r e => encodeVal T r 2 e.toNat
  | .val3 r e => encodeVal T r 3 e.toNat
  | .val4 r e => encodeVal T r 4 e.toNat
  | .val5 r e => encodeVal T r 5 e.toNat
  | .val6 r e => encodeVal T r 6 e.toNat
  | .val7 r e => encodeVal T r 7 e.toNat
  | .val8 r e => encodeVal T r 8 e.toNat
  | .val9 r e => encodeVal T r 9 e.toNat
  | .val10 r e => encodeVal T r 10 e.toNat
  | .val11 r e => encodeVal T r 11 e.toNat
  | .val12 r e => encodeVal T r 12 e.toNat
  | .val13 r e => encodeVal T r 13 e.toNat
  | .val14 r e => encodeVal T r 14 e.toNat
  | .val15 r e => encodeVal T r 15 e.toNat
  | .litrun => .internal
  | .lzmatch => .internal
  | .reset => .internal
  | .start => .internal
  | .rdbytes _ => .internal
  | .rdbe32 => .internal
  | .rdbe16 => .internal
  | .rdu8 => .internal
  | .lookw => .internal
  | .fetchw => .internal
  | .peek _ => .internal
  | .rdbits _ => .internal
  | .mirror _ _ => .internal
  | .decval _ => .internal
  | .formval _ => .internal
  | .cpylit _ => .internal
  | .cpymatch _ _ => .internal
  | .stepHeader => .internal
  | .stepBlock => .internal
  | .stepSubchunk => .internal
  | .endBlock => .internal

/-- The position a `VAL` of a role stands at (30_encoding.md rule R60). -/
def Role.valPosition : Role → Elem
  | .lit => .litVal
  | .dist => .distVal
  | .cnt => .cntVal 0

/-- The position of the grammar at which an encoded element stands (rule R60); none for a row with no bits of its own. -/
def Instr.position : Instr → Option Elem
  | .hdr _ _ _ _ _ _ => some .hdr
  | .pad2 _ => some .pad2
  | .huftab0 r => some (.tab r)
  | .huftab1 r _ => some (.tab r)
  | .huftab2 r _ => some (.tab r)
  | .huftab3 r _ => some (.tab r)
  | .huftab4 r _ => some (.tab r)
  | .huftab5 r _ => some (.tab r)
  | .huftab6 r _ => some (.tab r)
  | .huftab7 r _ => some (.tab r)
  | .huftab8 r _ => some (.tab r)
  | .huftab9 r _ => some (.tab r)
  | .huftab10 r _ => some (.tab r)
  | .huftab11 r _ => some (.tab r)
  | .huftab12 r _ => some (.tab r)
  | .huftab13 r _ => some (.tab r)
  | .huftab14 r _ => some (.tab r)
  | .huftab15 r _ => some (.tab r)
  | .huftab16 r _ => some (.tab r)
  | .huftab17 r _ => some (.tab r)
  | .huftab18 r _ => some (.tab r)
  | .huftab19 r _ => some (.tab r)
  | .huftab20 r _ => some (.tab r)
  | .huftab21 r _ => some (.tab r)
  | .huftab22 r _ => some (.tab r)
  | .huftab23 r _ => some (.tab r)
  | .huftab24 r _ => some (.tab r)
  | .huftab25 r _ => some (.tab r)
  | .huftab26 r _ => some (.tab r)
  | .huftab27 r _ => some (.tab r)
  | .huftab28 r _ => some (.tab r)
  | .huftab29 r _ => some (.tab r)
  | .huftab30 r _ => some (.tab r)
  | .huftab31 r _ => some (.tab r)
  | .nsub _ => some .nsub
  | .val0 r => some r.valPosition
  | .val1 r => some r.valPosition
  | .val2 r _ => some r.valPosition
  | .val3 r _ => some r.valPosition
  | .val4 r _ => some r.valPosition
  | .val5 r _ => some r.valPosition
  | .val6 r _ => some r.valPosition
  | .val7 r _ => some r.valPosition
  | .val8 r _ => some r.valPosition
  | .val9 r _ => some r.valPosition
  | .val10 r _ => some r.valPosition
  | .val11 r _ => some r.valPosition
  | .val12 r _ => some r.valPosition
  | .val13 r _ => some r.valPosition
  | .val14 r _ => some r.valPosition
  | .val15 r _ => some r.valPosition
  | .litrun => none
  | .lzmatch => none
  | .reset => none
  | .start => none
  | .rdbytes _ => none
  | .rdbe32 => none
  | .rdbe16 => none
  | .rdu8 => none
  | .lookw => none
  | .fetchw => none
  | .peek _ => none
  | .rdbits _ => none
  | .mirror _ _ => none
  | .decval _ => none
  | .formval _ => none
  | .cpylit _ => none
  | .cpymatch _ _ => none
  | .stepHeader => none
  | .stepBlock => none
  | .stepSubchunk => none
  | .endBlock => none

/-- The position the host's question about a table row is asked at: the bits alone do not say it (rule R60). 144 bits
are the header, and 0 bits a row with no encoding. One byte whose low five bits are 0 is `HUFTAB.0`, which has only that
word; any other byte is `PAD2`. Two bytes with a count field of 1 or 2 are `HUFTAB.1` or `HUFTAB.2`, the only descriptors of
that length; any other two bytes are `NSUB`. Every other number of bits is a descriptor of `T_LIT`.
DESIGN CHOICE (log entry 13). -/
def tablePosition (nbits w : Nat) : Option Elem :=
  if nbits = 0 then none
  else if nbits = 144 then some .hdr
  else if nbits = 8 ∧ bitField w 0 Config.cntW ≠ 0 then some .pad2
  else if nbits = 16 ∧ bitField w 0 Config.cntW ≠ 1 ∧ bitField w 0 Config.cntW ≠ 2 then some .nsub
  else some (.tab .lit)

/-- The bytes of `IN` that hold a table word: the header as the table writes it, byte 0 first (rule R71), every other
element as refill words, bit 0 the first bit of the lowest byte (rules R42, R43). -/
def tableBytes (nbits w : Nat) : List Byte :=
  if nbits = 144 then beBytes 18 w else leBytes 10 w

/-- The instruction the decoder reads from a word of spec/opcode_table.json. -/
def decodeTableWord (nbits w : Nat) : Option Instr :=
  match tablePosition nbits w with
  | none => none
  | some pos =>
    match decode pos emptyTables (tableBytes nbits w) w with
    | .instr i => some i
    | .reject _ => none

end Sys2Proof
end

