-- ==== Sys2Proof/Machine/State.lean ====
section
/-! DEFINITION. The state of the block as plain data (10_state.md rules R12 to R23), its reset, and the reasons a step
can stop. Counters, the cursor and the bit queue are natural numbers, as 42_value_decode.md rule R132 allows; their
widths are part of the invariant of Sys2Proof/Safety.lean (log entry 6). -/

namespace Sys2Proof.Machine

/-- `phase` (rule R12). -/
inductive Phase where
  | idle
  | header
  | perBlock
  | perSubchunk
  | done
  | failed
deriving DecidableEq, Repr

/-- The five errors (60_exceptions.md rule R175). Codes 0, 6 and 7 of the register are not errors. -/
inductive Error where
  /-- 1: fewer bytes remain in `IN` than a byte-reader operation needs (rule R176) -/
  | truncated
  /-- 2: `IN[0..3]` is not `52 4E 43 01` (rule R177) -/
  | badSignature
  /-- 3: no used slot matches the next bits (rule R178) -/
  | noMatch
  /-- 4: match distance greater than the bytes produced (rule R179) -/
  | badDistance
  /-- 5: the copy would make `olen` exceed `OUT_CAP` (rule R180) -/
  | outputOverflow
deriving DecidableEq, Repr

/-- The two host operations (rule R10). -/
inductive HostOp where
  | reset
  | start
deriving DecidableEq, Repr

/-- What a value-returning operation returned. The MODEL's own (log entry 3). -/
inductive Result where
  /-- no value is waiting -/
  | unit
  /-- a number -/
  | value (v : Nat)
  /-- a byte sequence (`RDBYTES`) -/
  | bytes (b : List Byte)
deriving DecidableEq, Repr

/-- A byte space: (address, byte) pairs, addresses strictly rising, no pair holding byte 0 (log entry 7). -/
abbrev Memory := List Host.Cell

/-- The canonical form of a byte space. -/
abbrev Memory.wf (m : Memory) : Prop :=
  m.Pairwise (fun x y => x.1 < y.1) ∧ ∀ x ∈ m, x.2 ≠ 0

/-- Everything the spec gives the block (rule R23), its parameters (rule R11) and three fields of the model's own. -/
structure State where
  /-- the kind of stream element that comes next (rule R12) -/
  phase : Phase
  /-- index of the block being decoded (rule R13) -/
  blk : Nat
  /-- subchunk count of the block (rule R13) -/
  nsub : Nat
  /-- index of the subchunk being decoded (rule R13) -/
  sub : Nat
  /-- the byte-source cursor (rule R14) -/
  ip : Nat
  /-- buffered bits, the next one at bit 0 (rule R15) -/
  bqVal : Nat
  /-- number of buffered bits (rule R15) -/
  bqCnt : Nat
  /-- header registers (rule R16) -/
  hSig : BitVec 32
  hUlen : BitVec 32
  hPlen : BitVec 32
  hCrc1 : BitVec 16
  hCrc2 : BitVec 16
  hMargin : BitVec 8
  hBlocks : BitVec 8
  /-- the three Huffman tables (rule R18) -/
  tabs : Tables
  /-- number of bytes produced (rule R20) -/
  olen : Nat
  /-- the output space (20_memory.md rule R41) -/
  out : Memory
  /-- cause of the failure, none for code 0 (rule R21) -/
  err : Option Error
  /-- parameter `IN_LEN` (00_scope.md rule R4) -/
  inLen : Nat
  /-- parameter `IN` (rules R4, R40) -/
  inMem : Memory
  /-- parameter `OUT_CAP`, none for INF (rule R4) -/
  outCap : Option Nat
  /-- the element that comes next inside the phase visit; the MODEL's own (log entry 1) -/
  elem : Elem
  /-- the value the last value-returning operation returned; the MODEL's own (log entry 3) -/
  ret : Result
  /-- the host's coming operations, one entry a step; the MODEL's own (log entry 4) -/
  hostIn : List (Option HostOp)
deriving DecidableEq, Repr

/-- Why the model stops with a fault. -/
inductive Fault where
  /-- `CPYMATCH` was called with distance 0 and would read `OUT[olen]`, which holds no byte (00_scope.md rule R6,
  20_memory.md rule R41). Raised by `execCpymatch` alone; no stream causes it (43_lz_expander.md rule R138). Safe. -/
  | undefinedOutByte
deriving DecidableEq, Repr

/-- Why the model gives an instruction no meaning. -/
inductive Refusal where
  /-- The instruction has no meaning yet. Raised by no arm of this model. Safe. -/
  | notModelled (mnemonic : String)
  /-- `RDBITS(n)` or `PEEK(n)` with `n > 16`: 40_byte_and_bit_reader.md rule R98 says that a model refuses the call.
  Raised by `execRdbits` and `execPeek`; no stream causes it. Safe. -/
  | widthAbove16
deriving DecidableEq, Repr

/-- The block after `RESET` (70_reset_and_hazards.md rule R200, 10_state.md rule R23), with the parameters at the values
log entry 5 names: no stream placed, capacity INF. Power-on before any `RESET` is no state of its own (rule R24; log
entry 14). -/
def State.reset : State where
  phase := .idle
  blk := 0
  nsub := 0
  sub := 0
  ip := 0
  bqVal := 0
  bqCnt := 0
  hSig := 0
  hUlen := 0
  hPlen := 0
  hCrc1 := 0
  hCrc2 := 0
  hMargin := 0
  hBlocks := 0
  tabs := emptyTables
  olen := 0
  out := []
  err := none
  inLen := 0
  inMem := []
  outCap := none
  elem := .hdr
  ret := .unit
  hostIn := []

end Sys2Proof.Machine
end

