-- ==== Sys2Proof/Machine/Flags.lean ====
section
/-! DEFINITION. The block has no condition codes (10_state.md rule R22). Its status bits are functions of `phase`, and the
`err` register is read as a 3-bit number (60_exceptions.md rule R175). -/

namespace Sys2Proof.Machine

/-- `busy` (rule R22). -/
def State.busy (s : State) : Bool := s.phase = .header || s.phase = .perBlock || s.phase = .perSubchunk

/-- `done` (rule R22). -/
def State.done (s : State) : Bool := s.phase = .done

/-- `fail` (rule R22). -/
def State.fail (s : State) : Bool := s.phase = .failed

/-- The code of an error (rule R175). -/
def Error.code : Error → BitVec 3
  | .truncated => 1
  | .badSignature => 2
  | .noMatch => 3
  | .badDistance => 4
  | .outputOverflow => 5

/-- `err` as the host reads it (rules R21, R175). -/
def State.errReg (s : State) : BitVec 3 :=
  match s.err with
  | none => 0
  | some e => e.code

end Sys2Proof.Machine
end

