-- ==== Sys2Proof/Machine/Ops.lean ====
section
/-! DEFINITION. The named operations over memory and registers: the byte spaces, error entry (the block's exception
entry), the byte reader and the bit queue (files 20, 40 and 60 of spec/). Nothing returns from an error: rule R184 says
that there is no such operation, `FAILED` is left by `START` or `RESET` alone. -/

namespace Sys2Proof.Machine

/-! ### Byte spaces (20_memory.md) -/

/-- The byte at an address of a space; an address with no entry holds byte 0 (log entry 7). -/
def Memory.read : Memory → Nat → Byte
  | [], _ => 0
  | (k, b) :: m, a => if k = a then b else Memory.read m a

/-- A byte stored; byte 0 is stored by having no entry, so that the canonical form is kept. -/
def Memory.write : Memory → Nat → Byte → Memory
  | [], a, v => if v = 0 then [] else [(a, v)]
  | (k, b) :: m, a, v =>
    if a < k then (if v = 0 then (k, b) :: m else (a, v) :: (k, b) :: m)
    else if a = k then (if v = 0 then m else (a, v) :: m)
    else (k, b) :: Memory.write m a v

/-- Bytes laid out from an address upward. -/
def Memory.ofBytes : Nat → List Byte → Memory
  | _, [] => []
  | a, b :: bs => if b = 0 then Memory.ofBytes (a + 1) bs else (a, b) :: Memory.ofBytes (a + 1) bs

/-- `MemRead(IN, a, 1)`, defined for `a < IN_LEN` only (00_scope.md rule R6). -/
def State.inByte (s : State) (a : Nat) : Option Byte :=
  if a < s.inLen then some (s.inMem.read a) else none

/-- `MemRead(OUT, a, 1)`, defined for `a < olen` only (rule R6). -/
def State.outByte (s : State) (a : Nat) : Option Byte :=
  if a < s.olen then some (s.out.read a) else none

/-- `MemWrite(OUT, olen, 1, v)` and `olen <- olen + 1`: the one way `OUT` is written (rule R41). -/
def appendOut (v : Byte) (s : State) : State :=
  { s with out := s.out.write s.olen v, olen := s.olen + 1 }

/-- The host places a stream and a capacity before `START` (70_reset_and_hazards.md rule R202; log entry 5). -/
def State.place (s : State) (bytes : List Byte) (cap : Option Nat) : State :=
  { s with inLen := bytes.length, inMem := Memory.ofBytes 0 bytes, outCap := cap }

/-! ### Taking an error (60_exceptions.md) -/

/-- What an operation of the spec's pseudocode comes to: it returns a value, or it has raised and error entry has been
performed, so that nothing after it runs (rule R6). -/
inductive Res (α : Type) where
  | ok (a : α) (s : State)
  | raised (s : State)
deriving Repr

/-- Sequence: what follows runs only if nothing was raised (rule R6). -/
def Res.andThen {α β : Type} (r : Res α) (f : α → State → Res β) : Res β :=
  match r with
  | .ok a s => f a s
  | .raised s => .raised s

/-- `ErrorEntry(E)`: `err` and `phase` are written, every other register and all of `OUT` keep their values (rule R183).
The model's own `elem` goes back to its idle value, since no element comes next (log entry 1). -/
def errorEntry (e : Error) (s : State) : State :=
  { s with err := some e, phase := .failed, elem := .hdr }

/-- `raise E` (rule R6). -/
def raise {α : Type} (e : Error) (s : State) : Res α := .raised (errorEntry e s)

/-- An instruction that returns nothing. -/
def Res.finish (r : Res Unit) : Host.Outcome State Fault Refusal :=
  match r with
  | .ok _ s => .next s
  | .raised s => .next s

/-- The state with a value waiting in the model's own `ret` (log entry 3). -/
def returning (v : Nat) (s : State) : State := { s with ret := .value v }

/-- An instruction that returns a number. -/
def Res.finishValue (r : Res Nat) : Host.Outcome State Fault Refusal :=
  match r with
  | .ok v s => .next (returning v s)
  | .raised s => .next s

/-- An instruction that returns bytes. -/
def Res.finishBytes (r : Res (List Byte)) : Host.Outcome State Fault Refusal :=
  match r with
  | .ok b s => .next { s with ret := .bytes b }
  | .raised s => .next s

/-! ### Byte reader (40_byte_and_bit_reader.md, section 1) -/

/-- The `n` bytes of `IN` from address `a` upward. -/
def State.inBytes (s : State) (a n : Nat) : List Byte := (List.range n).map fun j => s.inMem.read (a + j)

/-- `RDBYTES(n)` (rule R90). -/
def rdBytes (n : Nat) (s : State) : Res (List Byte) :=
  if s.ip + n > s.inLen then raise .truncated s
  else .ok (s.inBytes s.ip n) { s with ip := s.ip + n }

/-- `RDBE32()` (rule R91). -/
def rdBe32 (s : State) : Res Nat :=
  (rdBytes 4 s).andThen fun b s =>
    .ok (((b.getD 0 0).toNat <<< 24) ||| ((b.getD 1 0).toNat <<< 16) ||| ((b.getD 2 0).toNat <<< 8) ||| (b.getD 3 0).toNat) s

/-- `RDBE16()` (rule R92). -/
def rdBe16 (s : State) : Res Nat :=
  (rdBytes 2 s).andThen fun b s => .ok (((b.getD 0 0).toNat <<< 8) ||| (b.getD 1 0).toNat) s

/-- `RDU8()` (rule R93). -/
def rdU8 (s : State) : Res Nat :=
  (rdBytes 1 s).andThen fun b s => .ok (b.getD 0 0).toNat s

/-! ### Bit queue (40_byte_and_bit_reader.md, section 2) -/

/-- `LOOKW()`: the little-endian word at the cursor, a missing byte reading as 0 (rules R94, R46 a). -/
def lookW (s : State) : Nat :=
  let lo := ((s.inByte s.ip).getD 0).toNat
  let hi := ((s.inByte (s.ip + 1)).getD 0).toNat
  lo ||| (hi <<< 8)

/-- The cursor after `FETCHW()` (rule R95). -/
def fetched (s : State) : State := { s with ip := min (s.ip + 2) s.inLen }

/-- `FETCHW()` (rule R95). -/
def fetchW (s : State) : Nat × State := (lookW s, fetched s)

/-- `PEEK(n)`: it writes nothing (rule R96). -/
def peek (n : Nat) (s : State) : Nat :=
  if s.bqCnt ≥ n then s.bqVal else s.bqVal ||| (lookW s <<< s.bqCnt)

/-- The refill of `RDBITS`: exactly 16 bits are added, whatever `IN` still holds (rules R97, R209). -/
def refill (s : State) : State :=
  { (fetchW s).2 with bqVal := s.bqVal ||| ((fetchW s).1 <<< s.bqCnt), bqCnt := s.bqCnt + Config.refillW }

/-- The refill happens only when fewer than `n` bits are buffered (rule R97). -/
def ensure (n : Nat) (s : State) : State := if s.bqCnt < n then refill s else s

/-- The low `n` bits leave the queue (rule R97). -/
def consume (n : Nat) (s : State) : State := { s with bqVal := s.bqVal >>> n, bqCnt := s.bqCnt - n }

/-- `RDBITS(n)` (rule R97): the value and the state after it. -/
def rdBits (n : Nat) (s : State) : Nat × State :=
  ((ensure n s).bqVal &&& mask n, consume n (ensure n s))

/-- The next `16 * k` bits and those buffered, as the decoder sees them: what the queue would hold after `k` refills. It
is looked at and never kept (70_reset_and_hazards.md rule R205). -/
def lookahead : Nat → State → Nat
  | 0, s => s.bqVal
  | k + 1, s => lookahead k (refill s)

end Sys2Proof.Machine
end

