-- ==== Sys2Proof/Machine/Operands.lean ====
section
/-! DEFINITION. How the bits of an element are taken from the queue, and the value a slot index stands for
(30_encoding.md rules R64 to R66; 41_huffman_table_builder.md rule R110; 42_value_decode.md rule R126). -/

namespace Sys2Proof.Machine

/-- `n` length fields, read in slot order (rule R110). -/
def rdLengths : Nat → State → List (BitVec 4) × State
  | 0, s => ([], s)
  | n + 1, s =>
    let (l, s1) := rdBits Config.lenW s
    let (ls, s2) := rdLengths n s1
    (BitVec.ofNat 4 l :: ls, s2)

/-- The reads of a descriptor whose count field is `count`: the field, then `min(count, 16)` lengths (rules R64, R110). -/
def takeDescriptor (count : Nat) (s : State) : State :=
  (rdLengths (min count Config.nslot) (rdBits Config.cntW s).2).2

/-- The value of slot index `k` with extra bits `e` (rules R66, R126). -/
def slotValue (k e : Nat) : Nat := if k < 2 then k else e ||| (1 <<< (k - 1))

/-- The reads of a `VAL.k`: the code of slot `k` of the table in force, then `k - 1` extra bits for `k >= 2` (rule R128). -/
def takeValue (r : Role) (k : Nat) (s : State) : State :=
  let s1 := (rdBits ((s.tabs.get r).toList.getD k unusedSlot).depth.toNat s).2
  if k < 2 then s1 else (rdBits (k - 1) s1).2

end Sys2Proof.Machine
end

