-- ==== Sys2Proof/Machine/Reader.lean ====
section
/-! DEFINITION. The internal operations of the byte reader and the bit queue as instructions
(40_byte_and_bit_reader.md). -/

namespace Sys2Proof.Machine

/-- `RDBYTES(n)` (rule R90). -/
def execRdbytes (n : Nat) (s : State) : Host.Outcome State Fault Refusal := (rdBytes n s).finishBytes

/-- `RDBE32()` (rule R91). -/
def execRdbe32 (s : State) : Host.Outcome State Fault Refusal := (rdBe32 s).finishValue

/-- `RDBE16()` (rule R92). -/
def execRdbe16 (s : State) : Host.Outcome State Fault Refusal := (rdBe16 s).finishValue

/-- `RDU8()` (rule R93). -/
def execRdu8 (s : State) : Host.Outcome State Fault Refusal := (rdU8 s).finishValue

/-- `LOOKW()`; no register is written (rule R94). -/
def execLookw (s : State) : Host.Outcome State Fault Refusal := .next (returning (lookW s) s)

/-- `FETCHW()` (rule R95). -/
def execFetchw (s : State) : Host.Outcome State Fault Refusal := .next (returning (fetchW s).1 (fetchW s).2)

/-- `PEEK(n)`; no register is written (rule R96). A call with `n > 16` is refused (rule R98; log entry 9). -/
def execPeek (n : Nat) (s : State) : Host.Outcome State Fault Refusal :=
  if n > Config.maxRead then .refused .widthAbove16 else .next (returning (peek n s) s)

/-- `RDBITS(n)` (rule R97). A call with `n > 16` is refused (rule R98; log entry 9). -/
def execRdbits (n : Nat) (s : State) : Host.Outcome State Fault Refusal :=
  if n > Config.maxRead then .refused .widthAbove16 else .next (returning (rdBits n s).1 (rdBits n s).2)

end Sys2Proof.Machine
end

