-- ==== Sys2Proof/Machine/Huffman.lean ====
section
/-! DEFINITION. The canonical Huffman table builder (41_huffman_table_builder.md) and the 32 forms of `HUFTAB`. -/

namespace Sys2Proof.Machine

/-- `MIRROR(c, w)`: bit `j` of `c` goes to bit `w - 1 - j`; bits of `c` at `w` and above are dropped (rule R112;
log entry 11 for widths outside 1 to 15). -/
def mirror (c : Nat) : Nat → Nat
  | 0 => 0
  | w + 1 => (mirror c w <<< 1) ||| ((c >>> w) % 2)

/-- One pass of rule R111 over the slots in ascending order: each slot of length `len` takes the counter, which then
grows by 1. A slot is (length, code). -/
def codePass (len : Nat) : List (Nat × Nat) → Nat → List (Nat × Nat) × Nat
  | [], next => ([], next)
  | (l, c) :: rest, next =>
    if l = len then ((l, next) :: (codePass len rest (next + 1)).1, (codePass len rest (next + 1)).2)
    else ((l, c) :: (codePass len rest next).1, (codePass len rest next).2)

/-- The passes of rule R111, the counter doubled after each. -/
def codePasses : List Nat → List (Nat × Nat) → Nat → List (Nat × Nat)
  | [], slots, _ => slots
  | len :: lens, slots, next => codePasses lens (codePass len slots next).1 ((codePass len slots next).2 <<< 1)

/-- Canonical codes of a list of lengths: lengths 1 to 16, the counter from 0 (rule R111). -/
def canonicalCodes (lens : List Nat) : List (Nat × Nat) :=
  codePasses (List.range' 1 16) (lens.map fun l => (l, 0)) 0

/-- The sixteen lengths `L[0 .. 15]`, 0 for the slots the descriptor does not mention (rule R110). -/
def sixteenLengths (lens : List (BitVec 4)) : List Nat :=
  (List.range Config.nslot).map fun i => (lens.getD i 0).toNat

/-- The slot written for a length and a canonical code (rule R113). -/
def storedSlot (lc : Nat × Nat) : Slot :=
  if lc.1 = 0 then unusedSlot else ⟨BitVec.ofNat 4 lc.1, BitVec.ofNat 16 (mirror lc.2 lc.1)⟩

/-- The table of a list of lengths: all 16 slots, over-subscribed lengths too (rules R111 to R113, R115; log entry 17). -/
def buildTable (lens : List (BitVec 4)) : Table :=
  Vector.ofFn fun i : Fin 16 => storedSlot ((canonicalCodes (sixteenLengths lens)).getD i.val (0, 0))

/-- Step 3 of `HUFTAB[role]`: all 16 slots of one table and no slot of another (rule R113). -/
def installTable (r : Role) (lens : List (BitVec 4)) (s : State) : State :=
  { s with tabs := s.tabs.set r (buildTable lens) }

/-- `HUFTAB[role]` as the sequencer runs it on the stream (rule R118). -/
def huftab (r : Role) (s : State) : State :=
  let (count, s1) := rdBits Config.cntW s
  let (lens, s2) := rdLengths (min count Config.nslot) s1
  installTable r lens s2

/-- `HUFTAB.count` with the lengths its encoding carries: its bits leave the queue, the table is written (rule R118; log
entry 2). -/
def huftabForm (count : Nat) (r : Role) (lens : List (BitVec 4)) (s : State) : Host.Outcome State Fault Refusal :=
  .next (installTable r lens (takeDescriptor count s))

/-- `HUFTAB.0` (rules R114, R118). -/
def execHuftab0 (r : Role) (s : State) : Host.Outcome State Fault Refusal := huftabForm 0 r [] s

/-- `HUFTAB.1` (rule R118). -/
def execHuftab1 (r : Role) (lens : List (BitVec 4)) (s : State) : Host.Outcome State Fault Refusal := huftabForm 1 r lens s

/-- `HUFTAB.2` (rule R118). -/
def execHuftab2 (r : Role) (lens : List (BitVec 4)) (s : State) : Host.Outcome State Fault Refusal := huftabForm 2 r lens s

/-- `HUFTAB.3` (rule R118). -/
def execHuftab3 (r : Role) (lens : List (BitVec 4)) (s : State) : Host.Outcome State Fault Refusal := huftabForm 3 r lens s

/-- `HUFTAB.4` (rule R118). -/
def execHuftab4 (r : Role) (lens : List (BitVec 4)) (s : State) : Host.Outcome State Fault Refusal := huftabForm 4 r lens s

/-- `HUFTAB.5` (rule R118). -/
def execHuftab5 (r : Role) (lens : List (BitVec 4)) (s : State) : Host.Outcome State Fault Refusal := huftabForm 5 r lens s

/-- `HUFTAB.6` (rule R118). -/
def execHuftab6 (r : Role) (lens : List (BitVec 4)) (s : State) : Host.Outcome State Fault Refusal := huftabForm 6 r lens s

/-- `HUFTAB.7` (rule R118). -/
def execHuftab7 (r : Role) (lens : List (BitVec 4)) (s : State) : Host.Outcome State Fault Refusal := huftabForm 7 r lens s

/-- `HUFTAB.8` (rule R118). -/
def execHuftab8 (r : Role) (lens : List (BitVec 4)) (s : State) : Host.Outcome State Fault Refusal := huftabForm 8 r lens s

/-- `HUFTAB.9` (rule R118). -/
def execHuftab9 (r : Role) (lens : List (BitVec 4)) (s : State) : Host.Outcome State Fault Refusal := huftabForm 9 r lens s

/-- `HUFTAB.10` (rule R118). -/
def execHuftab10 (r : Role) (lens : List (BitVec 4)) (s : State) : Host.Outcome State Fault Refusal := huftabForm 10 r lens s

/-- `HUFTAB.11` (rule R118). -/
def execHuftab11 (r : Role) (lens : List (BitVec 4)) (s : State) : Host.Outcome State Fault Refusal := huftabForm 11 r lens s

/-- `HUFTAB.12` (rule R118). -/
def execHuftab12 (r : Role) (lens : List (BitVec 4)) (s : State) : Host.Outcome State Fault Refusal := huftabForm 12 r lens s

/-- `HUFTAB.13` (rule R118). -/
def execHuftab13 (r : Role) (lens : List (BitVec 4)) (s : State) : Host.Outcome State Fault Refusal := huftabForm 13 r lens s

/-- `HUFTAB.14` (rule R118). -/
def execHuftab14 (r : Role) (lens : List (BitVec 4)) (s : State) : Host.Outcome State Fault Refusal := huftabForm 14 r lens s

/-- `HUFTAB.15` (rule R118). -/
def execHuftab15 (r : Role) (lens : List (BitVec 4)) (s : State) : Host.Outcome State Fault Refusal := huftabForm 15 r lens s

/-- `HUFTAB.16` (rule R118). -/
def execHuftab16 (r : Role) (lens : List (BitVec 4)) (s : State) : Host.Outcome State Fault Refusal := huftabForm 16 r lens s

/-- `HUFTAB.17` (rule R118; the count is clamped to 16, rule R110). -/
def execHuftab17 (r : Role) (lens : List (BitVec 4)) (s : State) : Host.Outcome State Fault Refusal := huftabForm 17 r lens s

/-- `HUFTAB.18` (rule R118; the count is clamped to 16, rule R110). -/
def execHuftab18 (r : Role) (lens : List (BitVec 4)) (s : State) : Host.Outcome State Fault Refusal := huftabForm 18 r lens s

/-- `HUFTAB.19` (rule R118; the count is clamped to 16, rule R110). -/
def execHuftab19 (r : Role) (lens : List (BitVec 4)) (s : State) : Host.Outcome State Fault Refusal := huftabForm 19 r lens s

/-- `HUFTAB.20` (rule R118; the count is clamped to 16, rule R110). -/
def execHuftab20 (r : Role) (lens : List (BitVec 4)) (s : State) : Host.Outcome State Fault Refusal := huftabForm 20 r lens s

/-- `HUFTAB.21` (rule R118; the count is clamped to 16, rule R110). -/
def execHuftab21 (r : Role) (lens : List (BitVec 4)) (s : State) : Host.Outcome State Fault Refusal := huftabForm 21 r lens s

/-- `HUFTAB.22` (rule R118; the count is clamped to 16, rule R110). -/
def execHuftab22 (r : Role) (lens : List (BitVec 4)) (s : State) : Host.Outcome State Fault Refusal := huftabForm 22 r lens s

/-- `HUFTAB.23` (rule R118; the count is clamped to 16, rule R110). -/
def execHuftab23 (r : Role) (lens : List (BitVec 4)) (s : State) : Host.Outcome State Fault Refusal := huftabForm 23 r lens s

/-- `HUFTAB.24` (rule R118; the count is clamped to 16, rule R110). -/
def execHuftab24 (r : Role) (lens : List (BitVec 4)) (s : State) : Host.Outcome State Fault Refusal := huftabForm 24 r lens s

/-- `HUFTAB.25` (rule R118; the count is clamped to 16, rule R110). -/
def execHuftab25 (r : Role) (lens : List (BitVec 4)) (s : State) : Host.Outcome State Fault Refusal := huftabForm 25 r lens s

/-- `HUFTAB.26` (rule R118; the count is clamped to 16, rule R110). -/
def execHuftab26 (r : Role) (lens : List (BitVec 4)) (s : State) : Host.Outcome State Fault Refusal := huftabForm 26 r lens s

/-- `HUFTAB.27` (rule R118; the count is clamped to 16, rule R110). -/
def execHuftab27 (r : Role) (lens : List (BitVec 4)) (s : State) : Host.Outcome State Fault Refusal := huftabForm 27 r lens s

/-- `HUFTAB.28` (rule R118; the count is clamped to 16, rule R110). -/
def execHuftab28 (r : Role) (lens : List (BitVec 4)) (s : State) : Host.Outcome State Fault Refusal := huftabForm 28 r lens s

/-- `HUFTAB.29` (rule R118; the count is clamped to 16, rule R110). -/
def execHuftab29 (r : Role) (lens : List (BitVec 4)) (s : State) : Host.Outcome State Fault Refusal := huftabForm 29 r lens s

/-- `HUFTAB.30` (rule R118; the count is clamped to 16, rule R110). -/
def execHuftab30 (r : Role) (lens : List (BitVec 4)) (s : State) : Host.Outcome State Fault Refusal := huftabForm 30 r lens s

/-- `HUFTAB.31` (rule R118; the count is clamped to 16, rule R110). -/
def execHuftab31 (r : Role) (lens : List (BitVec 4)) (s : State) : Host.Outcome State Fault Refusal := huftabForm 31 r lens s

/-- `MIRROR(c, w)`; no register is written (rule R112). -/
def execMirror (c w : Nat) (s : State) : Host.Outcome State Fault Refusal := .next (returning (mirror c w) s)

end Sys2Proof.Machine
end

