-- ==== Sys2Proof/Machine/Values.lean ====
section
/-! DEFINITION. Symbol value decoding (42_value_decode.md): `DECVAL`, `FORMVAL` and the sixteen classes of `VAL`. -/

namespace Sys2Proof.Machine

/-- `FORMVAL(i)` (rule R126). -/
def formVal (i : Nat) (s : State) : Nat × State :=
  if i < 2 then (i, s) else (slotValue i (rdBits (i - 1) s).1, (rdBits (i - 1) s).2)

/-- `DECVAL(role)`: one peek, the scan, the code consumed, the value formed; `NoMatch` writes nothing else
(rules R125 to R127). -/
def decVal (r : Role) (s : State) : Res Nat :=
  match scanSlots (peek 16 s) (s.tabs.get r).toList 0 with
  | none => raise .noMatch s
  | some (k, d) => .ok (formVal k (rdBits d s).2).1 (formVal k (rdBits d s).2).2

/-- `VAL.k` with the extra bits its encoding carries (rule R128; log entries 2, 12). -/
def valForm (k : Nat) (r : Role) (e : Nat) (s : State) : Host.Outcome State Fault Refusal :=
  .next (returning (slotValue k e) (takeValue r k s))

/-- `DECVAL(role)` (rule R125). -/
def execDecval (r : Role) (s : State) : Host.Outcome State Fault Refusal := (decVal r s).finishValue

/-- `FORMVAL(i)` (rule R126). -/
def execFormval (k : BitVec 4) (s : State) : Host.Outcome State Fault Refusal :=
  .next (returning (formVal k.toNat s).1 (formVal k.toNat s).2)

/-- `VAL.0` (rule R300). -/
def execVal0 (r : Role) (s : State) : Host.Outcome State Fault Refusal := valForm 0 r 0 s

/-- `VAL.1` (rule R301). -/
def execVal1 (r : Role) (s : State) : Host.Outcome State Fault Refusal := valForm 1 r 0 s

/-- `VAL.2` (rule R302). -/
def execVal2 (r : Role) (e : BitVec 1) (s : State) : Host.Outcome State Fault Refusal := valForm 2 r e.toNat s

/-- `VAL.3` (rule R303). -/
def execVal3 (r : Role) (e : BitVec 2) (s : State) : Host.Outcome State Fault Refusal := valForm 3 r e.toNat s

/-- `VAL.4` (rule R304). -/
def execVal4 (r : Role) (e : BitVec 3) (s : State) : Host.Outcome State Fault Refusal := valForm 4 r e.toNat s

/-- `VAL.5` (rule R305). -/
def execVal5 (r : Role) (e : BitVec 4) (s : State) : Host.Outcome State Fault Refusal := valForm 5 r e.toNat s

/-- `VAL.6` (rule R306). -/
def execVal6 (r : Role) (e : BitVec 5) (s : State) : Host.Outcome State Fault Refusal := valForm 6 r e.toNat s

/-- `VAL.7` (rule R307). -/
def execVal7 (r : Role) (e : BitVec 6) (s : State) : Host.Outcome State Fault Refusal := valForm 7 r e.toNat s

/-- `VAL.8` (rule R308). -/
def execVal8 (r : Role) (e : BitVec 7) (s : State) : Host.Outcome State Fault Refusal := valForm 8 r e.toNat s

/-- `VAL.9` (rule R309). -/
def execVal9 (r : Role) (e : BitVec 8) (s : State) : Host.Outcome State Fault Refusal := valForm 9 r e.toNat s

/-- `VAL.10` (rule R310). -/
def execVal10 (r : Role) (e : BitVec 9) (s : State) : Host.Outcome State Fault Refusal := valForm 10 r e.toNat s

/-- `VAL.11` (rule R311). -/
def execVal11 (r : Role) (e : BitVec 10) (s : State) : Host.Outcome State Fault Refusal := valForm 11 r e.toNat s

/-- `VAL.12` (rule R312). -/
def execVal12 (r : Role) (e : BitVec 11) (s : State) : Host.Outcome State Fault Refusal := valForm 12 r e.toNat s

/-- `VAL.13` (rule R313). -/
def execVal13 (r : Role) (e : BitVec 12) (s : State) : Host.Outcome State Fault Refusal := valForm 13 r e.toNat s

/-- `VAL.14` (rule R314). -/
def execVal14 (r : Role) (e : BitVec 13) (s : State) : Host.Outcome State Fault Refusal := valForm 14 r e.toNat s

/-- `VAL.15` (rule R315). -/
def execVal15 (r : Role) (e : BitVec 14) (s : State) : Host.Outcome State Fault Refusal := valForm 15 r e.toNat s

end Sys2Proof.Machine
end

