-- ==== Sys2Proof/Machine/Expander.lean ====
section
/-! DEFINITION. Literal copy and back-reference expansion (43_lz_expander.md). -/

namespace Sys2Proof.Machine

/-- `olen + n > OUT_CAP`; never with `OUT_CAP = INF` (rule R141). -/
def overCap (n : Nat) (s : State) : Bool :=
  match s.outCap with
  | none => false
  | some cap => s.olen + n > cap

/-- The loop of `CPYLIT`: `n` bytes from the cursor to the end of `OUT` (rule R136). -/
def copyLiteral : Nat → State → State
  | 0, s => s
  | n + 1, s => copyLiteral n { appendOut (s.inMem.read s.ip) s with ip := s.ip + 1 }

/-- `CPYLIT(n)`: both tests before the first byte, `Truncated` first (rules R136, R182; log entry 11 for `n = 0` and
`n > 32767`). -/
def cpyLit (n : Nat) (s : State) : Res Unit :=
  if s.ip + n > s.inLen then raise .truncated s
  else if overCap n s then raise .outputOverflow s
  else .ok () (copyLiteral n s)

/-- The loop of `CPYMATCH`, byte-serial: iteration `j` reads `OUT[L0 - d + j]`, which an earlier iteration may have
written (rules R139, R204). -/
def copyMatch (L0 d : Nat) : Nat → Nat → State → State
  | 0, _, s => s
  | n + 1, j, s => copyMatch L0 d n (j + 1) (appendOut (s.out.read (L0 - d + j)) s)

/-- `CPYMATCH(d, c)`: both tests before the first byte, `BadDistance` first (rules R139 to R141). -/
def cpyMatch (d c : Nat) (s : State) : Res Unit :=
  if d > s.olen then raise .badDistance s
  else if overCap c s then raise .outputOverflow s
  else .ok () (copyMatch s.olen d c 0 s)

/-- `LITRUN()` (rule R135). -/
def litRun (s : State) : Res Unit :=
  (decVal .lit s).andThen fun run s => if run ≠ 0 then cpyLit run s else .ok () s

/-- `MATCH()`: both values before either is used (rule R137). -/
def lzMatch (s : State) : Res Unit :=
  (decVal .dist s).andThen fun v1 s => (decVal .cnt s).andThen fun v2 s => cpyMatch (v1 + 1) (v2 + 2) s

/-- `LITRUN` (rule R135). -/
def execLitrun (s : State) : Host.Outcome State Fault Refusal := (litRun s).finish

/-- `MATCH` (rule R137). -/
def execLzmatch (s : State) : Host.Outcome State Fault Refusal := (lzMatch s).finish

/-- `CPYLIT(n)` (rule R136). -/
def execCpylit (n : Nat) (s : State) : Host.Outcome State Fault Refusal := (cpyLit n s).finish

/-- `CPYMATCH(d, c)` (rule R139). Distance 0, which rule R138 says cannot be expressed, would read a byte that does not
exist (rule R6): a fault of the model (log entry 10). -/
def execCpymatch (d c : Nat) (s : State) : Host.Outcome State Fault Refusal :=
  if d = 0 then .fault .undefinedOutByte else (cpyMatch d c s).finish

end Sys2Proof.Machine
end

