-- ==== Sys2Proof/Machine/Sequencer.lean ====
section
/-! DEFINITION. The sequencer (44_sequencer.md) and `RESET` (70_reset_and_hazards.md rule R200). -/

namespace Sys2Proof.Machine

/-- Every register at its value in the table of 10_state.md rule R23, `phase` as given; the parameters and the host's
coming operations are not registers and stay (rules R150, R200). -/
def clearRegisters (p : Phase) (s : State) : State :=
  { State.reset with phase := p, inLen := s.inLen, inMem := s.inMem, outCap := s.outCap, hostIn := s.hostIn }

/-- `RESET`, accepted in every phase (rule R200). -/
def execReset (s : State) : Host.Outcome State Fault Refusal := .next (clearRegisters .idle s)

/-- `START`, ignored while busy (rule R150). -/
def execStart (s : State) : Host.Outcome State Fault Refusal :=
  if s.busy then .next s else .next (clearRegisters .header s)

/-- The signature of `HDR`: four bytes read, `h_sig` loaded, then tested (rule R151). -/
def hdrSignature (s : State) : Res Unit :=
  (rdBytes 4 s).andThen fun b s =>
    let sig := ((b.getD 0 0).toNat <<< 24) ||| ((b.getD 1 0).toNat <<< 16) ||| ((b.getD 2 0).toNat <<< 8) ||| (b.getD 3 0).toNat
    let s := { s with hSig := BitVec.ofNat 32 sig }
    if sig ≠ Config.sig then raise .badSignature s else .ok () s

/-- The tests of `HDR` in their order: 4 bytes, the signature, 14 more bytes (rules R151, R182). -/
def hdrGate (s : State) : Res Unit :=
  (hdrSignature s).andThen fun _ s => if s.ip + 14 > s.inLen then raise .truncated s else .ok () s

/-- `HDR()` as the sequencer runs it on the stream (rule R151). -/
def hdr (s : State) : Res Unit :=
  (hdrGate s).andThen fun _ s =>
  (rdBe32 s).andThen fun u s =>
  (rdBe32 { s with hUlen := BitVec.ofNat 32 u }).andThen fun p s =>
  (rdBe16 { s with hPlen := BitVec.ofNat 32 p }).andThen fun c s =>
  (rdBe16 { s with hCrc1 := BitVec.ofNat 16 c }).andThen fun k s =>
  (rdU8 { s with hCrc2 := BitVec.ofNat 16 k }).andThen fun m s =>
  (rdU8 { s with hMargin := BitVec.ofNat 8 m }).andThen fun b s =>
    .ok () { s with hBlocks := BitVec.ofNat 8 b }

/-- `HDR` with the fields its encoding carries: the tests on the stream, then the six registers and the cursor past the
14 bytes (rule R151; log entry 2). -/
def execHdr (u p : BitVec 32) (c k : BitVec 16) (m b : BitVec 8) (s : State) : Host.Outcome State Fault Refusal :=
  ((hdrGate s).andThen fun _ s =>
    .ok () { s with ip := s.ip + 14, hUlen := u, hPlen := p, hCrc1 := c, hCrc2 := k, hMargin := m, hBlocks := b }).finish

/-- `PAD2()` as the sequencer runs it (rule R152). -/
def pad2 (s : State) : State := (rdBits Config.padW s).2

/-- `PAD2`: two bits leave the queue, whatever they are (rule R152). -/
def execPad2 (_v : BitVec 2) (s : State) : Host.Outcome State Fault Refusal := .next (pad2 s)

/-- `NSUB()` as the sequencer runs it (rule R155). -/
def rdNsub (s : State) : State :=
  let (n, s1) := rdBits Config.nsubW s
  { s1 with nsub := n }

/-- `NSUB` with the count its encoding carries (rule R155; log entry 2). -/
def execNsub (n : BitVec 16) (s : State) : Host.Outcome State Fault Refusal :=
  .next { (rdBits Config.nsubW s).2 with nsub := n.toNat }

/-- `EndBlock()` (rule R157). -/
def endBlock (s : State) : State :=
  if s.blk + 1 = s.hBlocks.toNat then { s with blk := s.blk + 1, phase := .done, elem := .hdr }
  else { s with blk := s.blk + 1, phase := .perBlock, elem := .tab .lit }

/-- What `StepHeader` does after `HDR` and `PAD2` (rule R153). -/
def endHeader (s : State) : State :=
  if s.hBlocks = 0 then { s with blk := 0, phase := .done, elem := .hdr }
  else { s with blk := 0, phase := .perBlock, elem := .tab .lit }

/-- What `StepBlock` does after `NSUB` (rule R154). -/
def beginSubchunks (s : State) : State :=
  if s.nsub = 0 then endBlock { s with sub := 0 }
  else { s with sub := 0, phase := .perSubchunk, elem := .litVal }

/-- What `StepSubchunk` does after its elements (rule R156). -/
def endSubchunk (s : State) : State :=
  if s.sub + 1 = s.nsub then endBlock { s with sub := s.sub + 1 }
  else { s with sub := s.sub + 1, elem := .litVal }

/-- The test of `StepSubchunk` for a subchunk that has a `MATCH` (rule R156). -/
def hasMatch (s : State) : Bool := s.sub ≠ s.nsub - 1

/-- `StepHeader()` (rule R153). -/
def stepHeader (s : State) : Res Unit :=
  (hdr s).andThen fun _ s => .ok () (endHeader (pad2 s))

/-- `StepBlock()` (rule R154). -/
def stepBlock (s : State) : Res Unit :=
  .ok () (beginSubchunks (rdNsub (huftab .cnt (huftab .dist (huftab .lit s)))))

/-- `StepSubchunk()` (rule R156). -/
def stepSubchunk (s : State) : Res Unit :=
  (litRun s).andThen fun _ s =>
  (if hasMatch s then lzMatch s else .ok () s).andThen fun _ s => .ok () (endSubchunk s)

/-- `StepHeader` (rule R153). -/
def execStepHeader (s : State) : Host.Outcome State Fault Refusal := (stepHeader s).finish

/-- `StepBlock` (rule R154). -/
def execStepBlock (s : State) : Host.Outcome State Fault Refusal := (stepBlock s).finish

/-- `StepSubchunk` (rule R156). -/
def execStepSubchunk (s : State) : Host.Outcome State Fault Refusal := (stepSubchunk s).finish

/-- `EndBlock` (rule R157). -/
def execEndBlock (s : State) : Host.Outcome State Fault Refusal := .next (endBlock s)

/-- What the sequencer does after the element at `pos` has run: the tail of a step where the element was its last, else
the next position (rules R153, R154, R156, R135, R137). A value waiting in `ret` is handed over and no longer waits. -/
def advance (pos : Elem) (s : State) : State :=
  let t : State := { s with ret := .unit }
  match pos, s.ret with
  | .hdr, _ => { t with elem := .pad2 }
  | .pad2, _ => endHeader t
  | .tab .lit, _ => { t with elem := .tab .dist }
  | .tab .dist, _ => { t with elem := .tab .cnt }
  | .tab .cnt, _ => { t with elem := .nsub }
  | .nsub, _ => beginSubchunks t
  | .litVal, .value run =>
    if run ≠ 0 then { t with elem := .litCopy run }
    else if hasMatch t then { t with elem := .distVal }
    else endSubchunk t
  | .litCopy _, _ => if hasMatch t then { t with elem := .distVal } else endSubchunk t
  | .distVal, .value v1 => { t with elem := .cntVal v1 }
  | .cntVal v1, .value v2 => { t with elem := .matchCopy v1 v2 }
  | .matchCopy _ _, _ => endSubchunk t
  | .litVal, _ => t
  | .distVal, _ => t
  | .cntVal _, _ => t

end Sys2Proof.Machine
end

