-- ==== Sys2Proof/Machine/Dispatch.lean ====
section
/-! DEFINITION. One arm per row of spec/opcode_table.json, each one direct call of that row's meaning. -/

namespace Sys2Proof.Machine

def exec (i : Instr) (s : State) : Host.Outcome State Fault Refusal :=
  match i with
  | .hdr u p c k m b => Sys2Proof.Machine.execHdr u p c k m b s
  | .pad2 v => Sys2Proof.Machine.execPad2 v s
  | .huftab0 r => Sys2Proof.Machine.execHuftab0 r s
  | .huftab1 r lens => Sys2Proof.Machine.execHuftab1 r lens s
  | .huftab2 r lens => Sys2Proof.Machine.execHuftab2 r lens s
  | .huftab3 r lens => Sys2Proof.Machine.execHuftab3 r lens s
  | .huftab4 r lens => Sys2Proof.Machine.execHuftab4 r lens s
  | .huftab5 r lens => Sys2Proof.Machine.execHuftab5 r lens s
  | .huftab6 r lens => Sys2Proof.Machine.execHuftab6 r lens s
  | .huftab7 r lens => Sys2Proof.Machine.execHuftab7 r lens s
  | .huftab8 r lens => Sys2Proof.Machine.execHuftab8 r lens s
  | .huftab9 r lens => Sys2Proof.Machine.execHuftab9 r lens s
  | .huftab10 r lens => Sys2Proof.Machine.execHuftab10 r lens s
  | .huftab11 r lens => Sys2Proof.Machine.execHuftab11 r lens s
  | .huftab12 r lens => Sys2Proof.Machine.execHuftab12 r lens s
  | .huftab13 r lens => Sys2Proof.Machine.execHuftab13 r lens s
  | .huftab14 r lens => Sys2Proof.Machine.execHuftab14 r lens s
  | .huftab15 r lens => Sys2Proof.Machine.execHuftab15 r lens s
  | .huftab16 r lens => Sys2Proof.Machine.execHuftab16 r lens s
  | .huftab17 r lens => Sys2Proof.Machine.execHuftab17 r lens s
  | .huftab18 r lens => Sys2Proof.Machine.execHuftab18 r lens s
  | .huftab19 r lens => Sys2Proof.Machine.execHuftab19 r lens s
  | .huftab20 r lens => Sys2Proof.Machine.execHuftab20 r lens s
  | .huftab21 r lens => Sys2Proof.Machine.execHuftab21 r lens s
  | .huftab22 r lens => Sys2Proof.Machine.execHuftab22 r lens s
  | .huftab23 r lens => Sys2Proof.Machine.execHuftab23 r lens s
  | .huftab24 r lens => Sys2Proof.Machine.execHuftab24 r lens s
  | .huftab25 r lens => Sys2Proof.Machine.execHuftab25 r lens s
  | .huftab26 r lens => Sys2Proof.Machine.execHuftab26 r lens s
  | .huftab27 r lens => Sys2Proof.Machine.execHuftab27 r lens s
  | .huftab28 r lens => Sys2Proof.Machine.execHuftab28 r lens s
  | .huftab29 r lens => Sys2Proof.Machine.execHuftab29 r lens s
  | .huftab30 r lens => Sys2Proof.Machine.execHuftab30 r lens s
  | .huftab31 r lens => Sys2Proof.Machine.execHuftab31 r lens s
  | .nsub n => Sys2Proof.Machine.execNsub n s
  | .val0 r => Sys2Proof.Machine.execVal0 r s
  | .val1 r => Sys2Proof.Machine.execVal1 r s
  | .val2 r e => Sys2Proof.Machine.execVal2 r e s
  | .val3 r e => Sys2Proof.Machine.execVal3 r e s
  | .val4 r e => Sys2Proof.Machine.execVal4 r e s
  | .val5 r e => Sys2Proof.Machine.execVal5 r e s
  | .val6 r e => Sys2Proof.Machine.execVal6 r e s
  | .val7 r e => Sys2Proof.Machine.execVal7 r e s
  | .val8 r e => Sys2Proof.Machine.execVal8 r e s
  | .val9 r e => Sys2Proof.Machine.execVal9 r e s
  | .val10 r e => Sys2Proof.Machine.execVal10 r e s
  | .val11 r e => Sys2Proof.Machine.execVal11 r e s
  | .val12 r e => Sys2Proof.Machine.execVal12 r e s
  | .val13 r e => Sys2Proof.Machine.execVal13 r e s
  | .val14 r e => Sys2Proof.Machine.execVal14 r e s
  | .val15 r e => Sys2Proof.Machine.execVal15 r e s
  | .litrun => Sys2Proof.Machine.execLitrun s
  | .lzmatch => Sys2Proof.Machine.execLzmatch s
  | .reset => Sys2Proof.Machine.execReset s
  | .start => Sys2Proof.Machine.execStart s
  | .rdbytes n => Sys2Proof.Machine.execRdbytes n s
  | .rdbe32 => Sys2Proof.Machine.execRdbe32 s
  | .rdbe16 => Sys2Proof.Machine.execRdbe16 s
  | .rdu8 => Sys2Proof.Machine.execRdu8 s
  | .lookw => Sys2Proof.Machine.execLookw s
  | .fetchw => Sys2Proof.Machine.execFetchw s
  | .peek n => Sys2Proof.Machine.execPeek n s
  | .rdbits n => Sys2Proof.Machine.execRdbits n s
  | .mirror c w => Sys2Proof.Machine.execMirror c w s
  | .decval r => Sys2Proof.Machine.execDecval r s
  | .formval k => Sys2Proof.Machine.execFormval k s
  | .cpylit n => Sys2Proof.Machine.execCpylit n s
  | .cpymatch d c => Sys2Proof.Machine.execCpymatch d c s
  | .stepHeader => Sys2Proof.Machine.execStepHeader s
  | .stepBlock => Sys2Proof.Machine.execStepBlock s
  | .stepSubchunk => Sys2Proof.Machine.execStepSubchunk s
  | .endBlock => Sys2Proof.Machine.execEndBlock s

end Sys2Proof.Machine
end

