-- ==== Sys2Proof/Machine/Step.lean ====
section
/-! DEFINITION. One step of the block: the host's operation if one arrives, else the next stream element
(44_sequencer.md section 3, split as rule R162 allows; log entries 1, 4, 8). -/

namespace Sys2Proof.Machine

/-- What `IN` still holds at the cursor, as many as 18 bytes. -/
def State.headBytes (s : State) : List Byte := s.inBytes s.ip (min Config.hdrLen (s.inLen - s.ip))

/-- The element that stands next in the stream, at the position the sequencer is at. -/
def State.fetch (s : State) : Decoded := decode s.elem s.tabs s.headBytes (lookahead 5 s)

/-- Where no element stands at the position, the operation that reads it there raises (rules R151, R127). -/
def rejectStep (r : Reject) (s : State) : Host.Outcome State Fault Refusal :=
  match r with
  | .truncated => (hdrGate s).finish
  | .badSignature => (hdrGate s).finish
  | .noMatch => .next (errorEntry .noMatch s)

/-- After an element: the sequencer goes on unless the element raised (rule R183). -/
def afterElement (pos : Elem) (o : Host.Outcome State Fault Refusal) : Host.Outcome State Fault Refusal :=
  match o with
  | .next t => if t.phase = .failed then .next t else .next (advance pos t)
  | .fault f => .fault f
  | .refused r => .refused r

/-- One element of the run. `IDLE`, `DONE` and `FAILED` have no step: the state stays as it is (rule R158; log entry 8). -/
def blockStep (s : State) : Host.Outcome State Fault Refusal :=
  if s.busy then
    match s.fetch with
    | .instr i => afterElement s.elem (exec i s)
    | .reject r => rejectStep r s
  else .next s

/-- The instruction of a host operation. -/
def HostOp.instr : HostOp → Instr
  | .reset => .reset
  | .start => .start

/-- One step. -/
def step (s : State) : Host.Outcome State Fault Refusal :=
  match s.hostIn with
  | [] => blockStep s
  | none :: rest => blockStep { s with hostIn := rest }
  | some op :: rest => exec op.instr { s with hostIn := rest }

/-- `s` with a table word standing where the step fetches its next element: the word is all of `IN`, the cursor is at its
first byte, the bit queue is empty, no host operation comes first, and the sequencer is at the position and in the phase
in which such an element is read. A descriptor or a subchunk count belongs to a block, so `h_blocks` is 1 there
(10_state.md rule R25 f). A row with no encoding changes nothing (log entries 5, 13). -/
def State.withFetchWord (s : State) (nbits w : Nat) : State :=
  match tablePosition nbits w with
  | none => s
  | some pos =>
    { s with
      inLen := (tableBytes nbits w).length
      inMem := Memory.ofBytes 0 (tableBytes nbits w)
      ip := 0
      bqVal := 0
      bqCnt := 0
      elem := pos
      phase := if pos = .hdr ∨ pos = .pad2 then .header else .perBlock
      hBlocks := if pos = .hdr ∨ pos = .pad2 then s.hBlocks else 1
      hostIn := [] }

end Sys2Proof.Machine
end

