-- ==== Sys2Proof/Safety.lean ====
section
/-! DEFINITION. What counts as a safe run, and the vocabulary the statements use: the invariant of 10_state.md rule R25,
the stream seen as a sequence of bits (40_byte_and_bit_reader.md rule R101), and the whole run (44_sequencer.md rules R159,
R161). The stream is described here without `RDBITS`, `PEEK` or the decoder, so that a statement says something of them. -/

namespace Sys2Proof.Machine

/-! ### The invariant -/

/-- The position inside the phase visit fits the phase, and its scratch values are in range (42_value_decode.md rule
R129; a `MATCH` stands only in a subchunk that is not the last, 44_sequencer.md rule R156). -/
def State.positionOk (s : State) : Prop :=
  match s.elem with
  | .hdr => s.phase ≠ .perBlock ∧ s.phase ≠ .perSubchunk
  | .pad2 => s.phase = .header
  | .tab _ => s.phase = .perBlock
  | .nsub => s.phase = .perBlock
  | .litVal => s.phase = .perSubchunk
  | .litCopy run => s.phase = .perSubchunk ∧ 1 ≤ run ∧ run ≤ 32767
  | .distVal => s.phase = .perSubchunk ∧ s.sub + 1 < s.nsub
  | .cntVal v1 => s.phase = .perSubchunk ∧ s.sub + 1 < s.nsub ∧ v1 ≤ 32767
  | .matchCopy v1 v2 => s.phase = .perSubchunk ∧ s.sub + 1 < s.nsub ∧ v1 ≤ 32767 ∧ v2 ≤ 32767

/-- What the bit reader needs of a state (rule R25 a, b, c). -/
structure State.Reads (s : State) : Prop where
  /-- (a) the cursor is inside `IN` or at its end -/
  cursor : s.ip ≤ s.inLen
  /-- (b) no stray bits above the count -/
  queueVal : s.bqVal < 2 ^ s.bqCnt
  /-- (c) at most 15 bits stay buffered between operations -/
  queueCnt : s.bqCnt ≤ 15

/-- The invariant of rule R25 with the widths of rule R23. The clauses on `IN`, `OUT` and the position are about the
model's own representation (log entries 1, 7). -/
structure State.Inv (s : State) : Prop where
  /-- (a), (b), (c) -/
  reads : s.Reads
  /-- (d) a stored code fits its depth; with `depth = 0` the code is 0 -/
  slots : ∀ r, ∀ t ∈ (s.tabs.get r).toList, t.code.toNat < 2 ^ t.depth.toNat
  /-- (e) the output fits the capacity, which is below 2^32 -/
  capacity : ∀ cap, s.outCap = some cap → s.olen ≤ cap ∧ cap < 2 ^ 32
  /-- (f) -/
  blocks : s.blk ≤ s.hBlocks.toNat
  /-- (g) with a block in progress there is one left to finish -/
  inBlock : s.phase = .perBlock → s.blk < s.hBlocks.toNat
  /-- (g) -/
  inSubchunk : s.phase = .perSubchunk → s.sub < s.nsub ∧ s.blk < s.hBlocks.toNat
  /-- no block is counted before the header is read -/
  inHeader : s.phase = .header → s.blk = 0
  /-- (h) -/
  error : s.err ≠ none ↔ s.phase = .failed
  /-- (i) -/
  idle : s.phase = .idle → s = clearRegisters .idle s
  /-- `IN_LEN < 2^32` (00_scope.md rule R4) -/
  inLenBound : s.inLen < 2 ^ 32
  /-- rule R13 -/
  counts : s.sub ≤ s.nsub ∧ s.nsub ≤ 65535
  /-- the model's own position -/
  position : s.positionOk
  /-- both byte spaces are in canonical form and hold nothing at or above their bound -/
  inSpace : s.inMem.wf ∧ ∀ x ∈ s.inMem, x.1 < s.inLen
  outSpace : s.out.wf ∧ ∀ x ∈ s.out, x.1 < s.olen

/-! ### The stream as bits -/

/-- The byte of `IN` at an address, 0 where none exists (20_memory.md rule R46 a). -/
def State.streamByte (s : State) (a : Nat) : Byte := if a < s.inLen then s.inMem.read a else 0

/-- Bit `i` of the bits still to come: the buffered ones, then those of the bytes at the cursor, each byte's bit 0 first
(rules R43, R101), zeros past the end (rule R100). -/
def State.streamBit (s : State) (i : Nat) : Bool :=
  if i < s.bqCnt then s.bqVal.testBit i
  else (s.streamByte (s.ip + (i - s.bqCnt) / 8)).toNat.testBit ((i - s.bqCnt) % 8)

/-- The `n` bits from bit `lo` on as a field, its own bit 0 first in the stream (rule R43). -/
def State.streamField (s : State) (lo : Nat) : Nat → Nat
  | 0 => 0
  | n + 1 => State.streamField s lo n + if s.streamBit (lo + n) then 2 ^ n else 0

/-- How many words are fetched before `n` bits have been handed out: none while the buffered bits last
(rules R15, R97). -/
def State.wordsFor (s : State) (n : Nat) : Nat := (n - s.bqCnt + 15) / 16

/-- The state after `n` bits have been handed out: the cursor past the words fetched but never past the end
(rule R95), and the rest of the last word buffered. -/
def State.afterBits (s : State) (n : Nat) : State :=
  { s with
    ip := min (s.ip + 2 * s.wordsFor n) s.inLen
    bqCnt := s.bqCnt + 16 * s.wordsFor n - n
    bqVal := s.streamField n (s.bqCnt + 16 * s.wordsFor n - n) }

/-- Slot `i` of a table of the state. -/
def State.slot (s : State) (r : Role) (i : Nat) : Slot := (s.tabs.get r).toList.getD i unusedSlot

/-- The first used slot whose stored code stands next in the stream (42_value_decode.md rule R125). -/
def State.matchedSlot (s : State) (r : Role) : Option Nat :=
  (List.range 16).find? fun i =>
    decide ((s.slot r i).depth ≠ 0) && decide (s.streamField 0 (s.slot r i).depth.toNat = (s.slot r i).code.toNat)

/-- Bits of a `VAL` of class `k` (rule R66): its code and `k - 1` extra bits. -/
def State.valueBits (s : State) (r : Role) (k : Nat) : Nat := (s.slot r k).depth.toNat + (k - 1)

/-- The value of a `VAL` of class `k` whose extra bits stand in the stream after its code (rule R66). -/
def State.valueOf (s : State) (r : Role) (k : Nat) : Nat :=
  if k < 2 then k else 2 ^ (k - 1) + s.streamField (s.slot r k).depth.toNat (k - 1)

/-- The state after a `VAL` of class `k` that came to the value `v`: its bits gone, the value handed over
(42_value_decode.md rules R125, R126; log entry 3). -/
def State.valued (s : State) (r : Role) (k v : Nat) : State := { s.afterBits (s.valueBits r k) with ret := .value v }

/-- The lengths a descriptor at the head of the stream gives (30_encoding.md rule R64). -/
def State.descriptorLengths (s : State) : List (BitVec 4) :=
  (List.range (min (s.streamField 0 5) 16)).map fun i => BitVec.ofNat 4 (s.streamField (5 + 4 * i) 4)

/-- The state after the descriptor at the head of the stream has been built into the table of a role. -/
def State.afterDescriptor (s : State) (r : Role) : State :=
  { s.afterBits (5 + 4 * min (s.streamField 0 5) 16) with tabs := s.tabs.set r (buildTable s.descriptorLengths) }

/-! ### The header and the errors -/

/-- The big-endian number of the two bytes at an address (20_memory.md rule R42 a). -/
def State.be16At (s : State) (a : Nat) : Nat := (s.streamByte a).toNat * 256 + (s.streamByte (a + 1)).toNat

/-- The big-endian number of the four bytes at an address (rule R42 a). -/
def State.be32At (s : State) (a : Nat) : Nat := s.be16At a * 65536 + s.be16At (a + 2)

/-- The first four bytes of the header read and `h_sig` loaded (44_sequencer.md rule R151). -/
def State.afterSignature (s : State) : State :=
  { s with ip := s.ip + 4, hSig := BitVec.ofNat 32 (s.be32At s.ip) }

/-- The whole header is there and begins `52 4E 43 01` (rule R151). -/
def State.headerOk (s : State) : Prop := s.ip + 18 ≤ s.inLen ∧ s.be32At s.ip = 0x524E4301

/-- `HDR` done (30_encoding.md rule R62, 44_sequencer.md rule R151). -/
def State.afterHeader (s : State) : State :=
  { s with
    ip := s.ip + 18
    hSig := 0x524E4301
    hUlen := BitVec.ofNat 32 (s.be32At (s.ip + 4))
    hPlen := BitVec.ofNat 32 (s.be32At (s.ip + 8))
    hCrc1 := BitVec.ofNat 16 (s.be16At (s.ip + 12))
    hCrc2 := BitVec.ofNat 16 (s.be16At (s.ip + 14))
    hMargin := s.streamByte (s.ip + 16)
    hBlocks := s.streamByte (s.ip + 17) }

/-- The state an error leaves: `err` and `phase` written, everything else frozen (60_exceptions.md rule R183). The
model's own `elem` goes back to `hdr`, since no element comes next (log entry 1). -/
def State.failedWith (s : State) (e : Error) : State := { s with err := some e, phase := .failed, elem := .hdr }

/-- A block is finished (44_sequencer.md rule R157). -/
def State.blockEnded (s : State) : State :=
  { s with
    blk := s.blk + 1
    phase := if s.blk + 1 = s.hBlocks.toNat then .done else .perBlock
    elem := if s.blk + 1 = s.hBlocks.toNat then .hdr else .tab .lit }

/-! ### Canonical codes, in closed form (41_huffman_table_builder.md rule R111) -/

/-- Length of slot `i`, 0 where the descriptor gives none. -/
def lengthAt (lens : List (BitVec 4)) (i : Nat) : Nat := (lens.getD i 0).toNat

/-- How many of the first `n` slots have length `len`. -/
def slotsOfLength (lens : List (BitVec 4)) (len : Nat) : Nat → Nat
  | 0 => 0
  | n + 1 => slotsOfLength lens len n + if lengthAt lens n = len then 1 else 0

/-- The first code of a length: twice the code after the last one of the length below. -/
def firstCode (lens : List (BitVec 4)) : Nat → Nat
  | 0 => 0
  | len + 1 => if len = 0 then 0 else 2 * (firstCode lens len + slotsOfLength lens len 16)

/-- The canonical code of slot `i`: codes of one length are consecutive, in slot order. -/
def canonicalCode (lens : List (BitVec 4)) (i : Nat) : Nat :=
  firstCode lens (lengthAt lens i) + slotsOfLength lens (lengthAt lens i) i

/-- `2^15` times the sum of `2^(-length)` over the used slots (rules R115 to R117). -/
def kraftSum (lens : List (BitVec 4)) : Nat :=
  ((List.range 16).map fun i => if lengthAt lens i = 0 then 0 else 2 ^ (15 - lengthAt lens i)).sum

/-- No used slot's stored code is the low bits of another's (rule R117 c). -/
def suffixFree (t : Table) : Prop :=
  ∀ i j : Fin 16, i ≠ j → t[i].depth ≠ 0 → t[j].depth ≠ 0 → t[i].depth.toNat ≤ t[j].depth.toNat →
    t[j].code.toNat % 2 ^ t[i].depth.toNat ≠ t[i].code.toNat

/-! ### Output -/

/-- Bytes stored one after another from an address upward. -/
def Memory.putAll : Memory → Nat → List Byte → Memory
  | m, _, [] => m
  | m, a, b :: bs => Memory.putAll (m.write a b) (a + 1) bs

/-- A run of bytes appended to the output. -/
def State.appended (s : State) (bs : List Byte) : State :=
  { s with out := s.out.putAll s.olen bs, olen := s.olen + bs.length }

/-- The bytes a match appends: the last `d` bytes of the output repeated (43_lz_expander.md rule R139). -/
def State.matchBytes (s : State) (d c : Nat) : List Byte :=
  (List.range c).map fun j => s.out.read (s.olen - d + j % d)

/-- A copy of `n` bytes fits below `OUT_CAP` (rule R141). -/
def State.fits (s : State) (n : Nat) : Prop := ∀ cap, s.outCap = some cap → s.olen + n ≤ cap

/-- `CPYLIT(n)` done (rule R136). -/
def State.afterLiteral (s : State) (n : Nat) : State :=
  { s.appended (s.inBytes s.ip n) with ip := s.ip + n }

/-- `LITRUN` done, its `VAL` of class `k`. -/
def State.afterLitrun (s : State) (k : Nat) : State :=
  (s.afterBits (s.valueBits .lit k)).afterLiteral (s.valueOf .lit k)

/-- `LITRUN` can run to its end with a `VAL` of class `k`; an empty run checks nothing (rules R135, R136). -/
def State.litrunOk (s : State) (k : Nat) : Prop :=
  s.matchedSlot .lit = some k ∧
  (s.valueOf .lit k = 0 ∨
    (s.afterBits (s.valueBits .lit k)).ip + s.valueOf .lit k ≤ s.inLen ∧ s.fits (s.valueOf .lit k))

/-- The state after the distance `VAL` of class `k`. -/
def State.afterDist (s : State) (k : Nat) : State := s.afterBits (s.valueBits .dist k)

/-- `MATCH` done, its `VAL`s of classes `k1` and `k2`. -/
def State.afterMatch (s : State) (k1 k2 : Nat) : State :=
  ((s.afterDist k1).afterBits ((s.afterDist k1).valueBits .cnt k2)).appended
    (s.matchBytes (s.valueOf .dist k1 + 1) ((s.afterDist k1).valueOf .cnt k2 + 2))

/-- `MATCH` can run to its end with `VAL`s of classes `k1` and `k2` (rules R137 to R141). -/
def State.matchOk (s : State) (k1 k2 : Nat) : Prop :=
  s.matchedSlot .dist = some k1 ∧ (s.afterDist k1).matchedSlot .cnt = some k2 ∧
  s.valueOf .dist k1 + 1 ≤ s.olen ∧ s.fits ((s.afterDist k1).valueOf .cnt k2 + 2)

/-! ### The run as a whole -/

/-- The step of 44_sequencer.md section 3 that a phase calls for; none in the terminal phases (rule R158). -/
def phaseInstr (s : State) : Option Instr :=
  match s.phase with
  | .header => some .stepHeader
  | .perBlock => some .stepBlock
  | .perSubchunk => some .stepSubchunk
  | .idle | .done | .failed => none

/-- As many as `n` steps of the model's own step, stopping at the first fault or refusal. -/
def stepRun : Nat → State → Host.Outcome State Fault Refusal
  | 0, s => .next s
  | n + 1, s =>
    match step s with
    | .next t => stepRun n t
    | .fault f => .fault f
    | .refused r => .refused r

/-- As many as `n` steps of the step relation at phase granularity (rule R162). -/
def phaseRun : Nat → State → Host.Outcome State Fault Refusal
  | 0, s => .next s
  | n + 1, s =>
    match phaseInstr s with
    | none => .next s
    | some i =>
      match exec i s with
      | .next t => phaseRun n t
      | .fault f => .fault f
      | .refused r => .refused r

/-- `s` as it is but for the five header registers nothing reads (10_state.md rule R17). -/
def State.withUnusedHeader (s : State) (u p : BitVec 32) (c k : BitVec 16) (m : BitVec 8) : State :=
  { s with hUlen := u, hPlen := p, hCrc1 := c, hCrc2 := k, hMargin := m }

end Sys2Proof.Machine
end

