-- ==== Sys2Proof/Certificates/Slice0/Obligations.lean ====
section
/-! DEFINITION. The statements about the model. Each docstring names the rules of spec/ it formalises. `State.Reads` is
10_state.md rule R25 (a), (b), (c); the stream is seen as bits through `State.streamBit` (Sys2Proof/Safety.lean). Where a
statement gives a whole next state, its fields `elem`, `ret` and `hostIn` are the model's own (log entries 1, 3, 4): `ret`
holds what the spec's operation returns, `elem` is the position inside a phase visit. -/

section

open Sys2Proof Sys2Proof.Machine

/-! ### Encoding -/

/-- Decode after encode, `PAD2`, `HUFTAB.0` to `HUFTAB.31` and `NSUB`: whatever bits follow in the stream
(30_encoding.md rules R63, R64, R65). -/
def Obligations.BitElementsDecodeAfterEncode : Prop :=
  ∀ (T : Tables) (i : Instr) (pos : Elem) (w v rest : Nat) (bytes : List Byte), i.wf = true →
    i.position = some pos → (pos = .pad2 ∨ (∃ r, pos = .tab r) ∨ pos = .nsub) → encode T i = .bits w v →
    decode pos T bytes (v + 2 ^ w * rest) = .instr i

/-- Decode after encode, `HDR`: whatever bytes follow in `IN` (rule R62). -/
def Obligations.HeaderDecodesAfterEncode : Prop :=
  ∀ (T : Tables) (u p : BitVec 32) (c k : BitVec 16) (m b : BitVec 8) (bs rest : List Byte) (E : Nat),
    encode T (.hdr u p c k m b) = .bytes bs →
    bs.length = 18 ∧ decode .hdr T (bs ++ rest) E = .instr (.hdr u p c k m b)

/-- Decode after encode, `VAL.0` to `VAL.15`, under a table no code of which is the low bits of another (rules R66, R69;
41_huffman_table_builder.md rule R117 c). `valInstr r k e` is `VAL.k` with extra bits `e`. -/
def Obligations.ValuesDecodeAfterEncode : Prop :=
  ∀ (T : Tables) (r : Role) (pos : Elem) (k : Fin 16) (e w v rest : Nat) (bytes : List Byte), e < 2 ^ (k.val - 1) →
    (pos = r.valPosition ∨ (r = .cnt ∧ ∃ v1, pos = .cntVal v1)) →
    suffixFree (T.get r) → (T.get r)[k].depth ≠ 0 → (T.get r)[k].code.toNat < 2 ^ (T.get r)[k].depth.toNat →
    encode T (valInstr r k e) = .bits w v →
    decode pos T bytes (v + 2 ^ w * rest) = .instr (valInstr r k e)

/-- Encode after decode: what is decoded from bits is well formed, and its encoding is those bits (rules R63 to R66). -/
def Obligations.EncodeGivesBackTheBitsDecoded : Prop :=
  ∀ (T : Tables) (pos : Elem) (bytes : List Byte) (E : Nat) (i : Instr), pos ≠ .hdr → (∀ n, pos ≠ .litCopy n) →
    (∀ v1 v2, pos ≠ .matchCopy v1 v2) → decode pos T bytes E = .instr i →
    i.wf = true ∧ ∃ w, encode T i = .bits w (E % 2 ^ w)

/-- Words written out from the formats decode to what they stand for. The header is the example of 44_sequencer.md rule
R151, the descriptor that of 41_huffman_table_builder.md rule R110, the `VAL` that of 42_value_decode.md rule R302. -/
def Obligations.SampleWordsDecode : Prop :=
  decode .hdr emptyTables [0x52, 0x4E, 0x43, 0x01, 0x00, 0x00, 0x00, 0x18, 0x00, 0x00, 0x00, 0x29, 0x12, 0x34, 0xAB, 0xCD,
      0x02, 0x02] 0 = .instr (.hdr 24 41 0x1234 0xABCD 2 2) ∧
  decode .pad2 emptyTables [] 0x8913 = .instr (.pad2 3) ∧
  decode (.tab .lit) emptyTables [] 0x066244 = .instr (.huftab4 .lit [2, 1, 3, 3]) ∧
  decode .nsub emptyTables [] 0x20001 = .instr (.nsub 1) ∧
  decode .distVal (emptyTables.set .dist (buildTable (List.replicate 16 4))) [] 0x0014 = .instr (.val2 .dist 1)

/-- The element that stands next, at every position of the grammar, in terms of the stream: bytes at the cursor for the
header, bits for the rest, the values already decoded at the copy positions; where none stands, the rejection by name
(30_encoding.md rules R60, R61, R69). -/
def Obligations.FetchReadsTheStream : Prop :=
  ∀ s : State, s.Reads →
    (s.elem = .hdr →
      s.fetch = if s.inLen < s.ip + 4 then .reject .truncated
        else if s.be32At s.ip ≠ 0x524E4301 then .reject .badSignature
        else if s.inLen < s.ip + 18 then .reject .truncated
        else .instr (.hdr s.afterHeader.hUlen s.afterHeader.hPlen s.afterHeader.hCrc1 s.afterHeader.hCrc2
          s.afterHeader.hMargin s.afterHeader.hBlocks)) ∧
    (s.elem = .pad2 → s.fetch = .instr (.pad2 (BitVec.ofNat 2 (s.streamField 0 2)))) ∧
    (∀ r, s.elem = .tab r → s.fetch = .instr (huftabInstr r (s.streamField 0 5) s.descriptorLengths)) ∧
    (s.elem = .nsub → s.fetch = .instr (.nsub (BitVec.ofNat 16 (s.streamField 0 16)))) ∧
    (∀ r, (s.elem = r.valPosition ∨ (r = .cnt ∧ ∃ v1, s.elem = .cntVal v1)) →
      s.fetch = match s.matchedSlot r with
        | none => .reject .noMatch
        | some k => .instr (valInstr r k (s.streamField (s.slot r k).depth.toNat (k - 1)))) ∧
    (∀ run, s.elem = .litCopy run → s.fetch = .instr (.cpylit run)) ∧
    (∀ v1 v2, s.elem = .matchCopy v1 v2 → s.fetch = .instr (.cpymatch (v1 + 1) (v2 + 2)))

/-! ### The step -/

/-- A step runs the element decoded at the position, and the sequencer goes on from there unless it raised
(44_sequencer.md rule R162; 60_exceptions.md rule R183). The split of the step is the model's choice (log entry 1). -/
def Obligations.StepRunsTheDecodedElement : Prop :=
  ∀ (s t : State) (i : Instr), s.hostIn = [] → s.busy = true → s.fetch = .instr i → exec i s = .next t →
    step s = .next (if t.phase = .failed then t else advance s.elem t)

/-- A host operation that arrives is what the step does; an entry with none lets the run go on. The schedule is the
model's choice (log entry 4). -/
def Obligations.HostOperationRunsFirst : Prop :=
  (∀ (s : State) (rest : List (Option HostOp)), s.hostIn = some .reset :: rest →
    step s = exec .reset { s with hostIn := rest }) ∧
  (∀ (s : State) (rest : List (Option HostOp)), s.hostIn = some .start :: rest →
    step s = exec .start { s with hostIn := rest }) ∧
  (∀ (s : State) (rest : List (Option HostOp)), s.hostIn = none :: rest →
    step s = blockStep { s with hostIn := rest })

/-- `IDLE`, `DONE` and `FAILED` have no step: the state stays as it is until the host acts (rule R158). -/
def Obligations.TerminalPhasesStand : Prop :=
  ∀ s : State, s.hostIn = [] → (s.phase = .idle ∨ s.phase = .done ∨ s.phase = .failed) → step s = .next s

/-! ### Reset, start and the invariant -/

/-- `RESET` in every phase: every register at its value of 10_state.md rule R23, the parameters kept
(70_reset_and_hazards.md rule R200). -/
def Obligations.ResetClearsEveryRegister : Prop :=
  ∀ s : State, exec .reset s = .next
    { phase := .idle, blk := 0, nsub := 0, sub := 0, ip := 0, bqVal := 0, bqCnt := 0, hSig := 0, hUlen := 0, hPlen := 0,
      hCrc1 := 0, hCrc2 := 0, hMargin := 0, hBlocks := 0, tabs := emptyTables, olen := 0, out := [], err := none,
      inLen := s.inLen, inMem := s.inMem, outCap := s.outCap, elem := .hdr, ret := .unit, hostIn := s.hostIn }

/-- `START`: ignored while busy, else every register at its value of rule R23 with `phase = HEADER`, so that a run depends
on the parameters alone (44_sequencer.md rule R150; 10_state.md rule R23). -/
def Obligations.StartBeginsARunOrIsIgnored : Prop :=
  ∀ s : State,
    ((s.phase = .header ∨ s.phase = .perBlock ∨ s.phase = .perSubchunk) → exec .start s = .next s) ∧
    ((s.phase = .idle ∨ s.phase = .done ∨ s.phase = .failed) → exec .start s = .next
      { phase := .header, blk := 0, nsub := 0, sub := 0, ip := 0, bqVal := 0, bqCnt := 0, hSig := 0, hUlen := 0,
        hPlen := 0, hCrc1 := 0, hCrc2 := 0, hMargin := 0, hBlocks := 0, tabs := emptyTables, olen := 0, out := [],
        err := none, inLen := s.inLen, inMem := s.inMem, outCap := s.outCap, elem := .hdr, ret := .unit,
        hostIn := s.hostIn })

/-- The state after reset satisfies the invariant (10_state.md rule R25). -/
def Obligations.ResetStateSatisfiesInv : Prop := State.reset.Inv

/-- Every step keeps the invariant, from every state that satisfies it (rule R25). -/
def Obligations.EveryStepKeepsInv : Prop :=
  ∀ s t : State, s.Inv → step s = .next t → t.Inv

/-- No step stops: from a state that satisfies the invariant every step answers a next state, the errors among them
(60_exceptions.md rules R181, R183; 40_byte_and_bit_reader.md rule R98; 43_lz_expander.md rule R138). -/
def Obligations.NoStepStops : Prop :=
  ∀ s : State, s.Inv → ∃ t, step s = .next t

/-! ### Byte reader -/

/-- `RDBYTES(n)`: the next `n` bytes and the cursor past them, or `Truncated` with nothing consumed
(40_byte_and_bit_reader.md rule R90). -/
def Obligations.RdbytesReadsOrTruncates : Prop :=
  ∀ (s : State) (n : Nat),
    (s.ip + n ≤ s.inLen → exec (.rdbytes n) s
      = .next { s with ip := s.ip + n, ret := .bytes ((List.range n).map fun j => s.inMem.read (s.ip + j)) }) ∧
    (s.inLen < s.ip + n → exec (.rdbytes n) s = .next (s.failedWith .truncated))

/-- `RDBE32()`, `RDBE16()`, `RDU8()`: big-endian numbers at the cursor, or `Truncated` (rules R91, R92, R93). -/
def Obligations.BigEndianReads : Prop :=
  ∀ s : State,
    (s.ip + 4 ≤ s.inLen → exec .rdbe32 s = .next { s with ip := s.ip + 4, ret := .value (s.be32At s.ip) }) ∧
    (s.inLen < s.ip + 4 → exec .rdbe32 s = .next (s.failedWith .truncated)) ∧
    (s.ip + 2 ≤ s.inLen → exec .rdbe16 s = .next { s with ip := s.ip + 2, ret := .value (s.be16At s.ip) }) ∧
    (s.inLen < s.ip + 2 → exec .rdbe16 s = .next (s.failedWith .truncated)) ∧
    (s.ip + 1 ≤ s.inLen → exec .rdu8 s
      = .next { s with ip := s.ip + 1, ret := .value (s.inMem.read s.ip).toNat }) ∧
    (s.inLen < s.ip + 1 → exec .rdu8 s = .next (s.failedWith .truncated))

/-! ### Bit queue -/

/-- `LOOKW()` and `FETCHW()`: the little-endian word at the cursor, a missing byte reading as 0; `LOOKW` writes no
register, `FETCHW` moves the cursor past the bytes that exist (rules R94, R95). -/
def Obligations.LookAndFetchTheWord : Prop :=
  ∀ s : State,
    exec .lookw s = .next { s with
      ret := .value ((s.streamByte s.ip).toNat + 256 * (s.streamByte (s.ip + 1)).toNat) } ∧
    exec .fetchw s = .next { s with
      ip := min (s.ip + 2) s.inLen
      ret := .value ((s.streamByte s.ip).toNat + 256 * (s.streamByte (s.ip + 1)).toNat) }

/-- `PEEK(n)`: the buffered bits, with the word at the cursor above them if fewer than `n` are buffered; no register is
written (rule R96). -/
def Obligations.PeekShowsTheNextBits : Prop :=
  ∀ (s : State) (n : Nat), s.Reads → n ≤ 16 →
    exec (.peek n) s = .next { s with ret := .value (s.streamField 0 (if n ≤ s.bqCnt then s.bqCnt else s.bqCnt + 16)) }

/-- `RDBITS(n)`: the next `n` bits of the stream as a number, the queue and the cursor after them, nothing else
(rule R97). -/
def Obligations.RdbitsReadsTheNextBits : Prop :=
  ∀ (s : State) (n : Nat), s.Reads → n ≤ 16 →
    exec (.rdbits n) s = .next { s.afterBits n with ret := .value (s.streamField 0 n) }

/-- The bits are handed out in order: none is skipped, repeated or reordered, and at most 15 stay buffered
(rules R99, R101). -/
def Obligations.RdbitsCutsTheStreamInOrder : Prop :=
  ∀ (s t : State) (n : Nat), s.Reads → exec (.rdbits n) s = .next t →
    t.Reads ∧ (∀ i, t.streamBit i = s.streamBit (n + i)) ∧
    ∃ v, t.ret = .value v ∧ ∀ i, v.testBit i = (decide (i < n) && s.streamBit i)

/-- `RDBITS(n)` and `PEEK(n)` with `n > 16` have no meaning: they are refused by name (rule R98). -/
def Obligations.WidthAboveSixteenIsRefused : Prop :=
  ∀ (s : State) (n : Nat), 16 < n →
    exec (.rdbits n) s = .refused .widthAbove16 ∧ exec (.peek n) s = .refused .widthAbove16

/-- Past the end of `IN` every bit is 0, without limit: with nothing but zeros left, a block is read as three empty tables
and no subchunk, from 31 zero bits (rules R100, R209; 44_sequencer.md rule R154; 41_huffman_table_builder.md rule R114). -/
def Obligations.ExhaustedStreamIsAnEmptyBlock : Prop :=
  ∀ s : State, s.Reads → s.ip = s.inLen → s.bqVal = 0 →
    exec .stepBlock s = .next
      ({ s with tabs := emptyTables, nsub := 0, sub := 0, bqCnt := s.bqCnt + 16 * s.wordsFor 31 - 31 } : State).blockEnded

/-! ### Huffman tables -/

/-- `MIRROR(c, w)`: bit `j` of `c` goes to bit `w - 1 - j`, higher bits are dropped; no register is written
(41_huffman_table_builder.md rule R112). -/
def Obligations.MirrorReversesTheBits : Prop :=
  ∀ (s : State) (c w : Nat), 1 ≤ w → w ≤ 15 →
    ∃ v, exec (.mirror c w) s = .next { s with ret := .value v } ∧
      ∀ i, v.testBit i = (decide (i < w) && c.testBit (w - 1 - i))

/-- `HUFTAB.0` to `HUFTAB.31` (`huftabInstr r count lens` is `HUFTAB.count` for `T[r]`): `5 + 4 * min(count, 16)` bits are
consumed and all 16 slots of one table are written: the depth is the length, 0 where none was given, the stored code is the
bit reversal of the canonical code. Nothing else changes (rules R110 to R114, R118). That the lengths are those `exec` is
given, whatever bits it consumes, is the model's choice (log entry 2): in a step they are the bits' own, which
`Obligations.FetchReadsTheStream` says. -/
def Obligations.HuftabFormsWriteTheirTable : Prop :=
  ∀ (s : State) (r : Role) (count : Nat) (lens : List (BitVec 4)), s.Reads → count ≤ 31 →
    lens.length = min count 16 →
    ∃ T : Table, exec (huftabInstr r count lens) s
        = .next { s.afterBits (5 + 4 * min count 16) with tabs := s.tabs.set r T } ∧
      ∀ i : Fin 16, T[i].depth.toNat = lengthAt lens i ∧
        ∀ j, T[i].code.toNat.testBit j
          = (decide (j < lengthAt lens i) && (canonicalCode lens i).testBit (lengthAt lens i - 1 - j))

/-- A table built from lengths that do not over-subscribe the code space: every canonical code fits its length, a shorter
code is numerically smaller when aligned on the left and no code begins another, no stored code is the low bits of
another, and at most one slot matches any peek, so that the order of the scan does not matter (rules R117, R130). -/
def Obligations.CanonicalCodesArePrefixFree : Prop :=
  ∀ lens : List (BitVec 4), kraftSum lens ≤ 2 ^ 15 →
    (∀ i : Fin 16, lengthAt lens i ≠ 0 → canonicalCode lens i < 2 ^ lengthAt lens i) ∧
    (∀ i j : Fin 16, lengthAt lens i ≠ 0 → lengthAt lens i < lengthAt lens j →
      (canonicalCode lens i + 1) * 2 ^ (lengthAt lens j - lengthAt lens i) ≤ canonicalCode lens j) ∧
    (∀ i j : Fin 16, lengthAt lens i ≠ 0 → lengthAt lens j ≠ 0 → i ≠ j → lengthAt lens i ≤ lengthAt lens j →
      canonicalCode lens j / 2 ^ (lengthAt lens j - lengthAt lens i) ≠ canonicalCode lens i) ∧
    suffixFree (buildTable lens) ∧
    ∀ (peeked : Nat) (i j : Fin 16), slotMatches peeked (buildTable lens)[i] = true →
      slotMatches peeked (buildTable lens)[j] = true → i = j

/-! ### Values -/

/-- `DECVAL(role)`: the first used slot, in ascending index order, whose stored code stands next in the stream; its code
and its extra bits are consumed, and the value is formed (42_value_decode.md rules R125, R126). -/
def Obligations.DecvalDecodesTheFirstMatch : Prop :=
  ∀ (s : State) (r : Role) (k : Nat), s.Reads → s.matchedSlot r = some k →
    exec (.decval r) s = .next (s.valued r k (s.valueOf r k))

/-- `NoMatch`: when no used slot matches, `DECVAL` raises and has consumed nothing (rule R127). -/
def Obligations.DecvalWithoutMatchRaises : Prop :=
  ∀ (s : State) (r : Role), s.Reads →
    (∀ i : Fin 16, (s.tabs.get r)[i].depth ≠ 0 →
      s.streamField 0 (s.tabs.get r)[i].depth.toNat ≠ (s.tabs.get r)[i].code.toNat) →
    exec (.decval r) s = .next (s.failedWith .noMatch)

/-- A complete code never raises `NoMatch`: with `sum of 2^(-depth) = 1`, `DECVAL` returns a value, whatever the stream
(rule R127). -/
def Obligations.CompleteCodeAlwaysMatches : Prop :=
  ∀ (s : State) (r : Role) (lens : List (BitVec 4)), s.Reads → s.tabs.get r = buildTable lens →
    kraftSum lens = 2 ^ 15 →
    ∃ k v, k < 16 ∧ (s.slot r k).depth ≠ 0 ∧ exec (.decval r) s = .next (s.valued r k v)

/-- The bounds of a decoded value and of its length: at most 32767, 1 to 29 bits, the cursor forward by at most 4
(rule R129). -/
def Obligations.ValueBounds : Prop :=
  ∀ (s t : State) (r : Role), s.Reads → exec (.decval r) s = .next t → t.err = s.err → s.err = none →
    ∃ v n, t.ret = .value v ∧ v ≤ 32767 ∧ 1 ≤ n ∧ n ≤ 29 ∧ (∀ i, t.streamBit i = s.streamBit (n + i)) ∧
      s.ip ≤ t.ip ∧ t.ip ≤ s.ip + 4

/-- `FORMVAL(i)`: slot indices 0 and 1 are the value; a higher one is followed by `i - 1` raw bits under an implied
leading 1 (rule R126). -/
def Obligations.FormvalFormsTheValue : Prop :=
  ∀ (s : State) (k : BitVec 4), s.Reads →
    exec (.formval k) s = .next { s.afterBits (k.toNat - 1) with
      ret := .value (if k.toNat < 2 then k.toNat else 2 ^ (k.toNat - 1) + s.streamField 0 (k.toNat - 1)) }

/-- `VAL.0` to `VAL.7`: as many bits as the slot's code and the extra bits have are consumed, the value is the class's
(42_value_decode.md rules R300 to R307). That `e` is the value `exec` is given and that the slot's code need not stand next
is the model's choice (log entry 2): in a step both are the stream's own, which `Obligations.FetchReadsTheStream` says. -/
def Obligations.LowerValueClasses : Prop :=
  ∀ (s : State) (r : Role), s.Reads →
    ((s.slot r 0).depth ≠ 0 → exec (.val0 r) s = .next (s.valued r 0 0)) ∧
    ((s.slot r 1).depth ≠ 0 → exec (.val1 r) s = .next (s.valued r 1 1)) ∧
    ((s.slot r 2).depth ≠ 0 → ∀ e, exec (.val2 r e) s = .next (s.valued r 2 (2 + e.toNat))) ∧
    ((s.slot r 3).depth ≠ 0 → ∀ e, exec (.val3 r e) s = .next (s.valued r 3 (4 + e.toNat))) ∧
    ((s.slot r 4).depth ≠ 0 → ∀ e, exec (.val4 r e) s = .next (s.valued r 4 (8 + e.toNat))) ∧
    ((s.slot r 5).depth ≠ 0 → ∀ e, exec (.val5 r e) s = .next (s.valued r 5 (16 + e.toNat))) ∧
    ((s.slot r 6).depth ≠ 0 → ∀ e, exec (.val6 r e) s = .next (s.valued r 6 (32 + e.toNat))) ∧
    ((s.slot r 7).depth ≠ 0 → ∀ e, exec (.val7 r e) s = .next (s.valued r 7 (64 + e.toNat)))

/-- `VAL.8` to `VAL.15`, in the form of `Obligations.LowerValueClasses` (42_value_decode.md rules R308 to R315). That `e` is
the value `exec` is given and that the slot's code need not stand next is the model's choice here too (log entry 2). -/
def Obligations.UpperValueClasses : Prop :=
  ∀ (s : State) (r : Role), s.Reads →
    ((s.slot r 8).depth ≠ 0 → ∀ e, exec (.val8 r e) s = .next (s.valued r 8 (128 + e.toNat))) ∧
    ((s.slot r 9).depth ≠ 0 → ∀ e, exec (.val9 r e) s = .next (s.valued r 9 (256 + e.toNat))) ∧
    ((s.slot r 10).depth ≠ 0 → ∀ e, exec (.val10 r e) s = .next (s.valued r 10 (512 + e.toNat))) ∧
    ((s.slot r 11).depth ≠ 0 → ∀ e, exec (.val11 r e) s = .next (s.valued r 11 (1024 + e.toNat))) ∧
    ((s.slot r 12).depth ≠ 0 → ∀ e, exec (.val12 r e) s = .next (s.valued r 12 (2048 + e.toNat))) ∧
    ((s.slot r 13).depth ≠ 0 → ∀ e, exec (.val13 r e) s = .next (s.valued r 13 (4096 + e.toNat))) ∧
    ((s.slot r 14).depth ≠ 0 → ∀ e, exec (.val14 r e) s = .next (s.valued r 14 (8192 + e.toNat))) ∧
    ((s.slot r 15).depth ≠ 0 → ∀ e, exec (.val15 r e) s = .next (s.valued r 15 (16384 + e.toNat)))

/-! ### The expander -/

/-- `CPYLIT(n)`: `n` bytes from the cursor to the end of the output, the bit queue and every other byte kept; `Truncated`
is tested before `OutputOverflow` and on either nothing is copied (43_lz_expander.md rules R136, R141). -/
def Obligations.CpylitCopiesOrRaises : Prop :=
  ∀ (s : State) (n : Nat), s.out.wf → 1 ≤ n → n ≤ 32767 →
    (s.ip + n ≤ s.inLen → s.fits n → ∃ m : Memory,
      exec (.cpylit n) s = .next { s with ip := s.ip + n, olen := s.olen + n, out := m } ∧
      (∀ j, j < n → m.read (s.olen + j) = s.inMem.read (s.ip + j)) ∧
      ∀ a, a < s.olen ∨ s.olen + n ≤ a → m.read a = s.out.read a) ∧
    (s.inLen < s.ip + n → exec (.cpylit n) s = .next (s.failedWith .truncated)) ∧
    (s.ip + n ≤ s.inLen → ¬ s.fits n → exec (.cpylit n) s = .next (s.failedWith .outputOverflow))

/-- `CPYMATCH(d, c)`: the last `d` bytes of the output repeated cyclically, whether the ranges overlap or not; every other
register and byte kept; `BadDistance` is tested before `OutputOverflow` and on either nothing is copied (rules R139,
R140, R141). -/
def Obligations.CpymatchCopiesOrRaises : Prop :=
  ∀ (s : State) (d c : Nat), s.out.wf → 1 ≤ d → d ≤ 32768 → 2 ≤ c → c ≤ 32769 →
    (d ≤ s.olen → s.fits c → ∃ m : Memory,
      exec (.cpymatch d c) s = .next { s with olen := s.olen + c, out := m } ∧
      (∀ j, j < c → m.read (s.olen + j) = s.out.read (s.olen - d + j % d)) ∧
      ∀ a, a < s.olen ∨ s.olen + c ≤ a → m.read a = s.out.read a) ∧
    (s.olen < d → exec (.cpymatch d c) s = .next (s.failedWith .badDistance)) ∧
    (d ≤ s.olen → ¬ s.fits c → exec (.cpymatch d c) s = .next (s.failedWith .outputOverflow))

/-- `CPYMATCH` with distance 0, which no stream expresses, stops with a fault: the model's choice (rule R138; log entry
10). -/
def Obligations.CpymatchDistanceZeroFaults : Prop :=
  ∀ (s : State) (c : Nat), exec (.cpymatch 0 c) s = .fault .undefinedOutByte

/-- `LITRUN`: the run length is decoded, then that many raw bytes are copied from where the cursor then is (rule R135). -/
def Obligations.LitrunCopiesTheRun : Prop :=
  ∀ (s : State) (k : Nat), s.Reads → s.litrunOk k → exec .litrun s = .next (s.afterLitrun k)

/-- The errors of `LITRUN` in their order, each with the state it freezes: `NoMatch` with nothing consumed, then
`Truncated`, then `OutputOverflow`, both with the bits of the `VAL` consumed and no byte copied (rule R135;
60_exceptions.md rules R182, R190). -/
def Obligations.LitrunErrors : Prop :=
  ∀ s : State, s.Reads →
    (s.matchedSlot .lit = none → exec .litrun s = .next (s.failedWith .noMatch)) ∧
    ∀ k, s.matchedSlot .lit = some k → s.valueOf .lit k ≠ 0 →
      (s.inLen < (s.afterBits (s.valueBits .lit k)).ip + s.valueOf .lit k →
        exec .litrun s = .next ((s.afterBits (s.valueBits .lit k)).failedWith .truncated)) ∧
      ((s.afterBits (s.valueBits .lit k)).ip + s.valueOf .lit k ≤ s.inLen → ¬ s.fits (s.valueOf .lit k) →
        exec .litrun s = .next ((s.afterBits (s.valueBits .lit k)).failedWith .outputOverflow))

/-- `MATCH`: distance first, count second, both decoded before the copy (rules R137, R138). -/
def Obligations.MatchCopiesFromTheOutput : Prop :=
  ∀ (s : State) (k1 k2 : Nat), s.Reads → s.out.wf → s.matchOk k1 k2 → exec .lzmatch s = .next (s.afterMatch k1 k2)

/-- The errors of `MATCH` in their order, each with the state it freezes: `NoMatch` of the distance, `NoMatch` of the count
with the distance consumed, `BadDistance`, `OutputOverflow`, both with both `VAL`s consumed (rule R137; 60_exceptions.md
rules R182, R190). -/
def Obligations.MatchErrors : Prop :=
  ∀ s : State, s.Reads →
    (s.matchedSlot .dist = none → exec .lzmatch s = .next (s.failedWith .noMatch)) ∧
    ∀ k1, s.matchedSlot .dist = some k1 →
      ((s.afterDist k1).matchedSlot .cnt = none → exec .lzmatch s = .next ((s.afterDist k1).failedWith .noMatch)) ∧
      ∀ k2, (s.afterDist k1).matchedSlot .cnt = some k2 →
        (s.olen < s.valueOf .dist k1 + 1 →
          exec .lzmatch s
            = .next (((s.afterDist k1).afterBits ((s.afterDist k1).valueBits .cnt k2)).failedWith .badDistance)) ∧
        (s.valueOf .dist k1 + 1 ≤ s.olen → ¬ s.fits ((s.afterDist k1).valueOf .cnt k2 + 2) →
          exec .lzmatch s
            = .next (((s.afterDist k1).afterBits ((s.afterDist k1).valueBits .cnt k2)).failedWith .outputOverflow))

/-! ### The sequencer -/

/-- `HDR` on a whole header: the signature, the six fields its encoding carries, the cursor past 18 bytes; or the errors
in their order, with `h_sig` loaded before it is tested (44_sequencer.md rule R151; 60_exceptions.md rules R176, R177,
R182). That the six fields loaded are those `exec` is given, whatever stands in `IN`, is the model's choice (log entry 2);
the fields a step reads from `IN` are in `Obligations.HeaderStepReadsTheFields`. -/
def Obligations.HdrLoadsOrRaises : Prop :=
  ∀ (s : State) (u p : BitVec 32) (c k : BitVec 16) (m b : BitVec 8),
    (s.headerOk → exec (.hdr u p c k m b) s
      = .next { s with ip := s.ip + 18, hSig := 0x524E4301, hUlen := u, hPlen := p, hCrc1 := c, hCrc2 := k,
                       hMargin := m, hBlocks := b }) ∧
    (s.inLen < s.ip + 4 → exec (.hdr u p c k m b) s = .next (s.failedWith .truncated)) ∧
    (s.ip + 4 ≤ s.inLen → s.be32At s.ip ≠ 0x524E4301 →
      exec (.hdr u p c k m b) s = .next (s.afterSignature.failedWith .badSignature)) ∧
    (s.ip + 4 ≤ s.inLen → s.be32At s.ip = 0x524E4301 → s.inLen < s.ip + 18 →
      exec (.hdr u p c k m b) s = .next (s.afterSignature.failedWith .truncated))

/-- The step at the header reads the seven registers from `IN`, big-endian, or fails before any payload bit is read
(rule R151; 30_encoding.md rule R62; 70_reset_and_hazards.md rule R210). -/
def Obligations.HeaderStepReadsTheFields : Prop :=
  ∀ s : State, s.hostIn = [] → s.phase = .header → s.elem = .hdr →
    (s.headerOk → step s = .next { s.afterHeader with elem := .pad2, ret := .unit }) ∧
    (s.inLen < s.ip + 4 → step s = .next (s.failedWith .truncated)) ∧
    (s.ip + 4 ≤ s.inLen → s.be32At s.ip ≠ 0x524E4301 → step s = .next (s.afterSignature.failedWith .badSignature)) ∧
    (s.ip + 4 ≤ s.inLen → s.be32At s.ip = 0x524E4301 → s.inLen < s.ip + 18 →
      step s = .next (s.afterSignature.failedWith .truncated))

/-- `PAD2`: two bits leave the queue, whatever they are; `NSUB`: sixteen bits leave it and the count is loaded
(44_sequencer.md rules R152, R155). That the count is the one `exec` is given, whatever the sixteen bits are, is the model's
choice (log entry 2): in a step it is those bits, which `Obligations.FetchReadsTheStream` says. -/
def Obligations.Pad2AndNsubConsumeTheirBits : Prop :=
  ∀ s : State, s.Reads →
    (∀ v, exec (.pad2 v) s = .next (s.afterBits 2)) ∧
    ∀ n, exec (.nsub n) s = .next { s.afterBits 16 with nsub := n.toNat }

/-- `StepHeader`: `HDR`, two pad bits, then `PER_BLOCK`, or `DONE` when there is no block; an error of `HDR` ends it
(rule R153). -/
def Obligations.StepHeaderResult : Prop :=
  ∀ s : State, s.Reads →
    (s.headerOk → exec .stepHeader s
      = .next { s.afterHeader.afterBits 2 with
          blk := 0
          phase := if s.streamByte (s.ip + 17) = 0 then .done else .perBlock
          elem := if s.streamByte (s.ip + 17) = 0 then .hdr else .tab .lit }) ∧
    (s.inLen < s.ip + 4 → exec .stepHeader s = .next (s.failedWith .truncated)) ∧
    (s.ip + 4 ≤ s.inLen → s.be32At s.ip ≠ 0x524E4301 →
      exec .stepHeader s = .next (s.afterSignature.failedWith .badSignature)) ∧
    (s.ip + 4 ≤ s.inLen → s.be32At s.ip = 0x524E4301 → s.inLen < s.ip + 18 →
      exec .stepHeader s = .next (s.afterSignature.failedWith .truncated))

/-- `StepBlock`: the three descriptors in their order with nothing between them, then the subchunk count; it never raises
(rule R154; 70_reset_and_hazards.md rules R208 a, R212). -/
def Obligations.StepBlockResult : Prop :=
  ∀ s : State, s.Reads →
    let a := s.afterDescriptor .lit
    let b := a.afterDescriptor .dist
    let c := b.afterDescriptor .cnt
    let t : State := { c.afterBits 16 with nsub := c.streamField 0 16, sub := 0 }
    exec .stepBlock s = .next (if c.streamField 0 16 = 0 then t.blockEnded
      else { t with phase := .perSubchunk, elem := .litVal })

/-- `StepSubchunk`: the literal run, the match unless the subchunk is the last of its block, then the count; `sub` is not
incremented when either fails (rule R156). -/
def Obligations.StepSubchunkResult : Prop :=
  ∀ s : State, s.phase = .perSubchunk → s.sub < s.nsub →
    (∀ t, exec .litrun s = .next t → t.phase = .failed → exec .stepSubchunk s = .next t) ∧
    (∀ t, exec .litrun s = .next t → t.phase ≠ .failed → s.sub + 1 = s.nsub →
      exec .stepSubchunk s = .next ({ t with sub := s.sub + 1 } : State).blockEnded) ∧
    (∀ t u, exec .litrun s = .next t → t.phase ≠ .failed → s.sub + 1 < s.nsub → exec .lzmatch t = .next u →
      u.phase = .failed → exec .stepSubchunk s = .next u) ∧
    (∀ t u, exec .litrun s = .next t → t.phase ≠ .failed → s.sub + 1 < s.nsub → exec .lzmatch t = .next u →
      u.phase ≠ .failed → exec .stepSubchunk s = .next { u with sub := s.sub + 1, elem := .litVal })

/-- `StepSubchunk` runs to its end wherever its literal run, and its match if it has one, can (rule R156). -/
def Obligations.StepSubchunkCompletes : Prop :=
  ∀ (s : State) (k : Nat), s.Reads → s.out.wf → s.litrunOk k →
    (s.sub + 1 = s.nsub → exec .stepSubchunk s = .next ({ s.afterLitrun k with sub := s.sub + 1 } : State).blockEnded) ∧
    ∀ k1 k2, s.sub + 1 < s.nsub → (s.afterLitrun k).matchOk k1 k2 →
      exec .stepSubchunk s = .next { (s.afterLitrun k).afterMatch k1 k2 with sub := s.sub + 1, elem := .litVal }

/-- `EndBlock`: one more block is counted; after the last one the run is done (rule R157). -/
def Obligations.EndBlockCountsTheBlock : Prop :=
  ∀ s : State, exec .endBlock s = .next s.blockEnded

/-- The steps of the model at the header come to `StepHeader` (rules R153, R162). -/
def Obligations.HeaderElementsRefineStepHeader : Prop :=
  ∀ s : State, s.Reads → s.hostIn = [] → s.ret = .unit → s.phase = .header → s.elem = .hdr →
    ∃ n ≤ 2, stepRun n s = exec .stepHeader s

/-- The four steps of the model at a block's tables and count come to `StepBlock` (rules R154, R162). -/
def Obligations.BlockElementsRefineStepBlock : Prop :=
  ∀ s : State, s.Reads → s.hostIn = [] → s.ret = .unit → s.phase = .perBlock → s.elem = .tab .lit →
    stepRun 4 s = exec .stepBlock s

/-- The steps of the model at a subchunk, at most five, come to `StepSubchunk`, also when one of its elements fails
(rules R156, R162, R190). -/
def Obligations.SubchunkElementsRefineStepSubchunk : Prop :=
  ∀ s : State, s.Reads → s.hostIn = [] → s.ret = .unit → s.phase = .perSubchunk → s.elem = .litVal →
    ∃ n ≤ 5, stepRun n s = exec .stepSubchunk s

/-- Termination: every run ends in `DONE` or `FAILED` after at most 16711681 steps of the spec's step relation
(rule R161). -/
def Obligations.EveryRunTerminates : Prop :=
  ∀ s : State, s.phase = .idle ∨ s.phase = .done ∨ s.phase = .failed →
    ∃ t, exec .start s = .next t ∧ ∃ u, phaseRun 16711681 t = .next u ∧ (u.phase = .done ∨ u.phase = .failed)

/-- Termination of the model's own steps: from every state that satisfies the invariant, with no host operation coming, a
standing phase is reached (rules R161, R214; the bound is the model's, log entry 1: five steps a subchunk, four a block,
two a header). -/
def Obligations.EveryElementRunTerminates : Prop :=
  ∀ s : State, s.Inv → s.hostIn = [] → ∃ n ≤ 2 + 255 * (4 + 5 * 65535), ∃ t, stepRun n s = .next t ∧ t.busy = false

/-! ### What no operation does -/

/-- No operation writes `IN` or a parameter (20_memory.md rule R40; 10_state.md rule R11). -/
def Obligations.NoInstructionWritesTheInput : Prop :=
  ∀ (i : Instr) (s t : State), exec i s = .next t → t.inMem = s.inMem ∧ t.inLen = s.inLen ∧ t.outCap = s.outCap

/-- The output is append-only and stays within the capacity: bytes already written are never changed
(20_memory.md rule R41; 10_state.md rules R20, R25 e). -/
def Obligations.OutputIsAppendOnly : Prop :=
  ∀ (i : Instr) (s t : State), i ≠ .reset → i ≠ .start → s.out.wf → exec i s = .next t →
    s.olen ≤ t.olen ∧ (∀ a, a < s.olen → t.out.read a = s.out.read a) ∧ t.out.wf ∧
    ∀ cap, s.outCap = some cap → s.olen ≤ cap → t.olen ≤ cap

/-- Every operation keeps the cursor inside `IN` and the queue well formed with at most 15 bits, and the cursor never
decreases within a run (10_state.md rules R14, R15, R25 a to c; 40_byte_and_bit_reader.md rule R99). -/
def Obligations.EveryInstructionKeepsTheStreamPosition : Prop :=
  ∀ (i : Instr) (s t : State), s.Reads → exec i s = .next t →
    t.Reads ∧ (i ≠ .reset → i ≠ .start → s.ip ≤ t.ip)

/-- The tables are written by `HUFTAB`, by the block step that runs it, by `RESET` and by `START`, and by nothing else
(10_state.md rule R18). -/
def Obligations.TablesAreWrittenByTheirOwnersOnly : Prop :=
  ∀ (i : Instr) (s t : State), (∀ r, i.position ≠ some (.tab r)) → i ≠ .stepBlock → i ≠ .reset → i ≠ .start →
    exec i s = .next t → t.tabs = s.tabs

/-- The header registers are written by `HDR`, by the header step that runs it, by `RESET` and by `START`, and by nothing
else (10_state.md rule R16). -/
def Obligations.HeaderRegistersAreWrittenByTheirOwnersOnly : Prop :=
  ∀ (i : Instr) (s t : State), i.position ≠ some .hdr → i ≠ .stepHeader → i ≠ .reset → i ≠ .start →
    exec i s = .next t →
    t.hSig = s.hSig ∧ t.hUlen = s.hUlen ∧ t.hPlen = s.hPlen ∧ t.hCrc1 = s.hCrc1 ∧ t.hCrc2 = s.hCrc2 ∧
    t.hMargin = s.hMargin ∧ t.hBlocks = s.hBlocks

/-- An error is recorded with the phase `FAILED`, and in no other way (10_state.md rule R21; 60_exceptions.md rule
R183). -/
def Obligations.ErrorsAreRecordedByErrorEntryOnly : Prop :=
  ∀ (i : Instr) (s t : State), exec i s = .next t → t.err ≠ s.err → i ≠ .reset → i ≠ .start →
    t.phase = .failed ∧ ∃ e, t.err = some e ∧ t.errReg = e.code ∧ 1 ≤ t.errReg ∧ t.errReg ≤ 5

/-- `h_ulen`, `h_plen`, `h_crc1`, `h_crc2` and `h_margin` have no effect on a run: two runs from states that differ in them
alone, past the header and with no host operation pending, go the same way (10_state.md rule R17; 44_sequencer.md rule
R163). -/
def Obligations.UnusedHeaderFieldsHaveNoEffect : Prop :=
  ∀ (n : Nat) (s t : State) (u p : BitVec 32) (c k : BitVec 16) (m : BitVec 8), s.hostIn = [] → s.elem ≠ .hdr →
    stepRun n s = .next t →
    stepRun n (s.withUnusedHeader u p c k m) = .next (t.withUnusedHeader u p c k m)

/-- Tables carry nothing from block to block: what a block's step leaves does not depend on the tables before it
(10_state.md rule R19; 70_reset_and_hazards.md rule R207). -/
def Obligations.BlockIgnoresTheTablesBefore : Prop :=
  ∀ (s : State) (T : Tables), exec .stepBlock { s with tabs := T } = exec .stepBlock s

end
end

