-- ==== Sys2Proof/Laws/State.lean ====
section
/-! SUPPORT. One lemma per field per named update of State, each true by rfl, so that no proof unfolds a record update. -/

namespace Sys2Proof.Machine

@[simp] theorem errorEntry_phase (e : Error) (s : State) : (errorEntry e s).phase = .failed := rfl
@[simp] theorem errorEntry_blk (e : Error) (s : State) : (errorEntry e s).blk = s.blk := rfl
@[simp] theorem errorEntry_nsub (e : Error) (s : State) : (errorEntry e s).nsub = s.nsub := rfl
@[simp] theorem errorEntry_sub (e : Error) (s : State) : (errorEntry e s).sub = s.sub := rfl
@[simp] theorem errorEntry_ip (e : Error) (s : State) : (errorEntry e s).ip = s.ip := rfl
@[simp] theorem errorEntry_bqVal (e : Error) (s : State) : (errorEntry e s).bqVal = s.bqVal := rfl
@[simp] theorem errorEntry_bqCnt (e : Error) (s : State) : (errorEntry e s).bqCnt = s.bqCnt := rfl
@[simp] theorem errorEntry_hSig (e : Error) (s : State) : (errorEntry e s).hSig = s.hSig := rfl
@[simp] theorem errorEntry_hUlen (e : Error) (s : State) : (errorEntry e s).hUlen = s.hUlen := rfl
@[simp] theorem errorEntry_hPlen (e : Error) (s : State) : (errorEntry e s).hPlen = s.hPlen := rfl
@[simp] theorem errorEntry_hCrc1 (e : Error) (s : State) : (errorEntry e s).hCrc1 = s.hCrc1 := rfl
@[simp] theorem errorEntry_hCrc2 (e : Error) (s : State) : (errorEntry e s).hCrc2 = s.hCrc2 := rfl
@[simp] theorem errorEntry_hMargin (e : Error) (s : State) : (errorEntry e s).hMargin = s.hMargin := rfl
@[simp] theorem errorEntry_hBlocks (e : Error) (s : State) : (errorEntry e s).hBlocks = s.hBlocks := rfl
@[simp] theorem errorEntry_tabs (e : Error) (s : State) : (errorEntry e s).tabs = s.tabs := rfl
@[simp] theorem errorEntry_olen (e : Error) (s : State) : (errorEntry e s).olen = s.olen := rfl
@[simp] theorem errorEntry_out (e : Error) (s : State) : (errorEntry e s).out = s.out := rfl
@[simp] theorem errorEntry_err (e : Error) (s : State) : (errorEntry e s).err = some e := rfl
@[simp] theorem errorEntry_inLen (e : Error) (s : State) : (errorEntry e s).inLen = s.inLen := rfl
@[simp] theorem errorEntry_inMem (e : Error) (s : State) : (errorEntry e s).inMem = s.inMem := rfl
@[simp] theorem errorEntry_outCap (e : Error) (s : State) : (errorEntry e s).outCap = s.outCap := rfl
@[simp] theorem errorEntry_elem (e : Error) (s : State) : (errorEntry e s).elem = .hdr := rfl
@[simp] theorem errorEntry_ret (e : Error) (s : State) : (errorEntry e s).ret = s.ret := rfl
@[simp] theorem errorEntry_hostIn (e : Error) (s : State) : (errorEntry e s).hostIn = s.hostIn := rfl

@[simp] theorem returning_phase (v : Nat) (s : State) : (returning v s).phase = s.phase := rfl
@[simp] theorem returning_blk (v : Nat) (s : State) : (returning v s).blk = s.blk := rfl
@[simp] theorem returning_nsub (v : Nat) (s : State) : (returning v s).nsub = s.nsub := rfl
@[simp] theorem returning_sub (v : Nat) (s : State) : (returning v s).sub = s.sub := rfl
@[simp] theorem returning_ip (v : Nat) (s : State) : (returning v s).ip = s.ip := rfl
@[simp] theorem returning_bqVal (v : Nat) (s : State) : (returning v s).bqVal = s.bqVal := rfl
@[simp] theorem returning_bqCnt (v : Nat) (s : State) : (returning v s).bqCnt = s.bqCnt := rfl
@[simp] theorem returning_hSig (v : Nat) (s : State) : (returning v s).hSig = s.hSig := rfl
@[simp] theorem returning_hUlen (v : Nat) (s : State) : (returning v s).hUlen = s.hUlen := rfl
@[simp] theorem returning_hPlen (v : Nat) (s : State) : (returning v s).hPlen = s.hPlen := rfl
@[simp] theorem returning_hCrc1 (v : Nat) (s : State) : (returning v s).hCrc1 = s.hCrc1 := rfl
@[simp] theorem returning_hCrc2 (v : Nat) (s : State) : (returning v s).hCrc2 = s.hCrc2 := rfl
@[simp] theorem returning_hMargin (v : Nat) (s : State) : (returning v s).hMargin = s.hMargin := rfl
@[simp] theorem returning_hBlocks (v : Nat) (s : State) : (returning v s).hBlocks = s.hBlocks := rfl
@[simp] theorem returning_tabs (v : Nat) (s : State) : (returning v s).tabs = s.tabs := rfl
@[simp] theorem returning_olen (v : Nat) (s : State) : (returning v s).olen = s.olen := rfl
@[simp] theorem returning_out (v : Nat) (s : State) : (returning v s).out = s.out := rfl
@[simp] theorem returning_err (v : Nat) (s : State) : (returning v s).err = s.err := rfl
@[simp] theorem returning_inLen (v : Nat) (s : State) : (returning v s).inLen = s.inLen := rfl
@[simp] theorem returning_inMem (v : Nat) (s : State) : (returning v s).inMem = s.inMem := rfl
@[simp] theorem returning_outCap (v : Nat) (s : State) : (returning v s).outCap = s.outCap := rfl
@[simp] theorem returning_elem (v : Nat) (s : State) : (returning v s).elem = s.elem := rfl
@[simp] theorem returning_ret (v : Nat) (s : State) : (returning v s).ret = .value v := rfl
@[simp] theorem returning_hostIn (v : Nat) (s : State) : (returning v s).hostIn = s.hostIn := rfl

@[simp] theorem fetched_phase (s : State) : (fetched s).phase = s.phase := rfl
@[simp] theorem fetched_blk (s : State) : (fetched s).blk = s.blk := rfl
@[simp] theorem fetched_nsub (s : State) : (fetched s).nsub = s.nsub := rfl
@[simp] theorem fetched_sub (s : State) : (fetched s).sub = s.sub := rfl
@[simp] theorem fetched_ip (s : State) : (fetched s).ip = min (s.ip + 2) s.inLen := rfl
@[simp] theorem fetched_bqVal (s : State) : (fetched s).bqVal = s.bqVal := rfl
@[simp] theorem fetched_bqCnt (s : State) : (fetched s).bqCnt = s.bqCnt := rfl
@[simp] theorem fetched_hSig (s : State) : (fetched s).hSig = s.hSig := rfl
@[simp] theorem fetched_hUlen (s : State) : (fetched s).hUlen = s.hUlen := rfl
@[simp] theorem fetched_hPlen (s : State) : (fetched s).hPlen = s.hPlen := rfl
@[simp] theorem fetched_hCrc1 (s : State) : (fetched s).hCrc1 = s.hCrc1 := rfl
@[simp] theorem fetched_hCrc2 (s : State) : (fetched s).hCrc2 = s.hCrc2 := rfl
@[simp] theorem fetched_hMargin (s : State) : (fetched s).hMargin = s.hMargin := rfl
@[simp] theorem fetched_hBlocks (s : State) : (fetched s).hBlocks = s.hBlocks := rfl
@[simp] theorem fetched_tabs (s : State) : (fetched s).tabs = s.tabs := rfl
@[simp] theorem fetched_olen (s : State) : (fetched s).olen = s.olen := rfl
@[simp] theorem fetched_out (s : State) : (fetched s).out = s.out := rfl
@[simp] theorem fetched_err (s : State) : (fetched s).err = s.err := rfl
@[simp] theorem fetched_inLen (s : State) : (fetched s).inLen = s.inLen := rfl
@[simp] theorem fetched_inMem (s : State) : (fetched s).inMem = s.inMem := rfl
@[simp] theorem fetched_outCap (s : State) : (fetched s).outCap = s.outCap := rfl
@[simp] theorem fetched_elem (s : State) : (fetched s).elem = s.elem := rfl
@[simp] theorem fetched_ret (s : State) : (fetched s).ret = s.ret := rfl
@[simp] theorem fetched_hostIn (s : State) : (fetched s).hostIn = s.hostIn := rfl

@[simp] theorem refill_phase (s : State) : (refill s).phase = s.phase := rfl
@[simp] theorem refill_blk (s : State) : (refill s).blk = s.blk := rfl
@[simp] theorem refill_nsub (s : State) : (refill s).nsub = s.nsub := rfl
@[simp] theorem refill_sub (s : State) : (refill s).sub = s.sub := rfl
@[simp] theorem refill_ip (s : State) : (refill s).ip = min (s.ip + 2) s.inLen := rfl
@[simp] theorem refill_bqVal (s : State) : (refill s).bqVal = s.bqVal ||| (lookW s <<< s.bqCnt) := rfl
@[simp] theorem refill_bqCnt (s : State) : (refill s).bqCnt = s.bqCnt + 16 := rfl
@[simp] theorem refill_hSig (s : State) : (refill s).hSig = s.hSig := rfl
@[simp] theorem refill_hUlen (s : State) : (refill s).hUlen = s.hUlen := rfl
@[simp] theorem refill_hPlen (s : State) : (refill s).hPlen = s.hPlen := rfl
@[simp] theorem refill_hCrc1 (s : State) : (refill s).hCrc1 = s.hCrc1 := rfl
@[simp] theorem refill_hCrc2 (s : State) : (refill s).hCrc2 = s.hCrc2 := rfl
@[simp] theorem refill_hMargin (s : State) : (refill s).hMargin = s.hMargin := rfl
@[simp] theorem refill_hBlocks (s : State) : (refill s).hBlocks = s.hBlocks := rfl
@[simp] theorem refill_tabs (s : State) : (refill s).tabs = s.tabs := rfl
@[simp] theorem refill_olen (s : State) : (refill s).olen = s.olen := rfl
@[simp] theorem refill_out (s : State) : (refill s).out = s.out := rfl
@[simp] theorem refill_err (s : State) : (refill s).err = s.err := rfl
@[simp] theorem refill_inLen (s : State) : (refill s).inLen = s.inLen := rfl
@[simp] theorem refill_inMem (s : State) : (refill s).inMem = s.inMem := rfl
@[simp] theorem refill_outCap (s : State) : (refill s).outCap = s.outCap := rfl
@[simp] theorem refill_elem (s : State) : (refill s).elem = s.elem := rfl
@[simp] theorem refill_ret (s : State) : (refill s).ret = s.ret := rfl
@[simp] theorem refill_hostIn (s : State) : (refill s).hostIn = s.hostIn := rfl

@[simp] theorem consume_phase (n : Nat) (s : State) : (consume n s).phase = s.phase := rfl
@[simp] theorem consume_blk (n : Nat) (s : State) : (consume n s).blk = s.blk := rfl
@[simp] theorem consume_nsub (n : Nat) (s : State) : (consume n s).nsub = s.nsub := rfl
@[simp] theorem consume_sub (n : Nat) (s : State) : (consume n s).sub = s.sub := rfl
@[simp] theorem consume_ip (n : Nat) (s : State) : (consume n s).ip = s.ip := rfl
@[simp] theorem consume_bqVal (n : Nat) (s : State) : (consume n s).bqVal = s.bqVal >>> n := rfl
@[simp] theorem consume_bqCnt (n : Nat) (s : State) : (consume n s).bqCnt = s.bqCnt - n := rfl
@[simp] theorem consume_hSig (n : Nat) (s : State) : (consume n s).hSig = s.hSig := rfl
@[simp] theorem consume_hUlen (n : Nat) (s : State) : (consume n s).hUlen = s.hUlen := rfl
@[simp] theorem consume_hPlen (n : Nat) (s : State) : (consume n s).hPlen = s.hPlen := rfl
@[simp] theorem consume_hCrc1 (n : Nat) (s : State) : (consume n s).hCrc1 = s.hCrc1 := rfl
@[simp] theorem consume_hCrc2 (n : Nat) (s : State) : (consume n s).hCrc2 = s.hCrc2 := rfl
@[simp] theorem consume_hMargin (n : Nat) (s : State) : (consume n s).hMargin = s.hMargin := rfl
@[simp] theorem consume_hBlocks (n : Nat) (s : State) : (consume n s).hBlocks = s.hBlocks := rfl
@[simp] theorem consume_tabs (n : Nat) (s : State) : (consume n s).tabs = s.tabs := rfl
@[simp] theorem consume_olen (n : Nat) (s : State) : (consume n s).olen = s.olen := rfl
@[simp] theorem consume_out (n : Nat) (s : State) : (consume n s).out = s.out := rfl
@[simp] theorem consume_err (n : Nat) (s : State) : (consume n s).err = s.err := rfl
@[simp] theorem consume_inLen (n : Nat) (s : State) : (consume n s).inLen = s.inLen := rfl
@[simp] theorem consume_inMem (n : Nat) (s : State) : (consume n s).inMem = s.inMem := rfl
@[simp] theorem consume_outCap (n : Nat) (s : State) : (consume n s).outCap = s.outCap := rfl
@[simp] theorem consume_elem (n : Nat) (s : State) : (consume n s).elem = s.elem := rfl
@[simp] theorem consume_ret (n : Nat) (s : State) : (consume n s).ret = s.ret := rfl
@[simp] theorem consume_hostIn (n : Nat) (s : State) : (consume n s).hostIn = s.hostIn := rfl

@[simp] theorem appendOut_phase (v : Byte) (s : State) : (appendOut v s).phase = s.phase := rfl
@[simp] theorem appendOut_blk (v : Byte) (s : State) : (appendOut v s).blk = s.blk := rfl
@[simp] theorem appendOut_nsub (v : Byte) (s : State) : (appendOut v s).nsub = s.nsub := rfl
@[simp] theorem appendOut_sub (v : Byte) (s : State) : (appendOut v s).sub = s.sub := rfl
@[simp] theorem appendOut_ip (v : Byte) (s : State) : (appendOut v s).ip = s.ip := rfl
@[simp] theorem appendOut_bqVal (v : Byte) (s : State) : (appendOut v s).bqVal = s.bqVal := rfl
@[simp] theorem appendOut_bqCnt (v : Byte) (s : State) : (appendOut v s).bqCnt = s.bqCnt := rfl
@[simp] theorem appendOut_hSig (v : Byte) (s : State) : (appendOut v s).hSig = s.hSig := rfl
@[simp] theorem appendOut_hUlen (v : Byte) (s : State) : (appendOut v s).hUlen = s.hUlen := rfl
@[simp] theorem appendOut_hPlen (v : Byte) (s : State) : (appendOut v s).hPlen = s.hPlen := rfl
@[simp] theorem appendOut_hCrc1 (v : Byte) (s : State) : (appendOut v s).hCrc1 = s.hCrc1 := rfl
@[simp] theorem appendOut_hCrc2 (v : Byte) (s : State) : (appendOut v s).hCrc2 = s.hCrc2 := rfl
@[simp] theorem appendOut_hMargin (v : Byte) (s : State) : (appendOut v s).hMargin = s.hMargin := rfl
@[simp] theorem appendOut_hBlocks (v : Byte) (s : State) : (appendOut v s).hBlocks = s.hBlocks := rfl
@[simp] theorem appendOut_tabs (v : Byte) (s : State) : (appendOut v s).tabs = s.tabs := rfl
@[simp] theorem appendOut_olen (v : Byte) (s : State) : (appendOut v s).olen = s.olen + 1 := rfl
@[simp] theorem appendOut_out (v : Byte) (s : State) : (appendOut v s).out = s.out.write s.olen v := rfl
@[simp] theorem appendOut_err (v : Byte) (s : State) : (appendOut v s).err = s.err := rfl
@[simp] theorem appendOut_inLen (v : Byte) (s : State) : (appendOut v s).inLen = s.inLen := rfl
@[simp] theorem appendOut_inMem (v : Byte) (s : State) : (appendOut v s).inMem = s.inMem := rfl
@[simp] theorem appendOut_outCap (v : Byte) (s : State) : (appendOut v s).outCap = s.outCap := rfl
@[simp] theorem appendOut_elem (v : Byte) (s : State) : (appendOut v s).elem = s.elem := rfl
@[simp] theorem appendOut_ret (v : Byte) (s : State) : (appendOut v s).ret = s.ret := rfl
@[simp] theorem appendOut_hostIn (v : Byte) (s : State) : (appendOut v s).hostIn = s.hostIn := rfl

@[simp] theorem installTable_phase (r : Role) (lens : List (BitVec 4)) (s : State) : (installTable r lens s).phase = s.phase := rfl
@[simp] theorem installTable_blk (r : Role) (lens : List (BitVec 4)) (s : State) : (installTable r lens s).blk = s.blk := rfl
@[simp] theorem installTable_nsub (r : Role) (lens : List (BitVec 4)) (s : State) : (installTable r lens s).nsub = s.nsub := rfl
@[simp] theorem installTable_sub (r : Role) (lens : List (BitVec 4)) (s : State) : (installTable r lens s).sub = s.sub := rfl
@[simp] theorem installTable_ip (r : Role) (lens : List (BitVec 4)) (s : State) : (installTable r lens s).ip = s.ip := rfl
@[simp] theorem installTable_bqVal (r : Role) (lens : List (BitVec 4)) (s : State) : (installTable r lens s).bqVal = s.bqVal := rfl
@[simp] theorem installTable_bqCnt (r : Role) (lens : List (BitVec 4)) (s : State) : (installTable r lens s).bqCnt = s.bqCnt := rfl
@[simp] theorem installTable_hSig (r : Role) (lens : List (BitVec 4)) (s : State) : (installTable r lens s).hSig = s.hSig := rfl
@[simp] theorem installTable_hUlen (r : Role) (lens : List (BitVec 4)) (s : State) : (installTable r lens s).hUlen = s.hUlen := rfl
@[simp] theorem installTable_hPlen (r : Role) (lens : List (BitVec 4)) (s : State) : (installTable r lens s).hPlen = s.hPlen := rfl
@[simp] theorem installTable_hCrc1 (r : Role) (lens : List (BitVec 4)) (s : State) : (installTable r lens s).hCrc1 = s.hCrc1 := rfl
@[simp] theorem installTable_hCrc2 (r : Role) (lens : List (BitVec 4)) (s : State) : (installTable r lens s).hCrc2 = s.hCrc2 := rfl
@[simp] theorem installTable_hMargin (r : Role) (lens : List (BitVec 4)) (s : State) : (installTable r lens s).hMargin = s.hMargin := rfl
@[simp] theorem installTable_hBlocks (r : Role) (lens : List (BitVec 4)) (s : State) : (installTable r lens s).hBlocks = s.hBlocks := rfl
@[simp] theorem installTable_tabs (r : Role) (lens : List (BitVec 4)) (s : State) : (installTable r lens s).tabs = s.tabs.set r (buildTable lens) := rfl
@[simp] theorem installTable_olen (r : Role) (lens : List (BitVec 4)) (s : State) : (installTable r lens s).olen = s.olen := rfl
@[simp] theorem installTable_out (r : Role) (lens : List (BitVec 4)) (s : State) : (installTable r lens s).out = s.out := rfl
@[simp] theorem installTable_err (r : Role) (lens : List (BitVec 4)) (s : State) : (installTable r lens s).err = s.err := rfl
@[simp] theorem installTable_inLen (r : Role) (lens : List (BitVec 4)) (s : State) : (installTable r lens s).inLen = s.inLen := rfl
@[simp] theorem installTable_inMem (r : Role) (lens : List (BitVec 4)) (s : State) : (installTable r lens s).inMem = s.inMem := rfl
@[simp] theorem installTable_outCap (r : Role) (lens : List (BitVec 4)) (s : State) : (installTable r lens s).outCap = s.outCap := rfl
@[simp] theorem installTable_elem (r : Role) (lens : List (BitVec 4)) (s : State) : (installTable r lens s).elem = s.elem := rfl
@[simp] theorem installTable_ret (r : Role) (lens : List (BitVec 4)) (s : State) : (installTable r lens s).ret = s.ret := rfl
@[simp] theorem installTable_hostIn (r : Role) (lens : List (BitVec 4)) (s : State) : (installTable r lens s).hostIn = s.hostIn := rfl

@[simp] theorem afterBits_phase (n : Nat) (s : State) : (s.afterBits n).phase = s.phase := rfl
@[simp] theorem afterBits_blk (n : Nat) (s : State) : (s.afterBits n).blk = s.blk := rfl
@[simp] theorem afterBits_nsub (n : Nat) (s : State) : (s.afterBits n).nsub = s.nsub := rfl
@[simp] theorem afterBits_sub (n : Nat) (s : State) : (s.afterBits n).sub = s.sub := rfl
@[simp] theorem afterBits_ip (n : Nat) (s : State) : (s.afterBits n).ip = min (s.ip + 2 * s.wordsFor n) s.inLen := rfl
@[simp] theorem afterBits_bqVal (n : Nat) (s : State) : (s.afterBits n).bqVal = s.streamField n (s.bqCnt + 16 * s.wordsFor n - n) := rfl
@[simp] theorem afterBits_bqCnt (n : Nat) (s : State) : (s.afterBits n).bqCnt = s.bqCnt + 16 * s.wordsFor n - n := rfl
@[simp] theorem afterBits_hSig (n : Nat) (s : State) : (s.afterBits n).hSig = s.hSig := rfl
@[simp] theorem afterBits_hUlen (n : Nat) (s : State) : (s.afterBits n).hUlen = s.hUlen := rfl
@[simp] theorem afterBits_hPlen (n : Nat) (s : State) : (s.afterBits n).hPlen = s.hPlen := rfl
@[simp] theorem afterBits_hCrc1 (n : Nat) (s : State) : (s.afterBits n).hCrc1 = s.hCrc1 := rfl
@[simp] theorem afterBits_hCrc2 (n : Nat) (s : State) : (s.afterBits n).hCrc2 = s.hCrc2 := rfl
@[simp] theorem afterBits_hMargin (n : Nat) (s : State) : (s.afterBits n).hMargin = s.hMargin := rfl
@[simp] theorem afterBits_hBlocks (n : Nat) (s : State) : (s.afterBits n).hBlocks = s.hBlocks := rfl
@[simp] theorem afterBits_tabs (n : Nat) (s : State) : (s.afterBits n).tabs = s.tabs := rfl
@[simp] theorem afterBits_olen (n : Nat) (s : State) : (s.afterBits n).olen = s.olen := rfl
@[simp] theorem afterBits_out (n : Nat) (s : State) : (s.afterBits n).out = s.out := rfl
@[simp] theorem afterBits_err (n : Nat) (s : State) : (s.afterBits n).err = s.err := rfl
@[simp] theorem afterBits_inLen (n : Nat) (s : State) : (s.afterBits n).inLen = s.inLen := rfl
@[simp] theorem afterBits_inMem (n : Nat) (s : State) : (s.afterBits n).inMem = s.inMem := rfl
@[simp] theorem afterBits_outCap (n : Nat) (s : State) : (s.afterBits n).outCap = s.outCap := rfl
@[simp] theorem afterBits_elem (n : Nat) (s : State) : (s.afterBits n).elem = s.elem := rfl
@[simp] theorem afterBits_ret (n : Nat) (s : State) : (s.afterBits n).ret = s.ret := rfl
@[simp] theorem afterBits_hostIn (n : Nat) (s : State) : (s.afterBits n).hostIn = s.hostIn := rfl

@[simp] theorem appended_phase (bs : List Byte) (s : State) : (s.appended bs).phase = s.phase := rfl
@[simp] theorem appended_blk (bs : List Byte) (s : State) : (s.appended bs).blk = s.blk := rfl
@[simp] theorem appended_nsub (bs : List Byte) (s : State) : (s.appended bs).nsub = s.nsub := rfl
@[simp] theorem appended_sub (bs : List Byte) (s : State) : (s.appended bs).sub = s.sub := rfl
@[simp] theorem appended_ip (bs : List Byte) (s : State) : (s.appended bs).ip = s.ip := rfl
@[simp] theorem appended_bqVal (bs : List Byte) (s : State) : (s.appended bs).bqVal = s.bqVal := rfl
@[simp] theorem appended_bqCnt (bs : List Byte) (s : State) : (s.appended bs).bqCnt = s.bqCnt := rfl
@[simp] theorem appended_hSig (bs : List Byte) (s : State) : (s.appended bs).hSig = s.hSig := rfl
@[simp] theorem appended_hUlen (bs : List Byte) (s : State) : (s.appended bs).hUlen = s.hUlen := rfl
@[simp] theorem appended_hPlen (bs : List Byte) (s : State) : (s.appended bs).hPlen = s.hPlen := rfl
@[simp] theorem appended_hCrc1 (bs : List Byte) (s : State) : (s.appended bs).hCrc1 = s.hCrc1 := rfl
@[simp] theorem appended_hCrc2 (bs : List Byte) (s : State) : (s.appended bs).hCrc2 = s.hCrc2 := rfl
@[simp] theorem appended_hMargin (bs : List Byte) (s : State) : (s.appended bs).hMargin = s.hMargin := rfl
@[simp] theorem appended_hBlocks (bs : List Byte) (s : State) : (s.appended bs).hBlocks = s.hBlocks := rfl
@[simp] theorem appended_tabs (bs : List Byte) (s : State) : (s.appended bs).tabs = s.tabs := rfl
@[simp] theorem appended_olen (bs : List Byte) (s : State) : (s.appended bs).olen = s.olen + bs.length := rfl
@[simp] theorem appended_out (bs : List Byte) (s : State) : (s.appended bs).out = s.out.putAll s.olen bs := rfl
@[simp] theorem appended_err (bs : List Byte) (s : State) : (s.appended bs).err = s.err := rfl
@[simp] theorem appended_inLen (bs : List Byte) (s : State) : (s.appended bs).inLen = s.inLen := rfl
@[simp] theorem appended_inMem (bs : List Byte) (s : State) : (s.appended bs).inMem = s.inMem := rfl
@[simp] theorem appended_outCap (bs : List Byte) (s : State) : (s.appended bs).outCap = s.outCap := rfl
@[simp] theorem appended_elem (bs : List Byte) (s : State) : (s.appended bs).elem = s.elem := rfl
@[simp] theorem appended_ret (bs : List Byte) (s : State) : (s.appended bs).ret = s.ret := rfl
@[simp] theorem appended_hostIn (bs : List Byte) (s : State) : (s.appended bs).hostIn = s.hostIn := rfl

@[simp] theorem clearRegisters_phase (p : Phase) (s : State) : (clearRegisters p s).phase = p := rfl
@[simp] theorem clearRegisters_blk (p : Phase) (s : State) : (clearRegisters p s).blk = 0 := rfl
@[simp] theorem clearRegisters_nsub (p : Phase) (s : State) : (clearRegisters p s).nsub = 0 := rfl
@[simp] theorem clearRegisters_sub (p : Phase) (s : State) : (clearRegisters p s).sub = 0 := rfl
@[simp] theorem clearRegisters_ip (p : Phase) (s : State) : (clearRegisters p s).ip = 0 := rfl
@[simp] theorem clearRegisters_bqVal (p : Phase) (s : State) : (clearRegisters p s).bqVal = 0 := rfl
@[simp] theorem clearRegisters_bqCnt (p : Phase) (s : State) : (clearRegisters p s).bqCnt = 0 := rfl
@[simp] theorem clearRegisters_hSig (p : Phase) (s : State) : (clearRegisters p s).hSig = 0 := rfl
@[simp] theorem clearRegisters_hUlen (p : Phase) (s : State) : (clearRegisters p s).hUlen = 0 := rfl
@[simp] theorem clearRegisters_hPlen (p : Phase) (s : State) : (clearRegisters p s).hPlen = 0 := rfl
@[simp] theorem clearRegisters_hCrc1 (p : Phase) (s : State) : (clearRegisters p s).hCrc1 = 0 := rfl
@[simp] theorem clearRegisters_hCrc2 (p : Phase) (s : State) : (clearRegisters p s).hCrc2 = 0 := rfl
@[simp] theorem clearRegisters_hMargin (p : Phase) (s : State) : (clearRegisters p s).hMargin = 0 := rfl
@[simp] theorem clearRegisters_hBlocks (p : Phase) (s : State) : (clearRegisters p s).hBlocks = 0 := rfl
@[simp] theorem clearRegisters_tabs (p : Phase) (s : State) : (clearRegisters p s).tabs = emptyTables := rfl
@[simp] theorem clearRegisters_olen (p : Phase) (s : State) : (clearRegisters p s).olen = 0 := rfl
@[simp] theorem clearRegisters_out (p : Phase) (s : State) : (clearRegisters p s).out = [] := rfl
@[simp] theorem clearRegisters_err (p : Phase) (s : State) : (clearRegisters p s).err = none := rfl
@[simp] theorem clearRegisters_inLen (p : Phase) (s : State) : (clearRegisters p s).inLen = s.inLen := rfl
@[simp] theorem clearRegisters_inMem (p : Phase) (s : State) : (clearRegisters p s).inMem = s.inMem := rfl
@[simp] theorem clearRegisters_outCap (p : Phase) (s : State) : (clearRegisters p s).outCap = s.outCap := rfl
@[simp] theorem clearRegisters_elem (p : Phase) (s : State) : (clearRegisters p s).elem = .hdr := rfl
@[simp] theorem clearRegisters_ret (p : Phase) (s : State) : (clearRegisters p s).ret = .unit := rfl
@[simp] theorem clearRegisters_hostIn (p : Phase) (s : State) : (clearRegisters p s).hostIn = s.hostIn := rfl

@[simp] theorem tables_get_set_same (T : Tables) (r : Role) (t : Table) : (T.set r t).get r = t := by cases r <;> rfl

theorem tables_get_set_other (T : Tables) {r r' : Role} (t : Table) (ne : r' ≠ r) : (T.set r t).get r' = T.get r' := by
  cases r <;> cases r' <;> first | rfl | exact absurd rfl ne

@[simp] theorem andThen_ok {α β : Type} (a : α) (s : State) (f : α → State → Res β) :
    (Res.ok a s).andThen f = f a s := rfl

@[simp] theorem andThen_raised {α β : Type} (s : State) (f : α → State → Res β) :
    (Res.raised s : Res α).andThen f = .raised s := rfl

@[simp] theorem andThen_raise {α β : Type} (e : Error) (s : State) (f : α → State → Res β) :
    (raise e s : Res α).andThen f = raise e s := rfl

@[simp] theorem finish_ok (s : State) : (Res.ok () s).finish = .next s := rfl

@[simp] theorem finish_raised (s : State) : (Res.raised s : Res Unit).finish = .next s := rfl

@[simp] theorem finish_raise (e : Error) (s : State) : (raise e s : Res Unit).finish = .next (errorEntry e s) := rfl

@[simp] theorem finishValue_ok (v : Nat) (s : State) : (Res.ok v s).finishValue = .next (returning v s) := rfl

@[simp] theorem finishValue_raise (e : Error) (s : State) :
    (raise e s : Res Nat).finishValue = .next (errorEntry e s) := rfl

@[simp] theorem finishBytes_ok (b : List Byte) (s : State) :
    (Res.ok b s).finishBytes = .next { s with ret := .bytes b } := rfl

@[simp] theorem finishBytes_raise (e : Error) (s : State) :
    (raise e s : Res (List Byte)).finishBytes = .next (errorEntry e s) := rfl

end Sys2Proof.Machine
end

