-- ==== Sys2Proof/Laws/Bits.lean ====
section
/-! SUPPORT. The bit queue against the stream of bits: what `RDBITS`, `PEEK` and the lookahead do, said once
(40_byte_and_bit_reader.md rules R94 to R101). -/

namespace Sys2Proof.Machine

/-- A queue with no stray bits and a cursor inside `IN`; unlike `Reads` it also holds just after a refill. -/
structure State.Queue (s : State) : Prop where
  cursor : s.ip ≤ s.inLen
  queueVal : s.bqVal < 2 ^ s.bqCnt

theorem State.Reads.queue {s : State} (h : s.Reads) : s.Queue := ⟨h.cursor, h.queueVal⟩

/-! ### Fields -/

theorem streamField_lt (s : State) (lo n : Nat) : s.streamField lo n < 2 ^ n := by
  induction n with
  | zero => simp [State.streamField]
  | succ n ih =>
    rw [State.streamField, pow_succ]
    split <;> omega

theorem streamField_testBit (s : State) (lo n i : Nat) :
    (s.streamField lo n).testBit i = (decide (i < n) && s.streamBit (lo + i)) := by
  induction n with
  | zero => simp [State.streamField]
  | succ n ih =>
    have hlt := streamField_lt s lo n
    rw [State.streamField]
    cases hb : s.streamBit (lo + n)
    · simp only [Bool.false_eq_true, if_false, add_zero, ih]
      rcases Nat.lt_trichotomy i n with h | rfl | h
      · simp [h, Nat.lt_succ_of_lt h]
      · simp [hb]
      · simp [show ¬ i < n by omega, show ¬ i < n + 1 by omega]
    · simp only [if_true]
      rcases Nat.lt_trichotomy i n with h | rfl | h
      · rw [Nat.add_comm, Nat.testBit_two_pow_add_gt h, ih]
        simp [h, Nat.lt_succ_of_lt h]
      · rw [Nat.add_comm, Nat.testBit_two_pow_add_eq, ih]
        simp [hb]
      · have : s.streamField lo n + 2 ^ n < 2 ^ i := by
          have h1 : 2 ^ (n + 1) ≤ 2 ^ i := Nat.pow_le_pow_right (by omega) (by omega)
          rw [pow_succ] at h1
          omega
        rw [Nat.testBit_lt_two_pow this]
        simp [show ¬ i < n + 1 by omega]

/-- A number whose bits are the next `n` bits is the field. -/
theorem eq_streamField {s : State} {lo n v : Nat}
    (h : ∀ i, v.testBit i = (decide (i < n) && s.streamBit (lo + i))) : v = s.streamField lo n :=
  Nat.eq_of_testBit_eq fun i => by rw [h, streamField_testBit]

theorem streamField_congr {s t : State} {lo lo' n : Nat}
    (h : ∀ i, i < n → s.streamBit (lo + i) = t.streamBit (lo' + i)) : s.streamField lo n = t.streamField lo' n :=
  eq_streamField fun i => by
    rw [streamField_testBit]
    by_cases hi : i < n
    · simp [hi, h i hi]
    · simp [hi]

/-- A field in the middle of a longer one. -/
theorem streamField_shift (s : State) (lo a n m : Nat) (h : a + m ≤ n) :
    (s.streamField lo n >>> a) &&& mask m = s.streamField (lo + a) m :=
  eq_streamField fun i => by
    rw [Nat.testBit_and, Nat.testBit_shiftRight, streamField_testBit, mask, Nat.testBit_two_pow_sub_one]
    by_cases hi : i < m
    · simp [hi, show a + i < n by omega, Nat.add_assoc]
    · simp [hi]

theorem streamField_split (s : State) (lo a b : Nat) :
    s.streamField lo (a + b) = s.streamField lo a + 2 ^ a * s.streamField (lo + a) b := by
  induction b with
  | zero => simp [State.streamField]
  | succ b ih =>
    rw [← Nat.add_assoc, State.streamField, ih, State.streamField]
    split <;> rename_i h
    · rw [show lo + a + b = lo + (a + b) by omega, if_pos h]
      ring
    · rw [show lo + a + b = lo + (a + b) by omega, if_neg h]
      ring

theorem bqVal_eq {s : State} (h : s.Queue) : s.bqVal = s.streamField 0 s.bqCnt :=
  eq_streamField fun i => by
    by_cases hi : i < s.bqCnt
    · simp [State.streamBit, hi]
    · rw [Nat.testBit_lt_two_pow (lt_of_lt_of_le h.queueVal (Nat.pow_le_pow_right (by omega) (by omega)))]
      simp [hi]

/-- Two states that hold the same bits, buffered and to come, hold the same queue. -/
theorem bqVal_congr {s t : State} (hs : s.Queue) (ht : t.Queue) (hc : s.bqCnt = t.bqCnt)
    (hb : ∀ i, s.streamBit i = t.streamBit i) : s.bqVal = t.bqVal := by
  rw [bqVal_eq hs, bqVal_eq ht, hc]
  exact streamField_congr fun i _ => by simp [hb]

/-! ### The word at the cursor -/

theorem inByte_getD (s : State) (a : Nat) : (s.inByte a).getD 0 = s.streamByte a := by
  unfold State.inByte State.streamByte
  split <;> rfl

theorem lookW_eq (s : State) : lookW s = (s.streamByte s.ip).toNat + 256 * (s.streamByte (s.ip + 1)).toNat := by
  have h := (s.streamByte s.ip).isLt
  rw [lookW]
  simp only [inByte_getD]
  rw [Nat.or_comm, ← Nat.shiftLeft_add_eq_or_of_lt h, Nat.shiftLeft_eq]
  omega

theorem lookW_lt (s : State) : lookW s < 2 ^ 16 := by
  have h := (s.streamByte s.ip).isLt
  have h' := (s.streamByte (s.ip + 1)).isLt
  rw [lookW_eq]
  omega

theorem lookW_testBit (s : State) (i : Nat) (h : i < 16) :
    (lookW s).testBit i = (s.streamByte (s.ip + i / 8)).toNat.testBit (i % 8) := by
  rw [lookW]
  simp only [inByte_getD, Nat.testBit_or, Nat.testBit_shiftLeft]
  by_cases h8 : i < 8
  · rw [show i / 8 = 0 by omega, show i % 8 = i by omega]
    simp [show ¬ 8 ≤ i by omega]
  · rw [show i / 8 = 1 by omega, show i % 8 = i - 8 by omega,
      Nat.testBit_lt_two_pow (lt_of_lt_of_le (s.streamByte s.ip).isLt (Nat.pow_le_pow_right (by omega) (by omega)))]
    simp [show 8 ≤ i by omega]

/-! ### Refill and consume -/

@[simp] theorem refill_streamByte (s : State) (a : Nat) : (refill s).streamByte a = s.streamByte a := rfl

theorem refill_queue {s : State} (h : s.Queue) : (refill s).Queue := by
  refine ⟨by simp, ?_⟩
  have h1 := h.queueVal
  have h2 := lookW_lt s
  simp only [refill_bqVal, refill_bqCnt]
  refine Nat.or_lt_two_pow (lt_of_lt_of_le h1 (Nat.pow_le_pow_right (by omega) (by omega))) ?_
  rw [Nat.shiftLeft_eq, pow_add, Nat.mul_comm]
  exact Nat.mul_lt_mul_of_pos_left h2 (Nat.pow_pos (by omega))

/-- A refill moves bits from `IN` into the queue and changes none of them. -/
theorem refill_streamBit {s : State} (h : s.Queue) (i : Nat) : (refill s).streamBit i = s.streamBit i := by
  have hc := h.cursor
  have hv := h.queueVal
  unfold State.streamBit
  simp only [refill_bqCnt, refill_bqVal, refill_ip, refill_streamByte, Nat.testBit_or, Nat.testBit_shiftLeft]
  by_cases h1 : i < s.bqCnt
  · simp [h1, show i < s.bqCnt + 16 by omega, show ¬ s.bqCnt ≤ i by omega]
  · rw [if_neg h1]
    have hz : s.bqVal.testBit i = false :=
      Nat.testBit_lt_two_pow (lt_of_lt_of_le hv (Nat.pow_le_pow_right (by omega) (by omega)))
    by_cases h2 : i < s.bqCnt + 16
    · rw [if_pos h2, hz, lookW_testBit s _ (by omega)]
      simp [show s.bqCnt ≤ i by omega]
    · rw [if_neg h2]
      have e1 : (i - (s.bqCnt + 16)) % 8 = (i - s.bqCnt) % 8 := by omega
      have e2 : (i - s.bqCnt) / 8 = (i - (s.bqCnt + 16)) / 8 + 2 := by omega
      rw [e1, e2]
      by_cases h3 : s.ip + 2 ≤ s.inLen
      · rw [Nat.min_eq_left h3]
        congr 3
        omega
      · unfold State.streamByte
        rw [if_neg (by omega), if_neg (by omega)]

theorem consume_queue {s : State} {n : Nat} (h : s.Queue) (hn : n ≤ s.bqCnt) : (consume n s).Queue := by
  refine ⟨h.cursor, ?_⟩
  have h1 := h.queueVal
  simp only [consume_bqVal, consume_bqCnt, Nat.shiftRight_eq_div_pow]
  rw [Nat.div_lt_iff_lt_mul (Nat.pow_pos (by omega)), ← pow_add, Nat.sub_add_cancel hn]
  exact h1

/-- Consuming `n` buffered bits drops the next `n` bits of the stream. -/
theorem consume_streamBit {s : State} {n : Nat} (hn : n ≤ s.bqCnt) (i : Nat) :
    (consume n s).streamBit i = s.streamBit (n + i) := by
  unfold State.streamBit
  simp only [consume_bqVal, consume_bqCnt, consume_ip, Nat.testBit_shiftRight]
  by_cases h : i < s.bqCnt - n
  · rw [if_pos h, if_pos (by omega)]
  · rw [if_neg h, if_neg (by omega), show i - (s.bqCnt - n) = n + i - s.bqCnt by omega]
    rfl

/-! ### The state after `n` bits -/

/-- States that differ from one state in the cursor and the queue only are equal when those are. -/
theorem queue_ext (s t u : State) (ht : t = { s with ip := t.ip, bqVal := t.bqVal, bqCnt := t.bqCnt })
    (hu : u = { s with ip := u.ip, bqVal := u.bqVal, bqCnt := u.bqCnt })
    (h1 : t.ip = u.ip) (h2 : t.bqVal = u.bqVal) (h3 : t.bqCnt = u.bqCnt) : t = u := by
  rw [ht, hu, h1, h2, h3]

theorem afterBits_bounds {s : State} (h : s.Reads) (n : Nat) :
    n ≤ s.bqCnt + 16 * s.wordsFor n ∧ s.bqCnt + 16 * s.wordsFor n - n ≤ 15 := by
  have := h.queueCnt
  unfold State.wordsFor
  omega

@[simp] theorem afterBits_streamByte (s : State) (n a : Nat) : (s.afterBits n).streamByte a = s.streamByte a := rfl

theorem afterBits_reads {s : State} (h : s.Reads) (n : Nat) : (s.afterBits n).Reads := by
  have hb := afterBits_bounds h n
  exact ⟨by simp, by simpa using streamField_lt s _ _, by simpa using hb.2⟩

/-- The bits to come after `n` bits have been handed out. -/
theorem afterBits_streamBit {s : State} (h : s.Reads) (n i : Nat) :
    (s.afterBits n).streamBit i = s.streamBit (n + i) := by
  have hc := h.cursor
  have hb := afterBits_bounds h n
  conv_lhs => unfold State.streamBit
  simp only [afterBits_bqCnt, afterBits_bqVal, afterBits_ip, afterBits_streamByte, streamField_testBit]
  by_cases h1 : i < s.bqCnt + 16 * s.wordsFor n - n
  · simp [h1]
  · rw [if_neg h1]
    unfold State.streamBit
    rw [if_neg (by omega)]
    have e1 : (i - (s.bqCnt + 16 * s.wordsFor n - n)) % 8 = (n + i - s.bqCnt) % 8 := by omega
    have e2 : (n + i - s.bqCnt) / 8 = (i - (s.bqCnt + 16 * s.wordsFor n - n)) / 8 + 2 * s.wordsFor n := by omega
    rw [e1, e2]
    by_cases h3 : s.ip + 2 * s.wordsFor n ≤ s.inLen
    · rw [Nat.min_eq_left h3]
      congr 3
      omega
    · unfold State.streamByte
      rw [if_neg (by omega), if_neg (by omega)]

theorem afterBits_streamField {s : State} (h : s.Reads) (n lo m : Nat) :
    (s.afterBits n).streamField lo m = s.streamField (n + lo) m :=
  streamField_congr fun i _ => by rw [afterBits_streamBit h, Nat.add_assoc]

theorem afterBits_zero {s : State} (h : s.Reads) : s.afterBits 0 = s := by
  have hc := h.queueCnt
  have hw : s.wordsFor 0 = 0 := by unfold State.wordsFor; omega
  unfold State.afterBits
  rw [hw]
  simp only [Nat.mul_zero, Nat.add_zero, Nat.sub_zero, Nat.min_eq_left h.cursor, ← bqVal_eq h.queue]

/-- Bits handed out in two parts are handed out as one: no bit is skipped or repeated (rule R101). -/
theorem afterBits_afterBits {s : State} (h : s.Reads) (a b : Nat) :
    (s.afterBits a).afterBits b = s.afterBits (a + b) := by
  have hq := h.queueCnt
  have hb := afterBits_bounds h a
  have hw : s.wordsFor (a + b) = s.wordsFor a + (s.afterBits a).wordsFor b := by
    unfold State.wordsFor
    simp only [afterBits_bqCnt]
    unfold State.wordsFor
    omega
  have hcnt : ((s.afterBits a).afterBits b).bqCnt = (s.afterBits (a + b)).bqCnt := by
    simp only [afterBits_bqCnt]
    omega
  have hip : ((s.afterBits a).afterBits b).ip = (s.afterBits (a + b)).ip := by
    simp only [afterBits_ip, afterBits_inLen]
    omega
  have hval : ((s.afterBits a).afterBits b).bqVal = (s.afterBits (a + b)).bqVal :=
    bqVal_congr (afterBits_reads (afterBits_reads h a) b).queue (afterBits_reads h (a + b)).queue hcnt fun i => by
      rw [afterBits_streamBit (afterBits_reads h a), afterBits_streamBit h, afterBits_streamBit h, Nat.add_assoc]
  exact queue_ext s ((s.afterBits a).afterBits b) (s.afterBits (a + b)) rfl rfl hip hval hcnt

/-! ### RDBITS, PEEK, lookahead -/

theorem and_mask_testBit (v n i : Nat) : (v &&& mask n).testBit i = (decide (i < n) && v.testBit i) := by
  rw [Nat.testBit_and, mask, Nat.testBit_two_pow_sub_one, Bool.and_comm]

/-- `RDBITS(n)`: the next `n` bits, and the state after them (rules R97, R101). -/
theorem rdBits_eq {s : State} (h : s.Reads) {n : Nat} (hn : n ≤ 16) :
    rdBits n s = (s.streamField 0 n, s.afterBits n) := by
  have hq := h.queueCnt
  have he : (ensure n s).Queue ∧ n ≤ (ensure n s).bqCnt ∧ (∀ i, (ensure n s).streamBit i = s.streamBit i) ∧
      (ensure n s).bqCnt = s.bqCnt + 16 * s.wordsFor n ∧ (ensure n s).ip = min (s.ip + 2 * s.wordsFor n) s.inLen := by
    unfold ensure State.wordsFor
    split
    · have hw : (n - s.bqCnt + 15) / 16 = 1 := by omega
      rw [hw]
      exact ⟨refill_queue h.queue, by simp; omega, refill_streamBit h.queue, rfl, rfl⟩
    · have hw : (n - s.bqCnt + 15) / 16 = 0 := by omega
      rw [hw]
      exact ⟨h.queue, by omega, fun _ => rfl, rfl, (Nat.min_eq_left h.cursor).symm⟩
  obtain ⟨hQ, hle, hb, hcnt, hip⟩ := he
  have hval : (ensure n s).bqVal &&& mask n = s.streamField 0 n := eq_streamField fun i => by
    rw [and_mask_testBit]
    by_cases hi : i < n
    · simp only [hi, decide_true, Bool.true_and]
      rw [Nat.zero_add, ← hb i]
      unfold State.streamBit
      rw [if_pos (by omega)]
    · simp [hi]
  have hst : consume n (ensure n s) = s.afterBits n := by
    have hv : (consume n (ensure n s)).bqVal = (s.afterBits n).bqVal :=
      bqVal_congr (consume_queue hQ hle) (afterBits_reads h n).queue (by simp [hcnt])
        fun i => by rw [consume_streamBit hle, afterBits_streamBit h, hb]
    refine queue_ext s _ _ ?_ rfl (by simp [hip]) hv (by simp [hcnt])
    unfold ensure
    split <;> rfl
  exact Prod.ext hval hst

/-- The bits `PEEK(n)` shows: those buffered, and one word more when fewer than `n` are (rule R96). -/
theorem peek_eq {s : State} (h : s.Reads) (n : Nat) :
    peek n s = s.streamField 0 (if n ≤ s.bqCnt then s.bqCnt else s.bqCnt + 16) := by
  unfold peek
  by_cases hn : n ≤ s.bqCnt
  · rw [if_pos hn, if_pos hn, bqVal_eq h.queue]
  · rw [if_neg hn, if_neg hn]
    have hr := bqVal_eq (refill_queue h.queue)
    simp only [refill_bqVal, refill_bqCnt] at hr
    rw [hr]
    exact streamField_congr fun i _ => refill_streamBit h.queue _

/-- The low bits of the peek of `DECVAL` are the next bits of the stream (42_value_decode.md rule R131 a). -/
theorem peek_low {s : State} (h : s.Reads) {d : Nat} (hd : d ≤ 16) :
    peek 16 s &&& mask d = s.streamField 0 d := by
  have hq := h.queueCnt
  rw [peek_eq h, if_neg (by omega)]
  simpa using streamField_shift s 0 0 (s.bqCnt + 16) d (by omega)

theorem lookahead_eq (k : Nat) {s : State} (h : s.Queue) : lookahead k s = s.streamField 0 (s.bqCnt + 16 * k) := by
  induction k generalizing s with
  | zero => exact bqVal_eq h
  | succ k ih =>
    rw [lookahead, ih (refill_queue h), refill_bqCnt, show s.bqCnt + 16 + 16 * k = s.bqCnt + 16 * (k + 1) by omega]
    exact streamField_congr fun i _ => refill_streamBit h _

/-- A field of the lookahead is the field of the stream. -/
theorem bitField_lookahead {s : State} (h : s.Queue) {lo n : Nat} (hn : lo + n ≤ 80) :
    bitField (lookahead 5 s) lo n = s.streamField lo n := by
  rw [bitField, lookahead_eq 5 h]
  simpa using streamField_shift s 0 lo (s.bqCnt + 16 * 5) n (by omega)

end Sys2Proof.Machine
end

