-- ==== Sys2Proof/Laws/Memory.lean ====
section
/-! SUPPORT. The laws of a byte space: a read after a write, and the canonical form kept by every operation. -/

namespace Sys2Proof.Machine

theorem Memory.wf_nil : Memory.wf [] := ⟨List.Pairwise.nil, by simp⟩

theorem Memory.wf_cons {k : Nat} {b : Byte} {m : Memory} :
    Memory.wf ((k, b) :: m) ↔ b ≠ 0 ∧ (∀ x ∈ m, k < x.1) ∧ Memory.wf m := by
  constructor
  · rintro ⟨hp, hz⟩
    rw [List.pairwise_cons] at hp
    exact ⟨hz _ (List.mem_cons_self ..), hp.1, hp.2, fun x hx => hz x (List.mem_cons_of_mem _ hx)⟩
  · rintro ⟨hb, hk, hp, hz⟩
    refine ⟨List.pairwise_cons.2 ⟨hk, hp⟩, fun x hx => ?_⟩
    rcases List.mem_cons.1 hx with rfl | hx
    · exact hb
    · exact hz x hx

/-- An address below every entry holds byte 0. -/
theorem Memory.read_below {m : Memory} {a : Nat} (h : ∀ x ∈ m, a < x.1) : m.read a = 0 := by
  induction m with
  | nil => rfl
  | cons x m ih =>
    obtain ⟨k, b⟩ := x
    have hk : a < k := h (k, b) (List.mem_cons_self ..)
    rw [Memory.read, if_neg (by omega), ih fun x hx => h x (List.mem_cons_of_mem _ hx)]

/-- What a write adds: nothing but its own address. -/
theorem Memory.mem_write {m : Memory} {a : Nat} {v : Byte} {x : Host.Cell} (h : x ∈ m.write a v) :
    x = (a, v) ∨ x ∈ m := by
  induction m with
  | nil =>
    rw [Memory.write] at h
    split at h
    · exact .inr h
    · exact .inl (List.mem_singleton.1 h)
  | cons y m ih =>
    obtain ⟨k, b⟩ := y
    rw [Memory.write] at h
    split at h
    · split at h
      · exact .inr h
      · simpa using h
    · split at h
      · split at h
        · exact .inr (List.mem_cons_of_mem _ h)
        · rcases List.mem_cons.1 h with h | h
          · exact .inl h
          · exact .inr (List.mem_cons_of_mem _ h)
      · rcases List.mem_cons.1 h with h | h
        · exact .inr (h ▸ List.mem_cons_self ..)
        · rcases ih h with h | h
          · exact .inl h
          · exact .inr (List.mem_cons_of_mem _ h)

/-- A write keeps the canonical form. -/
theorem Memory.wf_write {m : Memory} (h : m.wf) (a : Nat) (v : Byte) : (m.write a v).wf := by
  induction m with
  | nil =>
    rw [Memory.write]
    split
    · exact h
    · exact Memory.wf_cons.2 ⟨by assumption, by simp, Memory.wf_nil⟩
  | cons x m ih =>
    obtain ⟨k, b⟩ := x
    obtain ⟨hb, hk, hm⟩ := Memory.wf_cons.1 h
    rw [Memory.write]
    split
    · split
      · exact h
      · refine Memory.wf_cons.2 ⟨by assumption, ?_, h⟩
        intro x hx
        rcases List.mem_cons.1 hx with rfl | hx
        · assumption
        · have := hk x hx
          omega
    · split
      · subst a
        split
        · exact hm
        · exact Memory.wf_cons.2 ⟨by assumption, hk, hm⟩
      · refine Memory.wf_cons.2 ⟨hb, ?_, ih hm⟩
        intro x hx
        rcases Memory.mem_write hx with rfl | hx
        · show k < a
          omega
        · exact hk x hx

/-- A read at the address written gives the byte written. -/
theorem Memory.read_write_same {m : Memory} (h : m.wf) (a : Nat) (v : Byte) : (m.write a v).read a = v := by
  induction m with
  | nil =>
    rw [Memory.write]
    split
    · simp_all [Memory.read]
    · simp [Memory.read]
  | cons x m ih =>
    obtain ⟨k, b⟩ := x
    obtain ⟨_, hk, hm⟩ := Memory.wf_cons.1 h
    rw [Memory.write]
    split
    · split
      · have hlow : ∀ x ∈ (k, b) :: m, a < x.1 := by
          intro x hx
          rcases List.mem_cons.1 hx with rfl | hx
          · assumption
          · have := hk x hx
            omega
        rw [Memory.read_below hlow]
        exact Eq.symm ‹v = 0›
      · simp [Memory.read]
    · split
      · subst a
        split
        · rw [Memory.read_below hk]
          exact Eq.symm ‹v = 0›
        · simp [Memory.read]
      · rw [Memory.read, if_neg (by omega), ih hm]

/-- A write leaves every other address alone. -/
theorem Memory.read_write_other {m : Memory} (h : m.wf) {a a' : Nat} (v : Byte) (ne : a' ≠ a) :
    (m.write a v).read a' = m.read a' := by
  induction m with
  | nil =>
    rw [Memory.write]
    split
    · rfl
    · simp [Memory.read, ne.symm]
  | cons x m ih =>
    obtain ⟨k, b⟩ := x
    obtain ⟨_, hk, hm⟩ := Memory.wf_cons.1 h
    rw [Memory.write]
    split
    · split
      · rfl
      · rw [Memory.read, if_neg (by omega)]
    · split
      · subst a
        split
        · rw [Memory.read, if_neg (by omega)]
        · simp [Memory.read, ne.symm]
      · simp only [Memory.read]
        rw [ih hm]

/-- Bytes laid out from an address stand at that address or above. -/
theorem Memory.mem_ofBytes {bs : List Byte} {a : Nat} {x : Host.Cell} (h : x ∈ Memory.ofBytes a bs) :
    a ≤ x.1 ∧ x.1 < a + bs.length := by
  induction bs generalizing a with
  | nil => simp [Memory.ofBytes] at h
  | cons b bs ih =>
    rw [Memory.ofBytes] at h
    simp only [List.length_cons]
    split at h
    · have := ih h
      omega
    · rcases List.mem_cons.1 h with rfl | h
      · simp
      · have := ih h
        omega

/-- Placing a stream gives the canonical form. -/
theorem Memory.wf_ofBytes (bs : List Byte) (a : Nat) : (Memory.ofBytes a bs).wf := by
  induction bs generalizing a with
  | nil => exact Memory.wf_nil
  | cons b bs ih =>
    rw [Memory.ofBytes]
    split
    · exact ih _
    · exact Memory.wf_cons.2 ⟨by assumption, fun x hx => (Memory.mem_ofBytes hx).1, ih _⟩

/-- A byte of a placed stream reads as it was placed. -/
theorem Memory.read_ofBytes (bs : List Byte) (a i : Nat) (h : i < bs.length) :
    (Memory.ofBytes a bs).read (a + i) = bs.getD i 0 := by
  induction bs generalizing a i with
  | nil => simp at h
  | cons b bs ih =>
    rw [Memory.ofBytes]
    cases i with
    | zero =>
      split
      · rw [Memory.read_below fun x hx => by have := (Memory.mem_ofBytes hx).1; omega]
        simp_all
      · simp [Memory.read]
    | succ i =>
      have key := ih (a + 1) i (by simpa using h)
      rw [show a + (i + 1) = a + 1 + i by omega]
      split
      · simpa using key
      · rw [Memory.read, if_neg (by omega)]
        simpa using key

theorem Memory.wf_putAll {m : Memory} (h : m.wf) (a : Nat) (bs : List Byte) : (m.putAll a bs).wf := by
  induction bs generalizing m a with
  | nil => exact h
  | cons b bs ih => exact ih (Memory.wf_write h a b) _

theorem Memory.mem_putAll {m : Memory} {a : Nat} {bs : List Byte} {x : Host.Cell} (h : x ∈ m.putAll a bs) :
    (a ≤ x.1 ∧ x.1 < a + bs.length) ∨ x ∈ m := by
  induction bs generalizing m a with
  | nil => exact .inr h
  | cons b bs ih =>
    simp only [List.length_cons]
    rcases ih h with h | h
    · left
      omega
    · rcases Memory.mem_write h with rfl | h
      · left
        simp
      · exact .inr h

/-- An address outside the bytes stored keeps its byte. -/
theorem Memory.read_putAll_other {m : Memory} (h : m.wf) (a : Nat) (bs : List Byte) {a' : Nat}
    (out : a' < a ∨ a + bs.length ≤ a') : (m.putAll a bs).read a' = m.read a' := by
  induction bs generalizing m a with
  | nil => rfl
  | cons b bs ih =>
    simp only [List.length_cons] at out
    rw [Memory.putAll, ih (Memory.wf_write h a b) _ (by omega), Memory.read_write_other h b (by omega)]

/-- The bytes stored read back in order. -/
theorem Memory.read_putAll_inside {m : Memory} (h : m.wf) (a : Nat) (bs : List Byte) {j : Nat} (hj : j < bs.length) :
    (m.putAll a bs).read (a + j) = bs.getD j 0 := by
  induction bs generalizing m a j with
  | nil => simp at hj
  | cons b bs ih =>
    rw [Memory.putAll]
    cases j with
    | zero =>
      rw [Memory.read_putAll_other (Memory.wf_write h a b) _ _ (by omega)]
      simpa using Memory.read_write_same h a b
    | succ j =>
      rw [show a + (j + 1) = a + 1 + j by omega, ih (Memory.wf_write h a b) _ (by simpa using hj)]
      simp

theorem Memory.putAll_append (m : Memory) (a : Nat) (bs cs : List Byte) :
    m.putAll a (bs ++ cs) = (m.putAll a bs).putAll (a + bs.length) cs := by
  induction bs generalizing m a with
  | nil => rfl
  | cons b bs ih =>
    simp only [List.cons_append, Memory.putAll, List.length_cons]
    rw [ih, show a + (bs.length + 1) = a + 1 + bs.length by omega]

end Sys2Proof.Machine
end

