-- ==== Sys2Proof/Laws/Ops.lean ====
section
/-! SUPPORT. One lemma for each shared operation that says once everything it can do; cite these instead of unfolding. -/

namespace Sys2Proof.Machine

/-! ### Byte reader (rules R90 to R93) -/

theorem inBytes_length (s : State) (a n : Nat) : (s.inBytes a n).length = n := by simp [State.inBytes]

theorem inBytes_getD (s : State) (a n j : Nat) (h : j < n) : (s.inBytes a n).getD j 0 = s.inMem.read (a + j) := by
  simp [State.inBytes, List.getD, h]

theorem rdBytes_ok {s : State} {n : Nat} (h : s.ip + n ≤ s.inLen) :
    rdBytes n s = .ok (s.inBytes s.ip n) { s with ip := s.ip + n } := by
  rw [rdBytes, if_neg (by omega)]

theorem rdBytes_short {s : State} {n : Nat} (h : s.inLen < s.ip + n) : rdBytes n s = raise .truncated s := by
  rw [rdBytes, if_pos (by omega)]

theorem streamByte_inside {s : State} {a : Nat} (h : a < s.inLen) : s.streamByte a = s.inMem.read a := by
  rw [State.streamByte, if_pos h]

/-- Two bytes set side by side. -/
theorem shiftLeft8_or (x : Nat) (b : Byte) : (x <<< 8) ||| b.toNat = x * 256 + b.toNat := by
  rw [← Nat.shiftLeft_add_eq_or_of_lt b.isLt, Nat.shiftLeft_eq]

/-- Four bytes set side by side, the first the most significant. -/
theorem four_bytes (a b c d : Byte) : (a.toNat <<< 24) ||| (b.toNat <<< 16) ||| (c.toNat <<< 8) ||| d.toNat
    = ((a.toNat * 256 + b.toNat) * 256 + c.toNat) * 256 + d.toNat := by
  rw [← shiftLeft8_or, ← shiftLeft8_or, ← shiftLeft8_or]
  simp only [Nat.shiftLeft_or_distrib, ← Nat.shiftLeft_add]

/-- The big-endian number of the `n` bytes of `IN` at an address. -/
theorem rdBe32_ok {s : State} (h : s.ip + 4 ≤ s.inLen) :
    rdBe32 s = .ok ((((s.streamByte s.ip).toNat * 256 + (s.streamByte (s.ip + 1)).toNat) * 256
      + (s.streamByte (s.ip + 2)).toNat) * 256 + (s.streamByte (s.ip + 3)).toNat) { s with ip := s.ip + 4 } := by
  rw [rdBe32, rdBytes_ok h, andThen_ok, four_bytes]
  simp only [inBytes_getD s s.ip 4 _ (show 0 < 4 by omega), inBytes_getD s s.ip 4 _ (show 1 < 4 by omega),
    inBytes_getD s s.ip 4 _ (show 2 < 4 by omega), inBytes_getD s s.ip 4 _ (show 3 < 4 by omega),
    streamByte_inside (show s.ip < s.inLen by omega), streamByte_inside (show s.ip + 1 < s.inLen by omega),
    streamByte_inside (show s.ip + 2 < s.inLen by omega), streamByte_inside (show s.ip + 3 < s.inLen by omega), Nat.add_zero]

theorem rdBe16_ok {s : State} (h : s.ip + 2 ≤ s.inLen) :
    rdBe16 s = .ok ((s.streamByte s.ip).toNat * 256 + (s.streamByte (s.ip + 1)).toNat) { s with ip := s.ip + 2 } := by
  rw [rdBe16, rdBytes_ok h, andThen_ok, shiftLeft8_or]
  simp only [inBytes_getD s s.ip 2 _ (show 0 < 2 by omega), inBytes_getD s s.ip 2 _ (show 1 < 2 by omega),
    streamByte_inside (show s.ip < s.inLen by omega), streamByte_inside (show s.ip + 1 < s.inLen by omega), Nat.add_zero]

theorem rdU8_ok {s : State} (h : s.ip + 1 ≤ s.inLen) :
    rdU8 s = .ok (s.streamByte s.ip).toNat { s with ip := s.ip + 1 } := by
  rw [rdU8, rdBytes_ok h, andThen_ok]
  simp only [inBytes_getD s s.ip 1 _ (show 0 < 1 by omega), streamByte_inside (show s.ip < s.inLen by omega), Nat.add_zero]

/-! ### Elements of bits (rules R64 to R66) -/

theorem rdLengths_eq (n : Nat) {s : State} (h : s.Reads) :
    rdLengths n s = ((List.range n).map fun i => BitVec.ofNat 4 (s.streamField (4 * i) 4), s.afterBits (4 * n)) := by
  induction n generalizing s with
  | zero => simp [rdLengths, afterBits_zero h]
  | succ n ih =>
    simp only [rdLengths, rdBits_eq h (show Config.lenW ≤ 16 by decide), ih (afterBits_reads h _)]
    rw [afterBits_afterBits h, List.range_succ_eq_map, show Config.lenW + 4 * n = 4 * (n + 1) by simp [Config.lenW]; omega]
    simp only [List.map_cons, List.map_map, afterBits_streamField h]
    congr 3
    funext i
    simp only [Function.comp_apply, Nat.succ_eq_add_one]
    rw [show Config.lenW + 4 * i = 4 * (i + 1) by simp [Config.lenW]; omega]

theorem takeDescriptor_eq (count : Nat) {s : State} (h : s.Reads) :
    takeDescriptor count s = s.afterBits (5 + 4 * min count 16) := by
  rw [takeDescriptor, rdBits_eq h (by decide), rdLengths_eq _ (afterBits_reads h _)]
  exact afterBits_afterBits h _ _

theorem slot_depth_lt (t : Slot) : t.depth.toNat ≤ 15 := by
  have := t.depth.isLt
  omega

theorem takeValue_eq (r : Role) {k : Nat} (hk : k < 16) {s : State} (h : s.Reads) :
    takeValue r k s = s.afterBits (s.valueBits r k) := by
  have hd := slot_depth_lt (s.slot r k)
  unfold takeValue State.valueBits
  change (if k < 2 then (rdBits (s.slot r k).depth.toNat s).2
    else (rdBits (k - 1) (rdBits (s.slot r k).depth.toNat s).2).2) = _
  rw [rdBits_eq h (by omega)]
  split
  · rw [show k - 1 = 0 by omega, Nat.add_zero]
  · rw [rdBits_eq (afterBits_reads h _) (by omega)]
    exact afterBits_afterBits h _ _

theorem slotValue_eq {k e : Nat} (he : e < 2 ^ (k - 1)) : slotValue k e = if k < 2 then k else 2 ^ (k - 1) + e := by
  unfold slotValue
  split
  · rfl
  · rw [Nat.or_comm, ← Nat.shiftLeft_add_eq_or_of_lt he, Nat.shiftLeft_eq, Nat.one_mul]

theorem formVal_eq {k : Nat} (hk : k < 16) {s : State} (h : s.Reads) :
    formVal k s = (if k < 2 then k else 2 ^ (k - 1) + s.streamField 0 (k - 1), s.afterBits (k - 1)) := by
  unfold formVal
  split
  · rw [show k - 1 = 0 by omega, afterBits_zero h]
  · rw [rdBits_eq h (by omega), slotValue_eq (streamField_lt ..), if_neg (by omega)]

/-! ### The scan (rule R125) -/

theorem scanSlots_eq (p : Nat) (l : List Slot) (k : Nat) :
    scanSlots p l k = ((List.range l.length).find? fun i => slotMatches p (l.getD i unusedSlot)).map
      fun i => (k + i, (l.getD i unusedSlot).depth.toNat) := by
  induction l generalizing k with
  | nil => rfl
  | cons t ts ih =>
    rw [scanSlots, ih, List.length_cons, List.range_succ_eq_map, List.find?_cons]
    cases hm : slotMatches p t
    · simp only [List.getD_cons_zero, hm, Bool.false_eq_true, if_false, List.find?_map, Option.map_map]
      congr 1
      funext i
      simp only [Function.comp_apply, Nat.succ_eq_add_one, List.getD_cons_succ]
      rw [show k + 1 + i = k + (i + 1) by omega]
    · simp [hm]

/-- Any number that agrees with the stream on its low 15 bits finds the slot that stands next. -/
theorem scanSlots_stream {s : State} (r : Role) {p : Nat} (hp : ∀ d, d ≤ 15 → p &&& mask d = s.streamField 0 d) :
    scanSlots p (s.tabs.get r).toList 0 = (s.matchedSlot r).map fun k => (k, (s.slot r k).depth.toNat) := by
  rw [scanSlots_eq, State.matchedSlot, Vector.length_toList]
  have hf : (fun i => slotMatches p ((s.tabs.get r).toList.getD i unusedSlot)) = fun i =>
      decide ((s.slot r i).depth ≠ 0) && decide (s.streamField 0 (s.slot r i).depth.toNat = (s.slot r i).code.toNat) := by
    funext i
    unfold slotMatches
    change ((s.slot r i).depth != 0 && (p &&& mask (s.slot r i).depth.toNat) == (s.slot r i).code.toNat) = _
    rw [hp _ (slot_depth_lt _), Bool.eq_iff_iff]
    simp
  rw [hf]
  simp only [Nat.zero_add]
  rfl

theorem matchedSlot_lt {s : State} {r : Role} {k : Nat} (h : s.matchedSlot r = some k) : k < 16 :=
  List.mem_range.1 (List.mem_of_find?_eq_some h)

/-- The slot that stands next is used, and its code is the next bits. -/
theorem matchedSlot_matches {s : State} {r : Role} {k : Nat} (h : s.matchedSlot r = some k) :
    (s.slot r k).depth ≠ 0 ∧ s.streamField 0 (s.slot r k).depth.toNat = (s.slot r k).code.toNat := by
  have := List.find?_some h
  simpa using this

/-- `DECVAL` when a slot matches: the value, and exactly the bits of the `VAL` consumed. -/
theorem decVal_ok {s : State} (h : s.Reads) {r : Role} {k : Nat} (hk : s.matchedSlot r = some k) :
    decVal r s = .ok (s.valueOf r k) (s.afterBits (s.valueBits r k)) := by
  have hd := slot_depth_lt (s.slot r k)
  rw [decVal, scanSlots_stream r fun d hd => peek_low h (by omega), hk]
  simp only [Option.map_some]
  rw [rdBits_eq h (by omega), formVal_eq (matchedSlot_lt hk) (afterBits_reads h _), afterBits_afterBits h,
    afterBits_streamField h]
  rfl

/-- `DECVAL` when none matches: `NoMatch`, and nothing consumed (rule R127). -/
theorem decVal_noMatch {s : State} (h : s.Reads) {r : Role} (hk : s.matchedSlot r = none) :
    decVal r s = raise .noMatch s := by
  rw [decVal, scanSlots_stream r fun d hd => peek_low h (by omega), hk]
  rfl

theorem valueOf_le {s : State} {r : Role} {k : Nat} (hk : k < 16) : s.valueOf r k ≤ 32767 := by
  have h1 := streamField_lt s (s.slot r k).depth.toNat (k - 1)
  have h2 : 2 ^ (k - 1) ≤ 2 ^ 14 := Nat.pow_le_pow_right (by omega) (by omega)
  unfold State.valueOf
  split <;> omega

/-! ### Copies (rules R136, R139) -/

theorem overCap_iff (n : Nat) (s : State) : overCap n s = false ↔ s.fits n := by
  unfold overCap State.fits
  cases s.outCap with
  | none => simp
  | some cap => simp

theorem copyLiteral_eq (n : Nat) (s : State) : copyLiteral n s = s.afterLiteral n := by
  induction n generalizing s with
  | zero => rfl
  | succ n ih =>
    have hb : s.inBytes s.ip (n + 1) = s.inMem.read s.ip :: s.inBytes (s.ip + 1) n := by
      simp only [State.inBytes, List.range_succ_eq_map, List.map_cons, List.map_map, Nat.add_zero]
      congr 2
      funext j
      simp only [Function.comp_apply, Nat.succ_eq_add_one]
      rw [show s.ip + (j + 1) = s.ip + 1 + j by omega]
    rw [copyLiteral, ih]
    unfold State.afterLiteral State.appended
    rw [hb]
    simp only [appendOut_inMem, appendOut_out, appendOut_olen, Memory.putAll, List.length_cons, State.inBytes]
    simp only [List.length_map, List.length_range]
    rw [show s.olen + 1 + n = s.olen + (n + 1) by omega, show s.ip + 1 + n = s.ip + (n + 1) by omega]
    rfl

/-- The loop of `CPYMATCH` from iteration `j` on, where `olen = L0 + j` and the last `d + j` bytes are periodic. -/
theorem copyMatch_from {s0 : State} {d : Nat} (hd : 1 ≤ d) (hle : d ≤ s0.olen) (n j : Nat) {s : State} (wf : s.out.wf)
    (hlen : s.olen = s0.olen + j)
    (hper : ∀ i, i < d + j → s.out.read (s0.olen - d + i) = s0.out.read (s0.olen - d + i % d)) :
    copyMatch s0.olen d n j s
      = s.appended ((List.range n).map fun i => s0.out.read (s0.olen - d + (j + i) % d)) := by
  induction n generalizing j s with
  | zero => rfl
  | succ n ih =>
    have hread : s.out.read (s0.olen - d + j) = s0.out.read (s0.olen - d + j % d) := hper j (by omega)
    rw [copyMatch, ih (j + 1) (s := appendOut (s.out.read (s0.olen - d + j)) s) (Memory.wf_write wf _ _)
      (by simp [hlen]; omega) ?_]
    · unfold State.appended
      simp only [appendOut_out, appendOut_olen, List.range_succ_eq_map, List.map_cons, List.map_map, Memory.putAll,
        Nat.add_zero, List.length_cons, List.length_map, List.length_range, hread]
      have hf : (fun i => s0.out.read (s0.olen - d + (j + 1 + i) % d))
          = (fun i => s0.out.read (s0.olen - d + (j + i) % d)) ∘ Nat.succ := by
        funext i
        simp only [Function.comp_apply, Nat.succ_eq_add_one]
        rw [show j + 1 + i = j + (i + 1) by omega]
      rw [hf, show s.olen + 1 + n = s.olen + (n + 1) by omega]
      rfl
    · intro i hi
      simp only [appendOut_out]
      by_cases hij : i = d + j
      · subst hij
        rw [show s0.olen - d + (d + j) = s.olen by omega, Memory.read_write_same wf, hread, Nat.add_mod_left]
      · rw [Memory.read_write_other wf _ (by omega)]
        exact hper i (by omega)

/-- The loop of `CPYMATCH`: the last `d` bytes of the output repeated (rule R139). -/
theorem copyMatch_eq {s : State} {d : Nat} (c : Nat) (hd : 1 ≤ d) (hle : d ≤ s.olen) (wf : s.out.wf) :
    copyMatch s.olen d c 0 s = s.appended (s.matchBytes d c) := by
  rw [copyMatch_from hd hle c 0 wf (by simp) (fun i hi => by rw [Nat.mod_eq_of_lt (by omega)])]
  simp [State.matchBytes]

theorem cpyLit_ok {s : State} {n : Nat} (h : s.ip + n ≤ s.inLen) (hf : s.fits n) :
    cpyLit n s = .ok () (s.afterLiteral n) := by
  rw [cpyLit, if_neg (by omega), (overCap_iff n s).2 hf, copyLiteral_eq]
  rfl

theorem cpyLit_short {s : State} {n : Nat} (h : s.inLen < s.ip + n) : cpyLit n s = raise .truncated s := by
  rw [cpyLit, if_pos (by omega)]

theorem overCap_of_not_fits {s : State} {n : Nat} (h : ¬ s.fits n) : overCap n s = true := by
  cases hb : overCap n s
  · exact absurd ((overCap_iff n s).1 hb) h
  · rfl

theorem cpyLit_full {s : State} {n : Nat} (h : s.ip + n ≤ s.inLen) (hf : ¬ s.fits n) :
    cpyLit n s = raise .outputOverflow s := by
  rw [cpyLit, if_neg (by omega), if_pos (overCap_of_not_fits hf)]

theorem cpyMatch_ok {s : State} {d c : Nat} (hd : 1 ≤ d) (hle : d ≤ s.olen) (hf : s.fits c) (wf : s.out.wf) :
    cpyMatch d c s = .ok () (s.appended (s.matchBytes d c)) := by
  rw [cpyMatch, if_neg (by omega), (overCap_iff c s).2 hf, copyMatch_eq c hd hle wf]
  rfl

theorem cpyMatch_far {s : State} {d c : Nat} (h : s.olen < d) : cpyMatch d c s = raise .badDistance s := by
  rw [cpyMatch, if_pos (by omega)]

theorem cpyMatch_full {s : State} {d c : Nat} (h : d ≤ s.olen) (hf : ¬ s.fits c) :
    cpyMatch d c s = raise .outputOverflow s := by
  rw [cpyMatch, if_neg (by omega), if_pos (overCap_of_not_fits hf)]

/-! ### The builder on the stream (rule R118) -/

theorem huftab_eq (r : Role) {s : State} (h : s.Reads) : huftab r s = s.afterDescriptor r := by
  unfold huftab State.afterDescriptor State.descriptorLengths
  simp only [rdBits_eq h (show Config.cntW ≤ 16 by decide), rdLengths_eq _ (afterBits_reads h _),
    afterBits_streamField h, afterBits_afterBits h]
  rfl

/-- The length fields of a number are its 4-bit fields. -/
theorem lengthFields_eq (n E : Nat) :
    lengthFields n E = (List.range n).map fun i => BitVec.ofNat 4 (bitField E (4 * i) 4) := by
  induction n generalizing E with
  | zero => rfl
  | succ n ih =>
    rw [lengthFields, ih, List.range_succ_eq_map]
    simp only [List.map_cons, List.map_map, bitField, Nat.mul_zero, Nat.shiftRight_zero]
    congr 1
    · apply BitVec.eq_of_toNat_eq
      rw [BitVec.toNat_ofNat, BitVec.toNat_ofNat, mask, Nat.and_two_pow_sub_one_eq_mod, Nat.mod_mod]
    · congr 1
      funext i
      simp only [Function.comp_apply, Nat.succ_eq_add_one, ← Nat.shiftRight_add]
      rw [show Config.lenW + 4 * i = 4 * (i + 1) by simp [Config.lenW]; omega]

/-- At a table position the decoder reads the descriptor at the head of the stream. -/
theorem decodeHuftab_stream {s : State} (h : s.Queue) (r : Role) :
    decodeHuftab r (lookahead 5 s) = huftabInstr r (s.streamField 0 5) s.descriptorLengths := by
  unfold decodeHuftab State.descriptorLengths
  rw [bitField_lookahead h (by decide), lengthFields_eq]
  congr 1
  apply List.map_congr_left
  intro i hi
  have hi' := List.mem_range.1 hi
  have : i < 16 := lt_of_lt_of_le hi' (Nat.min_le_right _ _)
  rw [← bitField_lookahead h (show 5 + 4 * i + 4 ≤ 80 by omega), bitField, bitField, ← Nat.shiftRight_add]

end Sys2Proof.Machine
end

