-- ==== Sys2Proof/Laws/Huffman.lean ====
section
/-! SUPPORT. The table builder in closed form: what `MIRROR` and the canonical passes compute
(41_huffman_table_builder.md rules R111 to R113). -/

namespace Sys2Proof.Machine

/-- Bit `i` of the mirror is bit `w - 1 - i` of the code (rule R112). -/
theorem mirror_testBit (c w i : Nat) : (mirror c w).testBit i = (decide (i < w) && c.testBit (w - 1 - i)) := by
  induction w generalizing i with
  | zero => simp [mirror]
  | succ w ih =>
    rw [mirror, Nat.testBit_or, Nat.testBit_shiftLeft]
    cases i with
    | zero =>
      simp [Nat.testBit, Nat.shiftRight_eq_div_pow]
    | succ i =>
      have hz : ((c >>> w) % 2).testBit (i + 1) = false :=
        Nat.testBit_lt_two_pow (lt_of_lt_of_le (Nat.mod_lt _ (by omega)) (by rw [pow_succ]; have := Nat.one_le_two_pow (n := i); omega))
      rw [hz, Nat.add_sub_cancel, ih, show w + 1 - 1 - (i + 1) = w - 1 - i by omega]
      simp

theorem mirror_lt (c w : Nat) : mirror c w < 2 ^ w :=
  Nat.lt_pow_two_of_testBit _ fun i hi => by rw [mirror_testBit]; simp [show ¬ i < w by omega]

/-! ### One pass -/

/-- Slots of a length among the first `i`. -/
def passRank (len : Nat) (ps : List (Nat × Nat)) (i : Nat) : Nat := (ps.take i).countP fun p => p.1 = len

theorem codePass_length (len : Nat) (ps : List (Nat × Nat)) (n : Nat) :
    (codePass len ps n).1.length = ps.length := by
  induction ps generalizing n with
  | nil => rfl
  | cons p ps ih =>
    rw [codePass]
    split <;> simp [ih]

theorem codePass_counter (len : Nat) (ps : List (Nat × Nat)) (n : Nat) :
    (codePass len ps n).2 = n + passRank len ps ps.length := by
  induction ps generalizing n with
  | nil => rfl
  | cons p ps ih =>
    rw [codePass]
    simp only [passRank, List.take_length] at ih ⊢
    rw [List.countP_cons]
    split <;> rename_i h
    · rw [ih]
      simp [h]
      omega
    · rw [ih]
      simp [h]

/-- A pass writes the slots of its length, in slot order, and no other. -/
theorem codePass_getD (len : Nat) (ps : List (Nat × Nat)) (n i : Nat) (hi : i < ps.length) :
    (codePass len ps n).1.getD i (0, 0)
      = if (ps.getD i (0, 0)).1 = len then (len, n + passRank len ps i) else ps.getD i (0, 0) := by
  induction ps generalizing n i with
  | nil => simp at hi
  | cons p ps ih =>
    obtain ⟨l, c⟩ := p
    rw [codePass]
    cases i with
    | zero =>
      by_cases h : l = len
      · simp [h, passRank]
      · simp [h]
    | succ i =>
      have hi' : i < ps.length := by simpa using hi
      by_cases h : l = len
      · simp only [h, if_true, List.getD_cons_succ]
        rw [ih _ _ hi']
        simp only [passRank, List.take_succ_cons, List.countP_cons, decide_true, if_true]
        rw [show n + 1 + List.countP (fun p => decide (p.1 = len)) (List.take i ps)
          = n + (List.countP (fun p => decide (p.1 = len)) (List.take i ps) + 1) by omega]
      · simp only [h, if_false, List.getD_cons_succ]
        rw [ih _ _ hi']
        simp only [passRank, List.take_succ_cons, List.countP_cons, h, decide_false, Bool.false_eq_true, if_false, Nat.add_zero]

/-! ### All passes -/

/-- The pairs a build works on: sixteen, each with the length of its slot. -/
def pairsOf (lens : List (BitVec 4)) (ps : List (Nat × Nat)) : Prop :=
  ps.length = 16 ∧ ∀ i, i < 16 → (ps.getD i (0, 0)).1 = lengthAt lens i

theorem passRank_eq {lens : List (BitVec 4)} {ps : List (Nat × Nat)} (h : pairsOf lens ps) (len : Nat) {i : Nat}
    (hi : i ≤ 16) : passRank len ps i = slotsOfLength lens len i := by
  induction i with
  | zero => rfl
  | succ i ih =>
    have hlt : i < ps.length := by rw [h.1]; omega
    have hl := h.2 i (by omega)
    simp only [List.getD, List.getElem?_eq_getElem hlt, Option.getD_some] at hl
    rw [slotsOfLength, ← ih (by omega), passRank, passRank, List.take_succ_eq_append_getElem hlt, List.countP_append]
    simp [List.countP_cons, hl]

theorem pairsOf_codePass {lens : List (BitVec 4)} {ps : List (Nat × Nat)} (h : pairsOf lens ps) (len n : Nat) :
    pairsOf lens (codePass len ps n).1 := by
  refine ⟨by rw [codePass_length, h.1], fun i hi => ?_⟩
  rw [codePass_getD len ps n i (by rw [h.1]; exact hi)]
  have := h.2 i hi
  split
  · omega
  · exact this

theorem codePasses_getD {lens : List (BitVec 4)} (m a : Nat) (ha : 1 ≤ a) {ps : List (Nat × Nat)}
    (h : pairsOf lens ps) {i : Nat} (hi : i < 16) :
    (codePasses (List.range' a m) ps (firstCode lens a)).getD i (0, 0)
      = if a ≤ lengthAt lens i ∧ lengthAt lens i < a + m then (lengthAt lens i, canonicalCode lens i)
        else ps.getD i (0, 0) := by
  induction m generalizing a ps with
  | zero => rw [if_neg (by omega)]; rfl
  | succ m ih =>
    have hnext : (codePass a ps (firstCode lens a)).2 <<< 1 = firstCode lens (a + 1) := by
      rw [codePass_counter, h.1, passRank_eq h a (le_refl _), firstCode, if_neg (by omega), Nat.shiftLeft_eq]
      omega
    rw [List.range'_succ, codePasses, hnext, ih (a + 1) (by omega) (pairsOf_codePass h _ _),
      codePass_getD _ _ _ _ (by rw [h.1]; exact hi), h.2 i hi, passRank_eq h a (by omega)]
    by_cases h1 : lengthAt lens i = a
    · rw [if_neg (by omega), if_pos h1, if_pos (by omega), canonicalCode, h1]
    · rw [if_neg h1]
      by_cases h2 : a + 1 ≤ lengthAt lens i ∧ lengthAt lens i < a + 1 + m
      · rw [if_pos h2, if_pos (by omega)]
      · rw [if_neg h2, if_neg (by omega)]

theorem lengthAt_le (lens : List (BitVec 4)) (i : Nat) : lengthAt lens i ≤ 15 := by
  have := (lens.getD i 0).isLt
  unfold lengthAt
  omega

/-- The sixteen pairs the canonical passes leave (rule R111). -/
theorem canonicalCodes_getD (lens : List (BitVec 4)) {i : Nat} (hi : i < 16) :
    (canonicalCodes (sixteenLengths lens)).getD i (0, 0)
      = (lengthAt lens i, if lengthAt lens i = 0 then 0 else canonicalCode lens i) := by
  have hp : pairsOf lens ((sixteenLengths lens).map fun l => (l, 0)) := by
    refine ⟨by simp [sixteenLengths], fun j hj => ?_⟩
    simp [sixteenLengths, List.getD, hj, lengthAt]
  have hb := lengthAt_le lens i
  have := codePasses_getD 16 1 (by omega) hp hi
  rw [show firstCode lens 1 = 0 from rfl] at this
  rw [canonicalCodes, this]
  by_cases h0 : lengthAt lens i = 0
  · rw [if_neg (by omega), if_pos h0, h0]
    have h0' : (lens.getD i 0).toNat = 0 := h0
    simp [sixteenLengths, List.getD, hi] at h0' ⊢
    exact h0'
  · rw [if_pos (by omega), if_neg h0]

/-- A slot of a built table (rule R113). -/
theorem buildTable_slot (lens : List (BitVec 4)) (i : Fin 16) :
    (buildTable lens)[i] = if lengthAt lens i = 0 then unusedSlot
      else ⟨lens.getD i 0, BitVec.ofNat 16 (mirror (canonicalCode lens i) (lengthAt lens i))⟩ := by
  have hg : (buildTable lens)[i]
      = storedSlot ((canonicalCodes (sixteenLengths lens)).getD i.val (0, 0)) := by
    simp [buildTable]
  rw [hg, canonicalCodes_getD lens i.isLt, storedSlot]
  split
  · rfl
  · simp only [lengthAt, BitVec.ofNat_toNat, BitVec.setWidth_eq]

/-- The depth of a built slot is the length the descriptor gives it. -/
theorem buildTable_depth (lens : List (BitVec 4)) (i : Fin 16) : (buildTable lens)[i].depth = lens.getD i 0 := by
  rw [buildTable_slot]
  split
  · rename_i h
    apply BitVec.eq_of_toNat_eq
    exact h.symm
  · rfl

/-- The stored code of a used slot is the mirror of its canonical code. -/
theorem buildTable_code (lens : List (BitVec 4)) (i : Fin 16) (h : lengthAt lens i ≠ 0) :
    (buildTable lens)[i].code.toNat = mirror (canonicalCode lens i) (lengthAt lens i) := by
  have h1 := mirror_lt (canonicalCode lens i) (lengthAt lens i)
  have h2 : 2 ^ lengthAt lens i ≤ 2 ^ 15 := Nat.pow_le_pow_right (by omega) (lengthAt_le ..)
  rw [buildTable_slot, if_neg h]
  simp only [BitVec.toNat_ofNat]
  omega

/-- Every stored code fits its depth (10_state.md rule R25 d). -/
theorem buildTable_fits (lens : List (BitVec 4)) (i : Fin 16) :
    (buildTable lens)[i].code.toNat < 2 ^ (buildTable lens)[i].depth.toNat := by
  rw [buildTable_depth]
  by_cases h : lengthAt lens i = 0
  · rw [buildTable_slot, if_pos h]
    simp [unusedSlot]
  · rw [buildTable_code lens i h]
    exact mirror_lt _ _

end Sys2Proof.Machine
end

