-- ==== Sys2Proof/Laws/Sequencer.lean ====
section
/-! SUPPORT. The header, the tails of the steps, and what the step fetches at each position
(44_sequencer.md rules R151 to R157). -/

namespace Sys2Proof.Machine

theorem failedWith_eq (s : State) (e : Error) : s.failedWith e = errorEntry e s := rfl

theorem be16At_lt (s : State) (a : Nat) : s.be16At a < 2 ^ 16 := by
  have h1 := (s.streamByte a).isLt
  have h2 := (s.streamByte (a + 1)).isLt
  unfold State.be16At
  omega

theorem be32At_lt (s : State) (a : Nat) : s.be32At a < 2 ^ 32 := by
  have h1 := be16At_lt s a
  have h2 := be16At_lt s (a + 2)
  unfold State.be32At
  omega

/-- The four bytes of the signature as a number. -/
theorem signature_eq {s : State} (h : s.ip + 4 ≤ s.inLen) :
    (((s.inBytes s.ip 4).getD 0 0).toNat <<< 24) ||| (((s.inBytes s.ip 4).getD 1 0).toNat <<< 16)
      ||| (((s.inBytes s.ip 4).getD 2 0).toNat <<< 8) ||| ((s.inBytes s.ip 4).getD 3 0).toNat = s.be32At s.ip := by
  rw [four_bytes, inBytes_getD s s.ip 4 _ (show 0 < 4 by omega), inBytes_getD s s.ip 4 _ (show 1 < 4 by omega),
    inBytes_getD s s.ip 4 _ (show 2 < 4 by omega), inBytes_getD s s.ip 4 _ (show 3 < 4 by omega), Nat.add_zero,
    ← streamByte_inside (show s.ip < s.inLen by omega), ← streamByte_inside (show s.ip + 1 < s.inLen by omega),
    ← streamByte_inside (show s.ip + 2 < s.inLen by omega), ← streamByte_inside (show s.ip + 3 < s.inLen by omega)]
  unfold State.be32At State.be16At
  ring

theorem hdrSignature_read {s : State} (h : s.ip + 4 ≤ s.inLen) :
    hdrSignature s = if s.be32At s.ip ≠ 0x524E4301 then raise .badSignature s.afterSignature else .ok () s.afterSignature := by
  rw [hdrSignature, rdBytes_ok h, andThen_ok]
  simp only [signature_eq h]
  rfl

theorem hdrGate_none {s : State} (h : s.inLen < s.ip + 4) : hdrGate s = raise .truncated s := by
  rw [hdrGate, hdrSignature, rdBytes_short h]
  rfl

theorem hdrGate_badSignature {s : State} (h : s.ip + 4 ≤ s.inLen) (hs : s.be32At s.ip ≠ 0x524E4301) :
    hdrGate s = raise .badSignature s.afterSignature := by
  rw [hdrGate, hdrSignature_read h, if_pos hs, andThen_raise]

theorem hdrGate_short {s : State} (h : s.ip + 4 ≤ s.inLen) (hs : s.be32At s.ip = 0x524E4301) (h' : s.inLen < s.ip + 18) :
    hdrGate s = raise .truncated s.afterSignature := by
  rw [hdrGate, hdrSignature_read h, if_neg (by simp [hs]), andThen_ok, if_pos]
  show s.ip + 4 + 14 > s.inLen
  omega

theorem hdrGate_ok {s : State} (h : s.headerOk) : hdrGate s = .ok () s.afterSignature := by
  have h1 := h.1
  rw [hdrGate, hdrSignature_read (by omega), if_neg (by simp [h.2]), andThen_ok, if_neg]
  show ¬ s.ip + 4 + 14 > s.inLen
  omega

/-- The three multi-byte reads by what they return (rules R91 to R93). -/
theorem rdBe32_at {s : State} (h : s.ip + 4 ≤ s.inLen) : rdBe32 s = .ok (s.be32At s.ip) { s with ip := s.ip + 4 } := by
  have e : ((((s.streamByte s.ip).toNat * 256 + (s.streamByte (s.ip + 1)).toNat) * 256
      + (s.streamByte (s.ip + 2)).toNat) * 256 + (s.streamByte (s.ip + 3)).toNat) = s.be32At s.ip := by
    unfold State.be32At State.be16At
    ring
  rw [rdBe32_ok h, e]

theorem rdBe16_at {s : State} (h : s.ip + 2 ≤ s.inLen) : rdBe16 s = .ok (s.be16At s.ip) { s with ip := s.ip + 2 } :=
  rdBe16_ok h

/-- What follows the gate of `HDR()`, from a cursor with 14 bytes after it (rule R151). -/
theorem hdrFields_ok {t : State} (h : t.ip + 14 ≤ t.inLen) :
    ((rdBe32 t).andThen fun u s =>
      (rdBe32 { s with hUlen := BitVec.ofNat 32 u }).andThen fun p s =>
      (rdBe16 { s with hPlen := BitVec.ofNat 32 p }).andThen fun c s =>
      (rdBe16 { s with hCrc1 := BitVec.ofNat 16 c }).andThen fun k s =>
      (rdU8 { s with hCrc2 := BitVec.ofNat 16 k }).andThen fun m s =>
      (rdU8 { s with hMargin := BitVec.ofNat 8 m }).andThen fun b s =>
        Res.ok () { s with hBlocks := BitVec.ofNat 8 b })
      = .ok () { t with
          ip := t.ip + 14
          hUlen := BitVec.ofNat 32 (t.be32At t.ip)
          hPlen := BitVec.ofNat 32 (t.be32At (t.ip + 4))
          hCrc1 := BitVec.ofNat 16 (t.be16At (t.ip + 8))
          hCrc2 := BitVec.ofNat 16 (t.be16At (t.ip + 10))
          hMargin := BitVec.ofNat 8 (t.streamByte (t.ip + 12)).toNat
          hBlocks := BitVec.ofNat 8 (t.streamByte (t.ip + 13)).toNat } := by
  rw [rdBe32_at (by omega), andThen_ok, rdBe32_at (by simp only; omega), andThen_ok,
    rdBe16_at (by simp only; omega), andThen_ok, rdBe16_at (by simp only; omega), andThen_ok,
    rdU8_ok (by simp only; omega), andThen_ok, rdU8_ok (by simp only; omega), andThen_ok]
  rfl

theorem afterHeader_eq {s : State} (h : s.headerOk) :
    s.afterHeader = { s.afterSignature with
      ip := s.afterSignature.ip + 14
      hUlen := BitVec.ofNat 32 (s.afterSignature.be32At s.afterSignature.ip)
      hPlen := BitVec.ofNat 32 (s.afterSignature.be32At (s.afterSignature.ip + 4))
      hCrc1 := BitVec.ofNat 16 (s.afterSignature.be16At (s.afterSignature.ip + 8))
      hCrc2 := BitVec.ofNat 16 (s.afterSignature.be16At (s.afterSignature.ip + 10))
      hMargin := BitVec.ofNat 8 (s.afterSignature.streamByte (s.afterSignature.ip + 12)).toNat
      hBlocks := BitVec.ofNat 8 (s.afterSignature.streamByte (s.afterSignature.ip + 13)).toNat } := by
  rw [BitVec.ofNat_toNat, BitVec.setWidth_eq, BitVec.ofNat_toNat, BitVec.setWidth_eq]
  unfold State.afterHeader State.afterSignature
  rw [h.2]
  rfl

/-- `HDR()` on a good header (rule R151). -/
theorem hdr_ok {s : State} (h : s.headerOk) : hdr s = .ok () s.afterHeader := by
  rw [hdr, hdrGate_ok h, andThen_ok, hdrFields_ok (t := s.afterSignature) (by have := h.1; simp only [State.afterSignature]; omega),
    afterHeader_eq h]

theorem endBlock_eq (s : State) : endBlock s = s.blockEnded := by
  unfold endBlock State.blockEnded
  split <;> rfl

end Sys2Proof.Machine
end

