-- ==== Sys2Proof/Laws/Step.lean ====
section
/-! SUPPORT. What is read of the stream does not depend on the model's own marks (`elem`, `ret`), what a descriptor and a
`VAL` come to as instructions, and what the decoder sees at a `VAL`. -/

namespace Sys2Proof.Machine

theorem streamField_marks (s : State) (e : Elem) (v : Result) (lo n : Nat) :
    ({ s with elem := e, ret := v } : State).streamField lo n = s.streamField lo n :=
  streamField_congr fun _ _ => rfl

theorem afterBits_marks (s : State) (e : Elem) (v : Result) (n : Nat) :
    ({ s with elem := e, ret := v } : State).afterBits n = { s.afterBits n with elem := e, ret := v } := by
  unfold State.afterBits
  simp only [streamField_marks]
  rfl

theorem afterDescriptor_marks (s : State) (e : Elem) (v : Result) (r : Role) :
    ({ s with elem := e, ret := v } : State).afterDescriptor r = { s.afterDescriptor r with elem := e, ret := v } := by
  unfold State.afterDescriptor State.descriptorLengths
  simp only [streamField_marks, afterBits_marks]

theorem matchedSlot_marks (s : State) (e : Elem) (v : Result) (r : Role) :
    ({ s with elem := e, ret := v } : State).matchedSlot r = s.matchedSlot r := by
  unfold State.matchedSlot State.slot
  simp only [streamField_marks]

theorem valueOf_marks (s : State) (e : Elem) (v : Result) (r : Role) (k : Nat) :
    ({ s with elem := e, ret := v } : State).valueOf r k = s.valueOf r k := by
  unfold State.valueOf State.slot
  simp only [streamField_marks]

theorem tables_get_set (T : Tables) (r r' : Role) (t : Table) :
    (T.set r t).get r' = if r' = r then t else T.get r' := by
  cases r <;> cases r' <;> rfl

theorem afterDescriptor_reads {s : State} (h : s.Reads) (r : Role) : (s.afterDescriptor r).Reads := by
  have hb := afterBits_reads h (5 + 4 * min (s.streamField 0 5) 16)
  exact ⟨hb.cursor, hb.queueVal, hb.queueCnt⟩

theorem descriptorLengths_length (s : State) : s.descriptorLengths.length = min (s.streamField 0 5) 16 := by
  simp [State.descriptorLengths]

/-- Every form of `HUFTAB` is the one shared operation, with its own count. -/
theorem exec_huftabInstr (s : State) (r : Role) (count : Nat) (lens : List (BitVec 4)) (hc : count ≤ 31)
    (hl : lens.length = min count 16) : exec (huftabInstr r count lens) s = huftabForm count r lens s :=
  match count, hc, hl with
  | 0, _, hl => by
    have h0 : lens = [] := List.length_eq_zero_iff.1 hl
    subst h0
    rfl
  | 1, _, _ => rfl
  | 2, _, _ => rfl
  | 3, _, _ => rfl
  | 4, _, _ => rfl
  | 5, _, _ => rfl
  | 6, _, _ => rfl
  | 7, _, _ => rfl
  | 8, _, _ => rfl
  | 9, _, _ => rfl
  | 10, _, _ => rfl
  | 11, _, _ => rfl
  | 12, _, _ => rfl
  | 13, _, _ => rfl
  | 14, _, _ => rfl
  | 15, _, _ => rfl
  | 16, _, _ => rfl
  | 17, _, _ => rfl
  | 18, _, _ => rfl
  | 19, _, _ => rfl
  | 20, _, _ => rfl
  | 21, _, _ => rfl
  | 22, _, _ => rfl
  | 23, _, _ => rfl
  | 24, _, _ => rfl
  | 25, _, _ => rfl
  | 26, _, _ => rfl
  | 27, _, _ => rfl
  | 28, _, _ => rfl
  | 29, _, _ => rfl
  | 30, _, _ => rfl
  | 31, _, _ => rfl
  | n + 32, hc, _ => absurd hc (by omega)

/-- Every class of `VAL` is the one shared operation, with its own index. -/
theorem exec_valInstr (s : State) (r : Role) {k e : Nat} (hk : k < 16) (he : e < 2 ^ (k - 1)) :
    exec (valInstr r k e) s = valForm k r e s := by
  interval_cases k
  · have h0 : e = 0 := by omega
    subst h0
    rfl
  · have h0 : e = 0 := by omega
    subst h0
    rfl
  all_goals
    simp only [valInstr, exec, execVal2, execVal3, execVal4, execVal5, execVal6, execVal7, execVal8, execVal9, execVal10,
      execVal11, execVal12, execVal13, execVal14, execVal15, BitVec.toNat_ofNat]
    rw [Nat.mod_eq_of_lt he]

/-- The shared operation of the classes (rule R128). -/
theorem valForm_eq {s : State} (h : s.Reads) (r : Role) {k e : Nat} (hk : k < 16) (he : e < 2 ^ (k - 1)) :
    valForm k r e s = .next (s.valued r k (if k < 2 then k else 2 ^ (k - 1) + e)) := by
  simp only [valForm, takeValue_eq r hk h, slotValue_eq he]
  rfl

/-- What the decoder reads at a `VAL`, in terms of the stream (rules R66, R69). -/
theorem decodeVal_stream {s : State} (h : s.Reads) (r : Role) :
    decodeVal r (s.tabs.get r) (lookahead 5 s) = match s.matchedSlot r with
      | none => .reject .noMatch
      | some k => .instr (valInstr r k (s.streamField (s.slot r k).depth.toNat (k - 1))) := by
  unfold decodeVal
  rw [scanSlots_stream (s := s) r (p := bitField (lookahead 5 s) 0 16)]
  · cases hk : s.matchedSlot r with
    | none => rfl
    | some k =>
      have hk16 := matchedSlot_lt hk
      have hd := slot_depth_lt (s.slot r k)
      simp only [Option.map]
      rw [bitField_lookahead h.queue (by omega)]
  · intro d hd
    rw [bitField_lookahead h.queue (by omega)]
    have hs := streamField_shift s 0 0 16 d (by omega)
    simpa using hs

end Sys2Proof.Machine
end

