-- ==== Sys2Proof/Laws/PerInstr.lean ====
section
/-! SUPPORT. The family of lemmas made per constructor of Instr: the encoding of a well-formed instruction fits the width
it claims, at most 69 bits (30_encoding.md rules R63 to R66, R69). -/

namespace Sys2Proof.Laws

open Sys2Proof.Machine

/-- Every stored code fits its depth (10_state.md rule R25 d). -/
def codesFit (T : Tables) : Prop := ∀ r, ∀ t ∈ (T.get r).toList, t.code.toNat < 2 ^ t.depth.toNat

/-- The encoding of `i` is a number of at most 69 bits that fits the width it claims. -/
def EncodingFits.Statement (i : Instr) : Prop :=
  ∀ (T : Tables) (w v : Nat), i.wf = true → codesFit T → encode T i = .bits w v → w ≤ 69 ∧ v < 2 ^ w

theorem packLengths_lt (lens : List (BitVec 4)) : packLengths lens < 2 ^ (4 * lens.length) := by
  induction lens with
  | nil => decide
  | cons l ls ih =>
    have hl := l.isLt
    rw [packLengths, List.length_cons, show 4 * (ls.length + 1) = 4 + 4 * ls.length by omega]
    refine Nat.or_lt_two_pow (lt_of_lt_of_le hl (Nat.pow_le_pow_right (by omega) (by omega))) ?_
    rw [Nat.shiftLeft_eq, pow_add, Nat.mul_comm]
    exact Nat.mul_lt_mul_of_pos_left ih (by decide)

theorem encodeHuftab_fits {count : Nat} {lens : List (BitVec 4)} {w v : Nat} (hc : count ≤ 31)
    (hl : lens.length = min count 16) (h : encodeHuftab count lens = .bits w v) : w ≤ 69 ∧ v < 2 ^ w := by
  unfold encodeHuftab at h
  injection h with hw hv
  subst hw hv
  simp only [Config.cntW, Config.lenW, Config.nslot]
  refine ⟨by omega, Nat.or_lt_two_pow (lt_of_lt_of_le (show count < 2 ^ 5 by omega) (Nat.pow_le_pow_right (by omega) (by omega))) ?_⟩
  have hp := packLengths_lt lens
  rw [hl] at hp
  rw [Nat.shiftLeft_eq, pow_add, Nat.mul_comm]
  exact Nat.mul_lt_mul_of_pos_left hp (by decide)

theorem encodeVal_fits {T : Tables} (hT : codesFit T) {r : Role} {k e : Nat} (hk : k < 16) {w v : Nat} (he : e < 2 ^ (k - 1))
    (h : encodeVal T r k e = .bits w v) : w ≤ 69 ∧ v < 2 ^ w := by
  unfold encodeVal at h
  injection h with hw hv
  subst hw hv
  have hd := slot_depth_lt ((T.get r).toList.getD k unusedSlot)
  have hm : (T.get r).toList.getD k unusedSlot ∈ (T.get r).toList := by
    rw [List.getD, List.getElem?_eq_getElem (by simpa using hk)]
    exact List.getElem_mem _
  have hc := hT r _ hm
  refine ⟨by omega, Nat.or_lt_two_pow (lt_of_lt_of_le hc (Nat.pow_le_pow_right (by omega) (by omega))) ?_⟩
  rw [Nat.shiftLeft_eq, pow_add, Nat.mul_comm]
  exact Nat.mul_lt_mul_of_pos_left he (Nat.two_pow_pos _)

theorem EncodingFits.hdr (u p : BitVec 32) (c k : BitVec 16) (m b : BitVec 8) : EncodingFits.Statement (.hdr u p c k m b) :=
  fun _ _ _ _ _ h => by cases h

theorem EncodingFits.pad2 (v : BitVec 2) : EncodingFits.Statement (.pad2 v) := fun _ _ _ _ _ h => by
  injection h with hw hv
  subst hw hv
  exact ⟨by decide, v.isLt⟩

theorem EncodingFits.huftab0 (r : Role) : EncodingFits.Statement (.huftab0 r) :=
  fun _ _ _ _ _ h => encodeHuftab_fits (by decide) rfl h

theorem EncodingFits.huftab1 (r : Role) (lens : List (BitVec 4)) : EncodingFits.Statement (.huftab1 r lens) :=
  fun _ _ _ hw _ h => encodeHuftab_fits (by decide) (beq_iff_eq.1 hw) h

theorem EncodingFits.huftab2 (r : Role) (lens : List (BitVec 4)) : EncodingFits.Statement (.huftab2 r lens) :=
  fun _ _ _ hw _ h => encodeHuftab_fits (by decide) (beq_iff_eq.1 hw) h

theorem EncodingFits.huftab3 (r : Role) (lens : List (BitVec 4)) : EncodingFits.Statement (.huftab3 r lens) :=
  fun _ _ _ hw _ h => encodeHuftab_fits (by decide) (beq_iff_eq.1 hw) h

theorem EncodingFits.huftab4 (r : Role) (lens : List (BitVec 4)) : EncodingFits.Statement (.huftab4 r lens) :=
  fun _ _ _ hw _ h => encodeHuftab_fits (by decide) (beq_iff_eq.1 hw) h

theorem EncodingFits.huftab5 (r : Role) (lens : List (BitVec 4)) : EncodingFits.Statement (.huftab5 r lens) :=
  fun _ _ _ hw _ h => encodeHuftab_fits (by decide) (beq_iff_eq.1 hw) h

theorem EncodingFits.huftab6 (r : Role) (lens : List (BitVec 4)) : EncodingFits.Statement (.huftab6 r lens) :=
  fun _ _ _ hw _ h => encodeHuftab_fits (by decide) (beq_iff_eq.1 hw) h

theorem EncodingFits.huftab7 (r : Role) (lens : List (BitVec 4)) : EncodingFits.Statement (.huftab7 r lens) :=
  fun _ _ _ hw _ h => encodeHuftab_fits (by decide) (beq_iff_eq.1 hw) h

theorem EncodingFits.huftab8 (r : Role) (lens : List (BitVec 4)) : EncodingFits.Statement (.huftab8 r lens) :=
  fun _ _ _ hw _ h => encodeHuftab_fits (by decide) (beq_iff_eq.1 hw) h

theorem EncodingFits.huftab9 (r : Role) (lens : List (BitVec 4)) : EncodingFits.Statement (.huftab9 r lens) :=
  fun _ _ _ hw _ h => encodeHuftab_fits (by decide) (beq_iff_eq.1 hw) h

theorem EncodingFits.huftab10 (r : Role) (lens : List (BitVec 4)) : EncodingFits.Statement (.huftab10 r lens) :=
  fun _ _ _ hw _ h => encodeHuftab_fits (by decide) (beq_iff_eq.1 hw) h

theorem EncodingFits.huftab11 (r : Role) (lens : List (BitVec 4)) : EncodingFits.Statement (.huftab11 r lens) :=
  fun _ _ _ hw _ h => encodeHuftab_fits (by decide) (beq_iff_eq.1 hw) h

theorem EncodingFits.huftab12 (r : Role) (lens : List (BitVec 4)) : EncodingFits.Statement (.huftab12 r lens) :=
  fun _ _ _ hw _ h => encodeHuftab_fits (by decide) (beq_iff_eq.1 hw) h

theorem EncodingFits.huftab13 (r : Role) (lens : List (BitVec 4)) : EncodingFits.Statement (.huftab13 r lens) :=
  fun _ _ _ hw _ h => encodeHuftab_fits (by decide) (beq_iff_eq.1 hw) h

theorem EncodingFits.huftab14 (r : Role) (lens : List (BitVec 4)) : EncodingFits.Statement (.huftab14 r lens) :=
  fun _ _ _ hw _ h => encodeHuftab_fits (by decide) (beq_iff_eq.1 hw) h

theorem EncodingFits.huftab15 (r : Role) (lens : List (BitVec 4)) : EncodingFits.Statement (.huftab15 r lens) :=
  fun _ _ _ hw _ h => encodeHuftab_fits (by decide) (beq_iff_eq.1 hw) h

theorem EncodingFits.huftab16 (r : Role) (lens : List (BitVec 4)) : EncodingFits.Statement (.huftab16 r lens) :=
  fun _ _ _ hw _ h => encodeHuftab_fits (by decide) (beq_iff_eq.1 hw) h

theorem EncodingFits.huftab17 (r : Role) (lens : List (BitVec 4)) : EncodingFits.Statement (.huftab17 r lens) :=
  fun _ _ _ hw _ h => encodeHuftab_fits (by decide) (beq_iff_eq.1 hw) h

theorem EncodingFits.huftab18 (r : Role) (lens : List (BitVec 4)) : EncodingFits.Statement (.huftab18 r lens) :=
  fun _ _ _ hw _ h => encodeHuftab_fits (by decide) (beq_iff_eq.1 hw) h

theorem EncodingFits.huftab19 (r : Role) (lens : List (BitVec 4)) : EncodingFits.Statement (.huftab19 r lens) :=
  fun _ _ _ hw _ h => encodeHuftab_fits (by decide) (beq_iff_eq.1 hw) h

theorem EncodingFits.huftab20 (r : Role) (lens : List (BitVec 4)) : EncodingFits.Statement (.huftab20 r lens) :=
  fun _ _ _ hw _ h => encodeHuftab_fits (by decide) (beq_iff_eq.1 hw) h

theorem EncodingFits.huftab21 (r : Role) (lens : List (BitVec 4)) : EncodingFits.Statement (.huftab21 r lens) :=
  fun _ _ _ hw _ h => encodeHuftab_fits (by decide) (beq_iff_eq.1 hw) h

theorem EncodingFits.huftab22 (r : Role) (lens : List (BitVec 4)) : EncodingFits.Statement (.huftab22 r lens) :=
  fun _ _ _ hw _ h => encodeHuftab_fits (by decide) (beq_iff_eq.1 hw) h

theorem EncodingFits.huftab23 (r : Role) (lens : List (BitVec 4)) : EncodingFits.Statement (.huftab23 r lens) :=
  fun _ _ _ hw _ h => encodeHuftab_fits (by decide) (beq_iff_eq.1 hw) h

theorem EncodingFits.huftab24 (r : Role) (lens : List (BitVec 4)) : EncodingFits.Statement (.huftab24 r lens) :=
  fun _ _ _ hw _ h => encodeHuftab_fits (by decide) (beq_iff_eq.1 hw) h

theorem EncodingFits.huftab25 (r : Role) (lens : List (BitVec 4)) : EncodingFits.Statement (.huftab25 r lens) :=
  fun _ _ _ hw _ h => encodeHuftab_fits (by decide) (beq_iff_eq.1 hw) h

theorem EncodingFits.huftab26 (r : Role) (lens : List (BitVec 4)) : EncodingFits.Statement (.huftab26 r lens) :=
  fun _ _ _ hw _ h => encodeHuftab_fits (by decide) (beq_iff_eq.1 hw) h

theorem EncodingFits.huftab27 (r : Role) (lens : List (BitVec 4)) : EncodingFits.Statement (.huftab27 r lens) :=
  fun _ _ _ hw _ h => encodeHuftab_fits (by decide) (beq_iff_eq.1 hw) h

theorem EncodingFits.huftab28 (r : Role) (lens : List (BitVec 4)) : EncodingFits.Statement (.huftab28 r lens) :=
  fun _ _ _ hw _ h => encodeHuftab_fits (by decide) (beq_iff_eq.1 hw) h

theorem EncodingFits.huftab29 (r : Role) (lens : List (BitVec 4)) : EncodingFits.Statement (.huftab29 r lens) :=
  fun _ _ _ hw _ h => encodeHuftab_fits (by decide) (beq_iff_eq.1 hw) h

theorem EncodingFits.huftab30 (r : Role) (lens : List (BitVec 4)) : EncodingFits.Statement (.huftab30 r lens) :=
  fun _ _ _ hw _ h => encodeHuftab_fits (by decide) (beq_iff_eq.1 hw) h

theorem EncodingFits.huftab31 (r : Role) (lens : List (BitVec 4)) : EncodingFits.Statement (.huftab31 r lens) :=
  fun _ _ _ hw _ h => encodeHuftab_fits (by decide) (beq_iff_eq.1 hw) h

theorem EncodingFits.nsub (n : BitVec 16) : EncodingFits.Statement (.nsub n) := fun _ _ _ _ _ h => by
  injection h with hw hv
  subst hw hv
  exact ⟨by decide, n.isLt⟩

theorem EncodingFits.val0 (r : Role) : EncodingFits.Statement (.val0 r) :=
  fun _ _ _ _ hT h => encodeVal_fits hT (by decide) (by decide) h

theorem EncodingFits.val1 (r : Role) : EncodingFits.Statement (.val1 r) :=
  fun _ _ _ _ hT h => encodeVal_fits hT (by decide) (by decide) h

theorem EncodingFits.val2 (r : Role) (e : BitVec 1) : EncodingFits.Statement (.val2 r e) :=
  fun _ _ _ _ hT h => encodeVal_fits hT (by decide) e.isLt h

theorem EncodingFits.val3 (r : Role) (e : BitVec 2) : EncodingFits.Statement (.val3 r e) :=
  fun _ _ _ _ hT h => encodeVal_fits hT (by decide) e.isLt h

theorem EncodingFits.val4 (r : Role) (e : BitVec 3) : EncodingFits.Statement (.val4 r e) :=
  fun _ _ _ _ hT h => encodeVal_fits hT (by decide) e.isLt h

theorem EncodingFits.val5 (r : Role) (e : BitVec 4) : EncodingFits.Statement (.val5 r e) :=
  fun _ _ _ _ hT h => encodeVal_fits hT (by decide) e.isLt h

theorem EncodingFits.val6 (r : Role) (e : BitVec 5) : EncodingFits.Statement (.val6 r e) :=
  fun _ _ _ _ hT h => encodeVal_fits hT (by decide) e.isLt h

theorem EncodingFits.val7 (r : Role) (e : BitVec 6) : EncodingFits.Statement (.val7 r e) :=
  fun _ _ _ _ hT h => encodeVal_fits hT (by decide) e.isLt h

theorem EncodingFits.val8 (r : Role) (e : BitVec 7) : EncodingFits.Statement (.val8 r e) :=
  fun _ _ _ _ hT h => encodeVal_fits hT (by decide) e.isLt h

theorem EncodingFits.val9 (r : Role) (e : BitVec 8) : EncodingFits.Statement (.val9 r e) :=
  fun _ _ _ _ hT h => encodeVal_fits hT (by decide) e.isLt h

theorem EncodingFits.val10 (r : Role) (e : BitVec 9) : EncodingFits.Statement (.val10 r e) :=
  fun _ _ _ _ hT h => encodeVal_fits hT (by decide) e.isLt h

theorem EncodingFits.val11 (r : Role) (e : BitVec 10) : EncodingFits.Statement (.val11 r e) :=
  fun _ _ _ _ hT h => encodeVal_fits hT (by decide) e.isLt h

theorem EncodingFits.val12 (r : Role) (e : BitVec 11) : EncodingFits.Statement (.val12 r e) :=
  fun _ _ _ _ hT h => encodeVal_fits hT (by decide) e.isLt h

theorem EncodingFits.val13 (r : Role) (e : BitVec 12) : EncodingFits.Statement (.val13 r e) :=
  fun _ _ _ _ hT h => encodeVal_fits hT (by decide) e.isLt h

theorem EncodingFits.val14 (r : Role) (e : BitVec 13) : EncodingFits.Statement (.val14 r e) :=
  fun _ _ _ _ hT h => encodeVal_fits hT (by decide) e.isLt h

theorem EncodingFits.val15 (r : Role) (e : BitVec 14) : EncodingFits.Statement (.val15 r e) :=
  fun _ _ _ _ hT h => encodeVal_fits hT (by decide) e.isLt h

theorem EncodingFits.litrun : EncodingFits.Statement .litrun := fun _ _ _ _ _ h => by cases h

theorem EncodingFits.lzmatch : EncodingFits.Statement .lzmatch := fun _ _ _ _ _ h => by cases h

theorem EncodingFits.reset : EncodingFits.Statement .reset := fun _ _ _ _ _ h => by cases h

theorem EncodingFits.start : EncodingFits.Statement .start := fun _ _ _ _ _ h => by cases h

theorem EncodingFits.rdbytes (n : Nat) : EncodingFits.Statement (.rdbytes n) := fun _ _ _ _ _ h => by cases h

theorem EncodingFits.rdbe32 : EncodingFits.Statement .rdbe32 := fun _ _ _ _ _ h => by cases h

theorem EncodingFits.rdbe16 : EncodingFits.Statement .rdbe16 := fun _ _ _ _ _ h => by cases h

theorem EncodingFits.rdu8 : EncodingFits.Statement .rdu8 := fun _ _ _ _ _ h => by cases h

theorem EncodingFits.lookw : EncodingFits.Statement .lookw := fun _ _ _ _ _ h => by cases h

theorem EncodingFits.fetchw : EncodingFits.Statement .fetchw := fun _ _ _ _ _ h => by cases h

theorem EncodingFits.peek (n : Nat) : EncodingFits.Statement (.peek n) := fun _ _ _ _ _ h => by cases h

theorem EncodingFits.rdbits (n : Nat) : EncodingFits.Statement (.rdbits n) := fun _ _ _ _ _ h => by cases h

theorem EncodingFits.mirror (c w : Nat) : EncodingFits.Statement (.mirror c w) := fun _ _ _ _ _ h => by cases h

theorem EncodingFits.decval (r : Role) : EncodingFits.Statement (.decval r) := fun _ _ _ _ _ h => by cases h

theorem EncodingFits.formval (k : BitVec 4) : EncodingFits.Statement (.formval k) := fun _ _ _ _ _ h => by cases h

theorem EncodingFits.cpylit (n : Nat) : EncodingFits.Statement (.cpylit n) := fun _ _ _ _ _ h => by cases h

theorem EncodingFits.cpymatch (d c : Nat) : EncodingFits.Statement (.cpymatch d c) := fun _ _ _ _ _ h => by cases h

theorem EncodingFits.stepHeader : EncodingFits.Statement .stepHeader := fun _ _ _ _ _ h => by cases h

theorem EncodingFits.stepBlock : EncodingFits.Statement .stepBlock := fun _ _ _ _ _ h => by cases h

theorem EncodingFits.stepSubchunk : EncodingFits.Statement .stepSubchunk := fun _ _ _ _ _ h => by cases h

theorem EncodingFits.endBlock : EncodingFits.Statement .endBlock := fun _ _ _ _ _ h => by cases h

end Sys2Proof.Laws
end

