-- ==== Sys2Proof/Tests/Slice0.lean ====
section
/-! SUPPORT. The model's own tests, each one step or one decoding, its expected value taken from the examples of spec/ or
worked out from an encoding of 30_encoding.md, and for every statement with hypotheses a named witness that meets them. -/

namespace Sys2Proof.Tests

open Sys2Proof.Machine

/-- A stream placed in `IN`, the cursor at its first byte, the bit queue empty. -/
def stream (bytes : List Byte) (p : Phase) (e : Elem) : State := { State.reset.place bytes none with phase := p, elem := e }

/-- One thing of the next state, none if the instruction stops. -/
def pick {α : Type} (f : State → α) (o : Host.Outcome State Fault Refusal) : Option α :=
  match o with
  | .next t => some (f t)
  | .fault _ => none
  | .refused _ => none

/-- What a bit-queue vector gives: the value, the cursor, the queue. -/
def bitResult (s : State) : Result × Nat × Nat × Nat := (s.ret, s.ip, s.bqVal, s.bqCnt)

/-- Lengths `[4]` sixteen times, the table of the examples of rules R300 to R315 (vector T6). -/
def fours : List (BitVec 4) := [4, 4, 4, 4, 4, 4, 4, 4, 4, 4, 4, 4, 4, 4, 4, 4]

/-- The bytes of program P1. -/
def p1 : List Byte := [0x52, 0x4E, 0x43, 0x01, 0x00, 0x00, 0x00, 0x03, 0x00, 0x00, 0x00, 0x00, 0x00, 0x00, 0x00, 0x00,
  0x00, 0x01, 0x0C, 0x80, 0x00, 0x20, 0x00, 0x40, 0x61, 0x62, 0x63]

/-- The bytes of program P2. -/
def p2 : List Byte := [0x52, 0x4E, 0x43, 0x01, 0x00, 0x00, 0x00, 0x08, 0x00, 0x00, 0x00, 0x00, 0x00, 0x00, 0x00, 0x00,
  0x00, 0x01, 0x8C, 0x80, 0x10, 0x10, 0x03, 0x20, 0x04, 0x00, 0x26, 0x00, 0x61, 0x62, 0x63]

/-- The tables of program P2. -/
def p2Tables : Tables := ⟨buildTable [1, 0, 1], buildTable [0, 1], buildTable [0, 0, 1]⟩

/-- Program P2 after its `StepBlock`. -/
def p2Sub : State := { stream p2 .perSubchunk .litVal with
  ip := 28, bqVal := 0x13, bqCnt := 15, nsub := 2, hBlocks := 1, tabs := p2Tables }

/-- Program P2 after the literal run of its first subchunk. -/
def p2Match : State := { p2Sub with
  elem := .distVal, ip := 31, bqVal := 0x4, bqCnt := 13, olen := 3, out := [(0, 0x61), (1, 0x62), (2, 0x63)] }

/-! ### Well-formedness: an ill-formed term for each check -/

theorem test_wf_refuses_wrong_lengths :
    (Instr.huftab1 .lit []).wf = false ∧ (Instr.huftab2 .lit [1]).wf = false ∧
    (Instr.huftab3 .lit (List.replicate 2 1)).wf = false ∧
    (Instr.huftab4 .lit (List.replicate 5 1)).wf = false ∧
    (Instr.huftab5 .lit (List.replicate 4 1)).wf = false ∧
    (Instr.huftab6 .lit (List.replicate 7 1)).wf = false ∧
    (Instr.huftab7 .lit (List.replicate 6 1)).wf = false ∧
    (Instr.huftab8 .lit (List.replicate 9 1)).wf = false ∧
    (Instr.huftab9 .lit (List.replicate 8 1)).wf = false ∧
    (Instr.huftab10 .lit (List.replicate 11 1)).wf = false ∧
    (Instr.huftab11 .lit (List.replicate 10 1)).wf = false ∧
    (Instr.huftab12 .lit (List.replicate 13 1)).wf = false ∧
    (Instr.huftab13 .lit (List.replicate 12 1)).wf = false ∧
    (Instr.huftab14 .lit (List.replicate 15 1)).wf = false ∧
    (Instr.huftab15 .lit (List.replicate 14 1)).wf = false ∧
    (Instr.huftab16 .lit (List.replicate 17 1)).wf = false ∧
    (Instr.huftab17 .lit (List.replicate 15 1)).wf = false ∧
    (Instr.huftab18 .lit (List.replicate 17 1)).wf = false ∧
    (Instr.huftab19 .lit (List.replicate 15 1)).wf = false ∧
    (Instr.huftab20 .lit (List.replicate 17 1)).wf = false ∧
    (Instr.huftab21 .lit (List.replicate 15 1)).wf = false ∧
    (Instr.huftab22 .lit (List.replicate 17 1)).wf = false ∧
    (Instr.huftab23 .lit (List.replicate 15 1)).wf = false ∧
    (Instr.huftab24 .lit (List.replicate 17 1)).wf = false ∧
    (Instr.huftab25 .lit (List.replicate 15 1)).wf = false ∧
    (Instr.huftab26 .lit (List.replicate 17 1)).wf = false ∧
    (Instr.huftab27 .lit (List.replicate 15 1)).wf = false ∧
    (Instr.huftab28 .lit (List.replicate 17 1)).wf = false ∧
    (Instr.huftab29 .lit (List.replicate 15 1)).wf = false ∧
    (Instr.huftab30 .lit (List.replicate 17 1)).wf = false ∧
    (Instr.huftab31 .lit (List.replicate 15 1)).wf = false := by decide

theorem test_wf_refuses_wide_reads : (Instr.peek 17).wf = false ∧ (Instr.rdbits 17).wf = false := by decide

theorem test_wf_refuses_mirror_widths : (Instr.mirror 1 0).wf = false ∧ (Instr.mirror 1 16).wf = false := by decide

theorem test_wf_refuses_copy_counts :
    (Instr.cpylit 0).wf = false ∧ (Instr.cpylit 32768).wf = false ∧ (Instr.cpymatch 0 2).wf = false ∧
    (Instr.cpymatch 32769 2).wf = false ∧ (Instr.cpymatch 1 1).wf = false ∧ (Instr.cpymatch 1 32770).wf = false := by decide

theorem test_wf_accepts_the_bounds :
    (Instr.rdbits 16).wf = true ∧ (Instr.mirror 1 15).wf = true ∧ (Instr.cpylit 32767).wf = true ∧
    (Instr.cpymatch 32768 32769).wf = true ∧ (Instr.huftab31 .cnt (List.replicate 16 15)).wf = true := by decide

/-! ### Decoding: words written out from the formats of 30_encoding.md -/

/-- The header of the example of rule R151. -/
theorem test_decode_hdr :
    decode .hdr emptyTables [0x52, 0x4E, 0x43, 0x01, 0x00, 0x00, 0x00, 0x18, 0x00, 0x00, 0x00, 0x29, 0x12, 0x34, 0xAB, 0xCD,
      0x02, 0x02] 0 = .instr (.hdr 24 41 0x1234 0xABCD 2 2) := by decide

/-- Too short, `RNC` with version 2, and a signature without the rest (rules R176, R177). -/
theorem test_decode_hdr_rejects :
    decode .hdr emptyTables [0x52, 0x4E, 0x43] 0 = .reject .truncated ∧
    decode .hdr emptyTables [0x52, 0x4E, 0x43, 0x02] 0 = .reject .badSignature ∧
    decode .hdr emptyTables [0x52, 0x4E, 0x43, 0x01] 0 = .reject .truncated := by decide

theorem test_decode_pad2 : decode .pad2 emptyTables [] 0x8913 = .instr (.pad2 3) := by decide

theorem test_decode_nsub : decode .nsub emptyTables [] 0x20001 = .instr (.nsub 1) := by decide

/-- `E[4:0] = count`, `E[8+4i : 5+4i] =` length of slot `i` (rule R64). -/
theorem test_decode_huftab_0_to_7 :
    decode (.tab .dist) emptyTables [] 0x0 = .instr (.huftab0 .dist) ∧
    decode (.tab .dist) emptyTables [] 0x21 = .instr (.huftab1 .dist [1]) ∧
    decode (.tab .dist) emptyTables [] 0x1242 = .instr (.huftab2 .dist [2, 9]) ∧
    decode (.tab .dist) emptyTables [] 0x3463 = .instr (.huftab3 .dist [3, 10, 1]) ∧
    decode (.tab .dist) emptyTables [] 0x125684 = .instr (.huftab4 .dist [4, 11, 2, 9]) ∧
    decode (.tab .dist) emptyTables [] 0x3478A5 = .instr (.huftab5 .dist [5, 12, 3, 10, 1]) ∧
    decode (.tab .dist) emptyTables [] 0x12569AC6 = .instr (.huftab6 .dist [6, 13, 4, 11, 2, 9]) ∧
    decode (.tab .dist) emptyTables [] 0x3478BCE7 = .instr (.huftab7 .dist [7, 14, 5, 12, 3, 10, 1]) := by decide

/-- `E[4:0] = count`, `E[8+4i : 5+4i] =` length of slot `i` (rule R64). -/
theorem test_decode_huftab_8_to_15 :
    decode (.tab .dist) emptyTables [] 0x12569ADF08 = .instr (.huftab8 .dist [8, 15, 6, 13, 4, 11, 2, 9]) ∧
    decode (.tab .dist) emptyTables [] 0x3478BCE129 = .instr (.huftab9 .dist [9, 0, 7, 14, 5, 12, 3, 10, 1]) ∧
    decode (.tab .dist) emptyTables [] 0x12569ADF034A = .instr (.huftab10 .dist [10, 1, 8, 15, 6, 13, 4, 11, 2, 9]) ∧
    decode (.tab .dist) emptyTables [] 0x3478BCE1256B = .instr (.huftab11 .dist [11, 2, 9, 0, 7, 14, 5, 12, 3, 10, 1]) ∧
    decode (.tab .dist) emptyTables [] 0x12569ADF03478C = .instr (.huftab12 .dist [12, 3, 10, 1, 8, 15, 6, 13, 4, 11, 2, 9]) ∧
    decode (.tab .dist) emptyTables [] 0x3478BCE12569AD = .instr (.huftab13 .dist [13, 4, 11, 2, 9, 0, 7, 14, 5, 12, 3, 10, 1]) ∧
    decode (.tab .dist) emptyTables [] 0x12569ADF03478BCE = .instr (.huftab14 .dist [14, 5, 12, 3, 10, 1, 8, 15, 6, 13, 4, 11, 2, 9]) ∧
    decode (.tab .dist) emptyTables [] 0x3478BCE12569ADEF = .instr (.huftab15 .dist [15, 6, 13, 4, 11, 2, 9, 0, 7, 14, 5, 12, 3, 10, 1]) := by decide

/-- `E[4:0] = count`, `E[8+4i : 5+4i] =` length of slot `i` (rule R64). -/
theorem test_decode_huftab_16_to_23 :
    decode (.tab .dist) emptyTables [] 0x12569ADF03478BCE10 = .instr (.huftab16 .dist [0, 7, 14, 5, 12, 3, 10, 1, 8, 15, 6, 13, 4, 11, 2, 9]) ∧
    decode (.tab .dist) emptyTables [] 0x1478BCE12569ADF031 = .instr (.huftab17 .dist [1, 8, 15, 6, 13, 4, 11, 2, 9, 0, 7, 14, 5, 12, 3, 10]) ∧
    decode (.tab .dist) emptyTables [] 0x169ADF03478BCE1252 = .instr (.huftab18 .dist [2, 9, 0, 7, 14, 5, 12, 3, 10, 1, 8, 15, 6, 13, 4, 11]) ∧
    decode (.tab .dist) emptyTables [] 0x18BCE12569ADF03473 = .instr (.huftab19 .dist [3, 10, 1, 8, 15, 6, 13, 4, 11, 2, 9, 0, 7, 14, 5, 12]) ∧
    decode (.tab .dist) emptyTables [] 0x1ADF03478BCE125694 = .instr (.huftab20 .dist [4, 11, 2, 9, 0, 7, 14, 5, 12, 3, 10, 1, 8, 15, 6, 13]) ∧
    decode (.tab .dist) emptyTables [] 0x1CE12569ADF03478B5 = .instr (.huftab21 .dist [5, 12, 3, 10, 1, 8, 15, 6, 13, 4, 11, 2, 9, 0, 7, 14]) ∧
    decode (.tab .dist) emptyTables [] 0x1F03478BCE12569AD6 = .instr (.huftab22 .dist [6, 13, 4, 11, 2, 9, 0, 7, 14, 5, 12, 3, 10, 1, 8, 15]) ∧
    decode (.tab .dist) emptyTables [] 0x12569ADF03478BCF7 = .instr (.huftab23 .dist [7, 14, 5, 12, 3, 10, 1, 8, 15, 6, 13, 4, 11, 2, 9, 0]) := by decide

/-- `E[4:0] = count`, `E[8+4i : 5+4i] =` length of slot `i` (rule R64). -/
theorem test_decode_huftab_24_to_31 :
    decode (.tab .dist) emptyTables [] 0x3478BCE12569ADF18 = .instr (.huftab24 .dist [8, 15, 6, 13, 4, 11, 2, 9, 0, 7, 14, 5, 12, 3, 10, 1]) ∧
    decode (.tab .dist) emptyTables [] 0x569ADF03478BCE139 = .instr (.huftab25 .dist [9, 0, 7, 14, 5, 12, 3, 10, 1, 8, 15, 6, 13, 4, 11, 2]) ∧
    decode (.tab .dist) emptyTables [] 0x78BCE12569ADF035A = .instr (.huftab26 .dist [10, 1, 8, 15, 6, 13, 4, 11, 2, 9, 0, 7, 14, 5, 12, 3]) ∧
    decode (.tab .dist) emptyTables [] 0x9ADF03478BCE1257B = .instr (.huftab27 .dist [11, 2, 9, 0, 7, 14, 5, 12, 3, 10, 1, 8, 15, 6, 13, 4]) ∧
    decode (.tab .dist) emptyTables [] 0xBCE12569ADF03479C = .instr (.huftab28 .dist [12, 3, 10, 1, 8, 15, 6, 13, 4, 11, 2, 9, 0, 7, 14, 5]) ∧
    decode (.tab .dist) emptyTables [] 0xDF03478BCE12569BD = .instr (.huftab29 .dist [13, 4, 11, 2, 9, 0, 7, 14, 5, 12, 3, 10, 1, 8, 15, 6]) ∧
    decode (.tab .dist) emptyTables [] 0xE12569ADF03478BDE = .instr (.huftab30 .dist [14, 5, 12, 3, 10, 1, 8, 15, 6, 13, 4, 11, 2, 9, 0, 7]) ∧
    decode (.tab .dist) emptyTables [] 0x103478BCE12569ADFF = .instr (.huftab31 .dist [15, 6, 13, 4, 11, 2, 9, 0, 7, 14, 5, 12, 3, 10, 1, 8]) := by decide

/-- Under the table of vector T6 the code of class `k` is `MIRROR(k, 4)`; the words are those of rules R300 to R315. -/
theorem test_decode_val_0_to_7 :
    let T := emptyTables.set .cnt (buildTable fours)
    decode (.cntVal 9) T [] 0x0000 = .instr (.val0 .cnt) ∧
    decode (.cntVal 9) T [] 0x0008 = .instr (.val1 .cnt) ∧
    decode (.cntVal 9) T [] 0x0014 = .instr (.val2 .cnt 1) ∧
    decode (.cntVal 9) T [] 0x001C = .instr (.val3 .cnt 1) ∧
    decode (.cntVal 9) T [] 0x0062 = .instr (.val4 .cnt 6) ∧
    decode (.cntVal 9) T [] 0x001A = .instr (.val5 .cnt 1) ∧
    decode (.cntVal 9) T [] 0x0046 = .instr (.val6 .cnt 4) ∧
    decode (.cntVal 9) T [] 0x00CE = .instr (.val7 .cnt 12) := by decide

theorem test_decode_val_8_to_15 :
    let T := emptyTables.set .cnt (buildTable fours)
    decode (.cntVal 9) T [] 0x05D1 = .instr (.val8 .cnt 93) ∧
    decode (.cntVal 9) T [] 0x01D9 = .instr (.val9 .cnt 29) ∧
    decode (.cntVal 9) T [] 0x0DB5 = .instr (.val10 .cnt 219) ∧
    decode (.cntVal 9) T [] 0x04CD = .instr (.val11 .cnt 76) ∧
    decode (.cntVal 9) T [] 0x1603 = .instr (.val12 .cnt 352) ∧
    decode (.cntVal 9) T [] 0xDE0B = .instr (.val13 .cnt 3552) ∧
    decode (.cntVal 9) T [] 0x1AC37 = .instr (.val14 .cnt 6851) ∧
    decode (.cntVal 9) T [] 0x8F1F = .instr (.val15 .cnt 2289) := by decide

/-- Vector V21: an empty table matches nothing. -/
theorem test_decode_noMatch : decode .litVal emptyTables [] 0 = .reject .noMatch := by decide

/-- A table word is numbered from the first byte up, the header as the table writes it (rule R71). -/
theorem test_decodeTableWord :
    decodeTableWord 24 0x2003 = some (.huftab3 .lit [0, 0, 1]) ∧ decodeTableWord 16 0x1200 = some (.nsub 0x1200) ∧
    decodeTableWord 8 0 = some (.huftab0 .lit) ∧ decodeTableWord 8 3 = some (.pad2 3) ∧
    decodeTableWord 16 0x0131 = some (.nsub 0x0131) ∧ decodeTableWord 16 0x0021 = some (.huftab1 .lit [1]) ∧
    decodeTableWord 144 0x524E430100000018000000291234ABCD0202 = some (.hdr 24 41 0x1234 0xABCD 2 2) ∧
    decodeTableWord 0 0 = none := by decide

/-- A table word placed runs as the first instruction after reset: its table is built. -/
theorem test_withFetchWord_runs :
    pick (fun t => (t.slot .lit 2, t.elem)) (step (State.reset.withFetchWord 24 0x2003)) = some (⟨1, 0⟩, .tab .dist) := by
  decide

/-! ### Byte reader: vectors Y1 to Y8 -/

/-- The stream of vector Y1. -/
def y1 : State := stream [0x52, 0x4E, 0x43, 0x01, 0x00, 0x00, 0x00, 0x18] .header .hdr

theorem test_rdbytes_y1 : pick (fun t => (t.ret, t.ip)) (exec (.rdbytes 4) y1) = some (.bytes [0x52, 0x4E, 0x43, 0x01], 4) := by
  decide

theorem test_rdbytes_y6 : pick (fun t => (t.err, t.phase, t.ip)) (exec (.rdbytes 4) (stream [0x52, 0x4E, 0x43] .header .hdr))
    = some (some .truncated, .failed, 0) := by decide

theorem test_rdbe32_y2 : pick (fun t => (t.ret, t.ip)) (exec .rdbe32 { y1 with ip := 4 }) = some (.value 24, 8) := by decide

theorem test_rdbe16_y3 : pick (fun t => (t.ret, t.ip)) (exec .rdbe16 (stream [0x12, 0x34, 0xAB, 0xCD] .header .hdr))
    = some (.value 0x1234, 2) := by decide

theorem test_rdu8_y5 : pick (fun t => (t.ret, t.ip)) (exec .rdu8 (stream [0x02, 0xFF] .header .hdr)) = some (.value 2, 1) := by
  decide

/-! ### Bit queue: vectors B1 and B4 -/

/-- The stream of vector B1. -/
def b1 : State := stream [0xB5, 0x3C, 0x0F, 0xA0, 0x7E] .perBlock .nsub

theorem test_lookw_b4 : pick bitResult (exec .lookw { b1 with ip := 1 }) = some (.value 0x0F3C, 1, 0, 0) := by decide

theorem test_fetchw_last_byte : pick bitResult (exec .fetchw { b1 with ip := 4 }) = some (.value 0x007E, 5, 0, 0) := by decide

theorem test_peek_b1_row3 : pick bitResult (exec (.peek 16) { b1 with ip := 2, bqVal := 0x79, bqCnt := 9 })
    = some (.value 0x1401E79, 2, 0x79, 9) := by decide

theorem test_rdbits_b1_row1 : pick bitResult (exec (.rdbits 2) b1) = some (.value 1, 2, 0xF2D, 14) := by decide

theorem test_rdbits_b1_row8 : pick bitResult (exec (.rdbits 16) { b1 with ip := 4, bqVal := 0xA, bqCnt := 4 })
    = some (.value 0x07EA, 5, 0, 4) := by decide

/-! ### Table builder: vectors T1, T8, T9, T10, T13 -/

theorem test_mirror : pick (fun t => t.ret) (exec (.mirror 6 3) b1) = some (.value 3) ∧
    pick (fun t => t.ret) (exec (.mirror 4 2) b1) = some (.value 0) := by decide

theorem test_build_t1 : ((buildTable [2, 1, 3, 3]).toList.take 5).map (fun t => (t.depth.toNat, t.code.toNat))
    = [(2, 1), (1, 0), (3, 3), (3, 7), (0, 0)] := by decide

theorem test_build_t9 : ((buildTable [0, 3, 0, 2, 2]).toList.take 6).map (fun t => (t.depth.toNat, t.code.toNat))
    = [(0, 0), (3, 1), (0, 0), (2, 0), (2, 2), (0, 0)] := by decide

theorem test_build_t8 : (buildTable [1, 2, 3, 4, 5, 6, 7, 8, 9, 10, 11, 12, 13, 14, 15, 15]).toList.map (fun t => t.code.toNat)
    = [0, 1, 3, 7, 0xF, 0x1F, 0x3F, 0x7F, 0xFF, 0x1FF, 0x3FF, 0x7FF, 0xFFF, 0x1FFF, 0x3FFF, 0x7FFF] := by decide

theorem test_build_t13 : ((buildTable [2, 2, 2, 2, 1]).toList.take 5).map (fun t => (t.depth.toNat, t.code.toNat))
    = [(2, 1), (2, 3), (2, 0), (2, 2), (1, 0)] := by decide

/-- Vector T1 on the stream: the step at the descriptor. -/
theorem test_step_huftab_t1 :
    pick (fun t => (t.slot .lit 2, t.ip, t.bqVal, t.bqCnt, t.elem)) (step (stream [0x44, 0x62, 0x06, 0x00] .perBlock (.tab .lit)))
      = some (⟨3, 3⟩, 4, 0, 11, .tab .dist) := by decide

/-- Vector T10: a count of 20 reads sixteen lengths. -/
theorem test_step_huftab_t10 :
    pick (fun t => (t.slot .cnt 1, t.ip, t.bqVal, t.bqCnt, t.elem))
      (step (stream [0x54, 0x44, 0x04, 0x00, 0x00, 0x00, 0x00, 0x00, 0x00, 0x00] .perBlock (.tab .cnt)))
      = some (⟨2, 2⟩, 10, 0, 11, .nsub) := by decide

/-! ### Values: the examples of rules R300 to R315, and vectors V12, V20, V23, V24 -/

/-- A stream under the table of vector T6. -/
def t6 (bytes : List Byte) : State := installTable .lit fours (stream bytes .perSubchunk .litVal)

theorem test_val0 : pick bitResult (exec (.val0 .lit) (t6 [0x00, 0x00])) = some (.value 0, 2, 0, 12) := by decide

theorem test_val1 : pick bitResult (exec (.val1 .lit) (t6 [0x08, 0x00])) = some (.value 1, 2, 0, 12) := by decide

theorem test_val2 : pick bitResult (exec (.val2 .lit 1) (t6 [0x14, 0x00])) = some (.value 3, 2, 0, 11) := by decide

theorem test_val3 : pick bitResult (exec (.val3 .lit 1) (t6 [0x1C, 0x00])) = some (.value 5, 2, 0, 10) := by decide

theorem test_val4 : pick bitResult (exec (.val4 .lit 6) (t6 [0x62, 0x00])) = some (.value 14, 2, 0, 9) := by decide

theorem test_val5 : pick bitResult (exec (.val5 .lit 1) (t6 [0x1A, 0x00])) = some (.value 17, 2, 0, 8) := by decide

theorem test_val6 : pick bitResult (exec (.val6 .lit 4) (t6 [0x46, 0x00])) = some (.value 36, 2, 0, 7) := by decide

theorem test_val7 : pick bitResult (exec (.val7 .lit 12) (t6 [0xCE, 0x00])) = some (.value 76, 2, 0, 6) := by decide

theorem test_val8 : pick bitResult (exec (.val8 .lit 93) (t6 [0xD1, 0x05])) = some (.value 221, 2, 0, 5) := by decide

theorem test_val9 : pick bitResult (exec (.val9 .lit 29) (t6 [0xD9, 0x01])) = some (.value 285, 2, 0, 4) := by decide

theorem test_val10 : pick bitResult (exec (.val10 .lit 219) (t6 [0xB5, 0x0D])) = some (.value 731, 2, 0, 3) := by decide

theorem test_val11 : pick bitResult (exec (.val11 .lit 76) (t6 [0xCD, 0x04])) = some (.value 1100, 2, 0, 2) := by decide

theorem test_val12 : pick bitResult (exec (.val12 .lit 352) (t6 [0x03, 0x16])) = some (.value 2400, 2, 0, 1) := by decide

theorem test_val13 : pick bitResult (exec (.val13 .lit 3552) (t6 [0x0B, 0xDE])) = some (.value 7648, 2, 0, 0) := by decide

theorem test_val14 : pick bitResult (exec (.val14 .lit 6851) (t6 [0x37, 0xAC, 0x01, 0x00])) = some (.value 15043, 4, 0, 15) := by decide

theorem test_val15 : pick bitResult (exec (.val15 .lit 2289) (t6 [0x1F, 0x8F, 0x00, 0x00])) = some (.value 18673, 4, 0, 14) := by decide

theorem test_decval_v23 :
    pick bitResult (exec (.decval .lit) { installTable .lit [2, 1, 3, 3] (stream [0x03, 0x00] .perSubchunk .litVal) with
      bqVal := 3, bqCnt := 2 }) = some (.value 5, 2, 0, 13) := by decide

/-- Vector V24: the peek's lookahead is not kept. -/
theorem test_decval_v24 :
    pick bitResult (exec (.decval .lit) { installTable .lit [2, 1, 3, 3] (stream [0xFF, 0xFF] .perSubchunk .litVal) with
      bqVal := 0, bqCnt := 1 }) = some (.value 1, 0, 0, 0) := by decide

theorem test_decval_v20 :
    pick (fun t => (t.err, t.phase, t.ip, t.bqCnt)) (exec (.decval .lit) (installTable .lit [2] (stream [0x01, 0x00] .perSubchunk .litVal)))
      = some (some .noMatch, .failed, 0, 0) := by decide

theorem test_formval_s4 : pick (fun t => t.ret) (exec (.formval 5) (stream [0x0A, 0x00] .perSubchunk .litVal)) = some (.value 26) := by
  decide

/-! ### Expander: vectors L1, L2, L3, M1, M6, M8 -/

theorem test_cpylit_l1 : pick (fun t => (t.out, t.olen, t.ip)) (exec (.cpylit 3) { stream p1 .perSubchunk (.litCopy 3) with ip := 24 })
    = some ([(0, 0x61), (1, 0x62), (2, 0x63)], 3, 27) := by decide

theorem test_cpylit_l4 : pick (fun t => (t.err, t.olen, t.ip))
    (exec (.cpylit 3) { stream (p1.take 26) .perSubchunk (.litCopy 3) with ip := 24, outCap := some 2 })
    = some (some .truncated, 0, 24) := by decide

theorem test_cpymatch_m1 : pick (fun t => (t.out, t.olen)) (exec (.cpymatch 2 5) p2Match)
    = some ([(0, 0x61), (1, 0x62), (2, 0x63), (3, 0x62), (4, 0x63), (5, 0x62), (6, 0x63), (7, 0x62)], 8) := by decide

theorem test_cpymatch_m10 : pick (fun t => (t.err, t.olen)) (exec (.cpymatch 4 2) { p2Match with outCap := some 3 })
    = some (some .badDistance, 3) := by decide

/-- The first literal run of program P2. -/
theorem test_litrun_p2 : pick (fun t => (t.out, t.ip, t.bqVal, t.bqCnt)) (exec .litrun p2Sub)
    = some ([(0, 0x61), (1, 0x62), (2, 0x63)], 31, 4, 13) := by decide

/-- The match of program P2. -/
theorem test_match_p2 : pick (fun t => (t.olen, t.ip, t.bqVal, t.bqCnt)) (exec .lzmatch p2Match) = some (8, 31, 0, 10) := by decide

/-- Vector M8 as a `MATCH`: the capacity is 7, both values are consumed. -/
theorem test_match_overflow : pick (fun t => (t.err, t.olen, t.bqCnt)) (exec .lzmatch { p2Match with outCap := some 7 })
    = some (some .outputOverflow, 3, 10) := by decide

/-! ### Sequencer: vectors X1, X2b, X8, X9, X10, programs P1 and P2 -/

theorem test_reset_x10 : pick (fun t => (t.phase, t.ip, t.bqCnt, t.inLen)) (exec .reset p2Match) = some (.idle, 0, 0, 31) := by decide

theorem test_start_x8 : exec .start p2Match = .next p2Match := rfl

theorem test_start_x9 : pick (fun t => (t.phase, t.err, t.olen, t.ip, t.bqCnt)) (exec .start (errorEntry .noMatch p2Match))
    = some (.header, none, 0, 0, 0) := by decide

theorem test_hdr_p1 : pick (fun t => (t.hSig, t.hUlen, t.hBlocks, t.ip, t.elem)) (step (stream p1 .header .hdr))
    = some (0x524E4301, 3, 1, 18, .pad2) := by decide

theorem test_hdr_x2b : pick (fun t => (t.err, t.hSig, t.ip)) (step (stream (p1.take 4) .header .hdr))
    = some (some .truncated, 0x524E4301, 4) := by decide

theorem test_pad2_p1 : pick bitResult (exec (.pad2 0) { stream p1 .header .pad2 with ip := 18 }) = some (.unit, 20, 0x2003, 14) := by
  decide

theorem test_nsub_p1 : pick (fun t => (t.nsub, t.ip, t.bqVal, t.bqCnt))
    (step { stream p1 .perBlock .nsub with ip := 22, bqVal := 1, bqCnt := 3 }) = some (1, 24, 2, 3) := by decide

theorem test_stepHeader_p1 : pick (fun t => (t.phase, t.hUlen, bitResult t)) (exec .stepHeader (stream p1 .header .hdr))
    = some (.perBlock, 3, .unit, 20, 0x2003, 14) := by decide

theorem test_stepBlock_p1 :
    pick (fun t => (t.phase, t.slot .lit 2, t.nsub, t.ip, t.bqVal, t.bqCnt))
      (exec .stepBlock { stream p1 .perBlock (.tab .lit) with ip := 20, bqVal := 0x2003, bqCnt := 14, hBlocks := 1 })
      = some (.perSubchunk, ⟨1, 0⟩, 1, 24, 2, 3) := by decide

theorem test_stepSubchunk_p2 : pick (fun t => (t.phase, t.sub, t.olen, t.ip, t.bqVal, t.bqCnt)) (exec .stepSubchunk p2Sub)
    = some (.perSubchunk, 1, 8, 31, 0, 10) := by decide

theorem test_endBlock_last : pick (fun t => (t.blk, t.phase)) (exec .endBlock { p2Sub with sub := 2 }) = some (1, .done) := by decide

theorem test_endBlock_more : pick (fun t => (t.blk, t.phase)) (exec .endBlock { p2Sub with sub := 2, hBlocks := 2 })
    = some (1, .perBlock) := by decide

theorem test_no_match_in_last_subchunk : pick (fun t => (t.phase, t.blk, t.elem))
    (step { p2Sub with sub := 1, ip := 31, bqVal := 0, bqCnt := 10 }) = some (.done, 1, .hdr) := by decide

/-! ### Witnesses: states and operands that meet the hypotheses of the statements, each clause at a boundary -/

theorem reads_of {s : State} (h : s.ip ≤ s.inLen ∧ s.bqVal < 2 ^ s.bqCnt ∧ s.bqCnt ≤ 15) : s.Reads := ⟨h.1, h.2.1, h.2.2⟩

theorem fits_of {s : State} {n cap : Nat} (hc : s.outCap = some cap) (h : s.olen + n ≤ cap) : s.fits n := fun c e => by
  rw [hc] at e
  injection e with e
  omega

theorem not_fits_of {s : State} {n cap : Nat} (hc : s.outCap = some cap) (h : cap < s.olen + n) : ¬ s.fits n := fun f => by
  have := f cap hc
  omega

theorem p2Match_inv : p2Match.Inv where
  reads := reads_of (by decide)
  slots := by
    intro r
    cases r <;> decide
  capacity := fun _ h => by cases h
  blocks := by decide
  inBlock := by decide
  inSubchunk := by decide
  inHeader := by decide
  error := by decide
  idle := fun h => by cases h
  inLenBound := by decide
  counts := by decide
  position := ⟨rfl, by decide⟩
  inSpace := by decide
  outSpace := by decide

theorem fours_suffixFree : suffixFree (buildTable fours) := by
  unfold suffixFree
  decide

theorem witness_BitElementsDecodeAfterEncode :
    ((Instr.pad2 3).wf = true ∧ (Instr.pad2 3).position = some .pad2 ∧ encode emptyTables (.pad2 3) = .bits 2 3) ∧
    ((Instr.huftab0 .lit).position = some (.tab .lit) ∧ encode emptyTables (.huftab0 .lit) = .bits 5 0) ∧
    ((Instr.huftab31 .cnt fours).wf = true ∧ (Instr.huftab31 .cnt fours).position = some (.tab .cnt) ∧
      encode emptyTables (.huftab31 .cnt fours) = .bits 69 0x08888888888888889F) ∧
    ((Instr.nsub 0xFFFF).position = some .nsub ∧ encode emptyTables (.nsub 0xFFFF) = .bits 16 0xFFFF) := by decide

theorem witness_HeaderDecodesAfterEncode :
    encode emptyTables (.hdr 24 41 0x1234 0xABCD 2 2) = .bytes [0x52, 0x4E, 0x43, 0x01, 0x00, 0x00, 0x00, 0x18, 0x00, 0x00,
      0x00, 0x29, 0x12, 0x34, 0xAB, 0xCD, 0x02, 0x02] := by decide

theorem witness_ValuesDecodeAfterEncode :
    let T := emptyTables.set .cnt (buildTable fours)
    suffixFree (T.get .cnt) ∧
    ((T.get .cnt)[(0 : Fin 16)].depth ≠ 0 ∧ (T.get .cnt)[(0 : Fin 16)].code.toNat < 2 ^ (T.get .cnt)[(0 : Fin 16)].depth.toNat ∧
      encode T (valInstr .cnt 0 0) = .bits 4 0) ∧
    ((T.get .cnt)[(15 : Fin 16)].depth ≠ 0 ∧ (T.get .cnt)[(15 : Fin 16)].code.toNat < 2 ^ (T.get .cnt)[(15 : Fin 16)].depth.toNat ∧
      encode T (valInstr .cnt 15 0x3FFF) = .bits 18 0x3FFFF) :=
  ⟨fours_suffixFree, by decide, by decide⟩

theorem witness_EncodeGivesBackTheBitsDecoded :
    decode .pad2 emptyTables [] 7 = .instr (.pad2 3) ∧
    decode (.tab .lit) emptyTables [] 0x1F = .instr (.huftab31 .lit (List.replicate 16 0)) ∧
    decode .nsub emptyTables [] 0x1FFFF = .instr (.nsub 0xFFFF) ∧
    decode .litVal p2Tables [] 3 = .instr (.val2 .lit 1) ∧ decode .distVal p2Tables [] 0 = .instr (.val1 .dist) ∧
    decode (.cntVal 1) p2Tables [] 2 = .instr (.val2 .cnt 1) := by decide

theorem witness_FetchReadsTheStream :
    ((stream (p1.take 3) .header .hdr).Reads ∧ (stream (p1.take 3) .header .hdr).fetch = .reject .truncated) ∧
    ((stream [0x58, 0x58, 0x58, 0x58] .header .hdr).Reads ∧
      (stream [0x58, 0x58, 0x58, 0x58] .header .hdr).fetch = .reject .badSignature) ∧
    ((stream (p1.take 17) .header .hdr).Reads ∧ (stream (p1.take 17) .header .hdr).fetch = .reject .truncated) ∧
    ((stream (p1.take 18) .header .hdr).Reads ∧ (stream (p1.take 18) .header .hdr).fetch = .instr (.hdr 3 0 0 0 0 1)) ∧
    ((stream [0x03] .header .pad2).Reads ∧ (stream [0x03] .header .pad2).elem = .pad2) ∧
    ((stream [] .perBlock (.tab .cnt)).Reads ∧ (stream [] .perBlock (.tab .cnt)).elem = .tab .cnt) ∧
    ((stream [] .perBlock .nsub).Reads ∧ (stream [] .perBlock .nsub).elem = .nsub) ∧
    (p2Sub.Reads ∧ p2Sub.elem = Role.lit.valPosition ∧ p2Sub.matchedSlot .lit = some 2) ∧
    (p2Match.Reads ∧ p2Match.elem = Role.dist.valPosition ∧ p2Match.matchedSlot .dist = some 1) ∧
    ((stream [] .perSubchunk (.cntVal 7)).Reads ∧ (stream [] .perSubchunk (.cntVal 7)).matchedSlot .cnt = none) ∧
    ((stream [] .perSubchunk (.litCopy 1)).Reads ∧ (stream [] .perSubchunk (.matchCopy 0 0)).Reads) :=
  ⟨⟨reads_of (by decide), by decide⟩, ⟨reads_of (by decide), by decide⟩, ⟨reads_of (by decide), by decide⟩,
    ⟨reads_of (by decide), by decide⟩, ⟨reads_of (by decide), by decide⟩, ⟨reads_of (by decide), by decide⟩,
    ⟨reads_of (by decide), by decide⟩, ⟨reads_of (by decide), by decide⟩, ⟨reads_of (by decide), by decide⟩,
    ⟨reads_of (by decide), by decide⟩, reads_of (by decide), reads_of (by decide)⟩

theorem witness_StepRunsTheDecodedElement :
    p2Sub.hostIn = [] ∧ p2Sub.busy = true ∧ p2Sub.fetch = .instr (.val2 .lit 1) ∧
    ∃ t, exec (.val2 .lit 1) p2Sub = .next t ∧ t.phase ≠ .failed :=
  ⟨rfl, rfl, by decide, _, rfl, by decide⟩

theorem witness_HostOperationRunsFirst :
    ({ p2Match with hostIn := [some .reset] } : State).hostIn = some .reset :: [] ∧
    ({ p2Match with hostIn := [some .start, none] } : State).hostIn = some .start :: [none] ∧
    ({ p2Match with hostIn := [none, some .start] } : State).hostIn = none :: [some .start] := ⟨rfl, rfl, rfl⟩

theorem witness_TerminalPhasesStand :
    (State.reset.hostIn = [] ∧ State.reset.phase = .idle) ∧
    ((stream p1 .done .hdr).hostIn = [] ∧ (stream p1 .done .hdr).phase = .done) ∧
    ((errorEntry .noMatch p2Match).hostIn = [] ∧ (errorEntry .noMatch p2Match).phase = .failed) := by decide

theorem witness_StartBeginsARunOrIsIgnored :
    (stream p1 .header .hdr).phase = .header ∧ (stream p1 .perBlock .nsub).phase = .perBlock ∧
    p2Match.phase = .perSubchunk ∧ State.reset.phase = .idle ∧ (stream p1 .done .hdr).phase = .done ∧
    (errorEntry .noMatch p2Match).phase = .failed := by decide

theorem witness_EveryStepKeepsInv : p2Match.Inv ∧ ∃ t, step p2Match = .next t := ⟨p2Match_inv, _, rfl⟩

theorem witness_NoStepStops : p2Match.Inv := p2Match_inv

theorem witness_RdbytesReadsOrTruncates :
    (y1.ip + 8 ≤ y1.inLen ∧ y1.inLen < y1.ip + 9) ∧ ({ y1 with ip := 8 } : State).ip + 0 ≤ y1.inLen := by decide

theorem witness_BigEndianReads :
    (({ y1 with ip := 4 } : State).ip + 4 ≤ y1.inLen ∧ y1.inLen < ({ y1 with ip := 5 } : State).ip + 4) ∧
    (({ y1 with ip := 6 } : State).ip + 2 ≤ y1.inLen ∧ y1.inLen < ({ y1 with ip := 7 } : State).ip + 2) ∧
    (({ y1 with ip := 7 } : State).ip + 1 ≤ y1.inLen ∧ y1.inLen < ({ y1 with ip := 8 } : State).ip + 1) := by decide

theorem witness_PeekShowsTheNextBits : ({ b1 with bqVal := 0x7FFF, bqCnt := 15 } : State).Reads ∧ 16 ≤ 16 ∧ 15 ≤ 15 :=
  ⟨reads_of (by decide), by decide, by decide⟩

theorem witness_RdbitsReadsTheNextBits : b1.Reads ∧ 0 ≤ 16 ∧ 16 ≤ 16 := ⟨reads_of (by decide), by decide, by decide⟩

theorem witness_RdbitsCutsTheStreamInOrder :
    ({ b1 with ip := 5, bqVal := 0x7FFF, bqCnt := 15 } : State).Reads ∧
    ∃ t, exec (.rdbits 16) { b1 with ip := 5, bqVal := 0x7FFF, bqCnt := 15 } = .next t :=
  ⟨reads_of (by decide), _, rfl⟩

theorem witness_WidthAboveSixteenIsRefused : 16 < 17 := by decide

theorem witness_ExhaustedStreamIsAnEmptyBlock :
    (stream [] .perBlock (.tab .lit)).Reads ∧ (stream [] .perBlock (.tab .lit)).ip = (stream [] .perBlock (.tab .lit)).inLen ∧
    (stream [] .perBlock (.tab .lit)).bqVal = 0 ∧ ({ stream [] .perBlock (.tab .lit) with bqCnt := 15 } : State).Reads :=
  ⟨reads_of (by decide), rfl, rfl, reads_of (by decide)⟩

theorem witness_MirrorReversesTheBits : (1 ≤ 1 ∧ 1 ≤ 15) ∧ 1 ≤ 15 ∧ 15 ≤ 15 := by decide

theorem witness_HuftabFormsWriteTheirTable :
    b1.Reads ∧ (0 ≤ 31 ∧ ([] : List (BitVec 4)).length = min 0 16) ∧ (15 ≤ 31 ∧ (List.replicate 15 (1 : BitVec 4)).length = min 15 16) ∧
    31 ≤ 31 ∧ fours.length = min 31 16 := ⟨reads_of (by decide), by decide, by decide, by decide, by decide⟩

theorem witness_CanonicalCodesArePrefixFree :
    kraftSum fours = 2 ^ 15 ∧ kraftSum [2, 1, 3, 3] ≤ 2 ^ 15 ∧ lengthAt [2, 1, 3, 3] (1 : Fin 16) ≠ 0 ∧
    lengthAt [2, 1, 3, 3] (1 : Fin 16) < lengthAt [2, 1, 3, 3] (0 : Fin 16) ∧
    lengthAt [2, 1, 3, 3] (2 : Fin 16) ≤ lengthAt [2, 1, 3, 3] (3 : Fin 16) ∧ kraftSum [] ≤ 2 ^ 15 ∧
    slotMatches 0xFFFF (buildTable fours)[(15 : Fin 16)] = true := by decide

theorem witness_DecvalDecodesTheFirstMatch :
    p2Sub.Reads ∧ p2Sub.matchedSlot .lit = some 2 ∧ p2Match.Reads ∧ p2Match.matchedSlot .dist = some 1 :=
  ⟨reads_of (by decide), by decide, reads_of (by decide), by decide⟩

theorem witness_DecvalWithoutMatchRaises :
    (installTable .lit [2] (stream [0x01, 0x00] .perSubchunk .litVal)).Reads ∧
    ∀ i : Fin 16, ((installTable .lit [2] (stream [0x01, 0x00] .perSubchunk .litVal)).tabs.get .lit)[i].depth ≠ 0 →
      (installTable .lit [2] (stream [0x01, 0x00] .perSubchunk .litVal)).streamField 0
          ((installTable .lit [2] (stream [0x01, 0x00] .perSubchunk .litVal)).tabs.get .lit)[i].depth.toNat
        ≠ ((installTable .lit [2] (stream [0x01, 0x00] .perSubchunk .litVal)).tabs.get .lit)[i].code.toNat :=
  ⟨reads_of (by decide), by decide⟩

theorem witness_CompleteCodeAlwaysMatches :
    (t6 []).Reads ∧ (t6 []).tabs.get .lit = buildTable fours ∧ kraftSum fours = 2 ^ 15 :=
  ⟨reads_of (by decide), rfl, by decide⟩

theorem witness_ValueBounds :
    (t6 [0xFF, 0xFF, 0x03, 0x00]).Reads ∧
    ∃ t, exec (.decval .lit) (t6 [0xFF, 0xFF, 0x03, 0x00]) = .next t ∧ t.err = (t6 [0xFF, 0xFF, 0x03, 0x00]).err ∧
      (t6 [0xFF, 0xFF, 0x03, 0x00]).err = none :=
  ⟨reads_of (by decide), _, rfl, rfl, rfl⟩

theorem witness_FormvalFormsTheValue : ({ b1 with bqCnt := 15 } : State).Reads := reads_of (by decide)

theorem witness_LowerValueClasses : (t6 []).Reads ∧ ∀ k : Fin 8, ((t6 []).slot .lit k).depth ≠ 0 :=
  ⟨reads_of (by decide), by decide⟩

theorem witness_UpperValueClasses : (t6 []).Reads ∧ ∀ k : Fin 8, ((t6 []).slot .lit (8 + k.val)).depth ≠ 0 :=
  ⟨reads_of (by decide), by decide⟩

theorem witness_CpylitCopiesOrRaises :
    let s : State := { p2Sub with outCap := some 3 }
    s.out.wf ∧ (s.ip + 3 ≤ s.inLen ∧ s.fits 3) ∧ s.inLen < s.ip + 4 ∧
    (({ s with outCap := some 2 } : State).ip + 3 ≤ s.inLen ∧ ¬ State.fits { s with outCap := some 2 } 3) :=
  ⟨Memory.wf_nil, ⟨by decide, fits_of rfl (by decide)⟩, by decide, by decide, not_fits_of rfl (by decide)⟩

theorem witness_CpymatchCopiesOrRaises :
    let s : State := { p2Match with outCap := some 8 }
    s.out.wf ∧ (3 ≤ s.olen ∧ s.fits 5) ∧ s.olen < 4 ∧ (3 ≤ s.olen ∧ ¬ s.fits 6) :=
  ⟨by decide, ⟨by decide, fits_of rfl (by decide)⟩, by decide, by decide, not_fits_of rfl (by decide)⟩

theorem witness_LitrunCopiesTheRun :
    (p2Sub.Reads ∧ State.litrunOk { p2Sub with outCap := some 3 } 2) ∧
    p2Tables = p2Sub.tabs ∧ State.litrunOk { p2Sub with ip := 31, bqVal := 0, outCap := some 0 } 0 :=
  ⟨⟨reads_of (by decide), by decide, .inr ⟨by decide, fits_of rfl (by decide)⟩⟩, rfl, by decide, .inl (by decide)⟩

theorem witness_LitrunErrors :
    ((installTable .lit [2] (stream [0x01, 0x00] .perSubchunk .litVal)).Reads ∧
      (installTable .lit [2] (stream [0x01, 0x00] .perSubchunk .litVal)).matchedSlot .lit = none) ∧
    (p2Sub.Reads ∧ p2Sub.matchedSlot .lit = some 2 ∧ p2Sub.valueOf .lit 2 ≠ 0) ∧
    30 < (State.afterBits { p2Sub with inLen := 30 } (State.valueBits { p2Sub with inLen := 30 } .lit 2)).ip
      + State.valueOf { p2Sub with inLen := 30 } .lit 2 ∧
    ((p2Sub.afterBits (p2Sub.valueBits .lit 2)).ip + p2Sub.valueOf .lit 2 ≤ p2Sub.inLen ∧
      ¬ State.fits { p2Sub with outCap := some 2 } (p2Sub.valueOf .lit 2)) :=
  ⟨⟨reads_of (by decide), by decide⟩, ⟨reads_of (by decide), by decide, by decide⟩, by decide, by decide,
    not_fits_of rfl (by decide)⟩

theorem witness_MatchCopiesFromTheOutput :
    p2Match.Reads ∧ p2Match.out.wf ∧ State.matchOk { p2Match with outCap := some 8 } 1 2 :=
  ⟨reads_of (by decide), by decide, by decide, by decide, by decide, fits_of rfl (by decide)⟩

theorem witness_MatchErrors :
    (State.reset.Reads ∧ State.reset.matchedSlot .dist = none) ∧
    (p2Match.Reads ∧ p2Match.matchedSlot .dist = some 1) ∧
    (State.matchedSlot { p2Match with tabs := p2Tables.set .cnt emptyTable } .dist = some 1 ∧
      (State.afterDist { p2Match with tabs := p2Tables.set .cnt emptyTable } 1).matchedSlot .cnt = none) ∧
    (p2Match.afterDist 1).matchedSlot .cnt = some 2 ∧
    ({ p2Match with olen := 1 } : State).olen < State.valueOf { p2Match with olen := 1 } .dist 1 + 1 ∧
    (p2Match.valueOf .dist 1 + 1 ≤ p2Match.olen ∧
      ¬ State.fits { p2Match with outCap := some 7 } ((p2Match.afterDist 1).valueOf .cnt 2 + 2)) :=
  ⟨⟨reads_of (by decide), by decide⟩, ⟨reads_of (by decide), by decide⟩, by decide, by decide, by decide, by decide,
    not_fits_of rfl (by decide)⟩

theorem witness_HdrLoadsOrRaises :
    ((stream (p1.take 18) .header .hdr).ip + 18 ≤ (stream (p1.take 18) .header .hdr).inLen ∧
      (stream (p1.take 18) .header .hdr).be32At 0 = 0x524E4301) ∧
    (stream (p1.take 3) .header .hdr).inLen < 4 ∧
    (4 ≤ (stream [0x58, 0x58, 0x58, 0x58] .header .hdr).inLen ∧
      (stream [0x58, 0x58, 0x58, 0x58] .header .hdr).be32At 0 ≠ 0x524E4301) ∧
    (4 ≤ (stream (p1.take 17) .header .hdr).inLen ∧ (stream (p1.take 17) .header .hdr).be32At 0 = 0x524E4301 ∧
      (stream (p1.take 17) .header .hdr).inLen < 18) := by decide

theorem witness_HeaderStepReadsTheFields :
    let good := stream (p1.take 18) .header .hdr
    (good.hostIn = [] ∧ good.phase = .header ∧ good.elem = .hdr) ∧ (good.ip + 18 ≤ good.inLen ∧ good.be32At 0 = 0x524E4301) ∧
    (stream (p1.take 3) .header .hdr).inLen < 4 ∧
    (stream [0x58, 0x58, 0x58, 0x58] .header .hdr).be32At 0 ≠ 0x524E4301 ∧
    ((stream (p1.take 17) .header .hdr).be32At 0 = 0x524E4301 ∧ (stream (p1.take 17) .header .hdr).inLen < 18) := by decide

theorem witness_Pad2AndNsubConsumeTheirBits : ({ b1 with bqVal := 1, bqCnt := 1 } : State).Reads := reads_of (by decide)

theorem witness_StepHeaderResult :
    ((stream (p1.take 18) .header .hdr).Reads ∧ (stream (p1.take 18) .header .hdr).headerOk) ∧
    ((stream (p1.take 3) .header .hdr).Reads ∧ (stream (p1.take 3) .header .hdr).inLen < 4) ∧
    ((stream [0x58, 0x58, 0x58, 0x58] .header .hdr).Reads ∧
      (stream [0x58, 0x58, 0x58, 0x58] .header .hdr).be32At 0 ≠ 0x524E4301) ∧
    ((stream (p1.take 17) .header .hdr).Reads ∧ (stream (p1.take 17) .header .hdr).inLen < 18) :=
  ⟨⟨reads_of (by decide), by decide, by decide⟩, ⟨reads_of (by decide), by decide⟩, ⟨reads_of (by decide), by decide⟩,
    reads_of (by decide), by decide⟩

theorem witness_StepBlockResult : (stream [] .perBlock (.tab .lit)).Reads := reads_of (by decide)

theorem witness_StepSubchunkResult :
    (p2Sub.phase = .perSubchunk ∧ p2Sub.sub < p2Sub.nsub) ∧
    (∃ t, exec .litrun { p2Sub with outCap := some 2 } = .next t ∧ t.phase = .failed) ∧
    (({ p2Sub with sub := 1 } : State).sub + 1 = p2Sub.nsub ∧ ∃ t, exec .litrun { p2Sub with sub := 1 } = .next t ∧ t.phase ≠ .failed) ∧
    (∃ t u, exec .litrun { p2Sub with outCap := some 7 } = .next t ∧ t.phase ≠ .failed ∧ p2Sub.sub + 1 < p2Sub.nsub ∧
      exec .lzmatch t = .next u ∧ u.phase = .failed) ∧
    ∃ t u, exec .litrun p2Sub = .next t ∧ t.phase ≠ .failed ∧ exec .lzmatch t = .next u ∧ u.phase ≠ .failed :=
  ⟨by decide, ⟨_, rfl, by decide⟩, ⟨by decide, _, rfl, by decide⟩, ⟨_, _, rfl, by decide, by decide, rfl, by decide⟩,
    _, _, rfl, by decide, rfl, by decide⟩

theorem witness_StepSubchunkCompletes :
    (p2Sub.Reads ∧ p2Sub.out.wf ∧ p2Sub.litrunOk 2) ∧ ({ p2Sub with sub := 1 } : State).sub + 1 = p2Sub.nsub ∧
    p2Sub.sub + 1 < p2Sub.nsub ∧ (p2Sub.afterLitrun 2).matchOk 1 2 :=
  ⟨⟨reads_of (by decide), Memory.wf_nil, by decide, .inr ⟨by decide, fun _ h => (by cases h)⟩⟩, by decide, by decide, by decide,
    by decide, by decide, fun _ h => (by cases h)⟩

theorem witness_HeaderElementsRefineStepHeader :
    (stream p1 .header .hdr).Reads ∧ (stream p1 .header .hdr).hostIn = [] ∧ (stream p1 .header .hdr).ret = .unit ∧
    (stream p1 .header .hdr).phase = .header ∧ (stream p1 .header .hdr).elem = .hdr :=
  ⟨reads_of (by decide), rfl, rfl, rfl, rfl⟩

theorem witness_BlockElementsRefineStepBlock :
    (stream [] .perBlock (.tab .lit)).Reads ∧ (stream [] .perBlock (.tab .lit)).hostIn = [] ∧
    (stream [] .perBlock (.tab .lit)).ret = .unit ∧ (stream [] .perBlock (.tab .lit)).phase = .perBlock ∧
    (stream [] .perBlock (.tab .lit)).elem = .tab .lit := ⟨reads_of (by decide), rfl, rfl, rfl, rfl⟩

theorem witness_SubchunkElementsRefineStepSubchunk :
    p2Sub.Reads ∧ p2Sub.hostIn = [] ∧ p2Sub.ret = .unit ∧ p2Sub.phase = .perSubchunk ∧ p2Sub.elem = .litVal :=
  ⟨reads_of (by decide), rfl, rfl, rfl, rfl⟩

theorem witness_EveryRunTerminates :
    (stream p1 .idle .hdr).phase = .idle ∧ (stream p1 .done .hdr).phase = .done ∧ (errorEntry .noMatch p2Match).phase = .failed := by
  decide

theorem witness_EveryElementRunTerminates : p2Match.Inv ∧ p2Match.hostIn = [] := ⟨p2Match_inv, rfl⟩

theorem witness_NoInstructionWritesTheInput : ∃ t, exec .litrun p2Sub = .next t := ⟨_, rfl⟩

theorem witness_OutputIsAppendOnly :
    Instr.lzmatch ≠ .reset ∧ Instr.lzmatch ≠ .start ∧ p2Match.out.wf ∧
    ∃ t, exec .lzmatch { p2Match with outCap := some 8 } = .next t ∧ 3 ≤ 8 := ⟨by decide, by decide, by decide, _, rfl, by decide⟩

theorem witness_EveryInstructionKeepsTheStreamPosition :
    p2Sub.Reads ∧ ∃ t, exec .litrun p2Sub = .next t ∧ Instr.litrun ≠ .reset ∧ Instr.litrun ≠ .start :=
  ⟨reads_of (by decide), _, rfl, by decide, by decide⟩

theorem witness_TablesAreWrittenByTheirOwnersOnly :
    (∀ r, Instr.litrun.position ≠ some (.tab r)) ∧ Instr.litrun ≠ .stepBlock ∧ ∃ t, exec .litrun p2Sub = .next t :=
  ⟨nofun, by decide, _, rfl⟩

theorem witness_HeaderRegistersAreWrittenByTheirOwnersOnly :
    Instr.stepBlock.position ≠ some .hdr ∧ Instr.stepBlock ≠ .stepHeader ∧ ∃ t, exec .stepBlock p2Sub = .next t :=
  ⟨by decide, by decide, _, rfl⟩

theorem witness_ErrorsAreRecordedByErrorEntryOnly :
    ∃ t, exec (.decval .dist) State.reset = .next t ∧ t.err ≠ State.reset.err ∧ Instr.decval .dist ≠ .reset ∧
      Instr.decval .dist ≠ .start := ⟨_, rfl, by decide, by decide, by decide⟩

theorem witness_UnusedHeaderFieldsHaveNoEffect :
    p2Match.hostIn = [] ∧ p2Match.elem ≠ .hdr ∧ ∃ t, stepRun 1 p2Match = .next t := ⟨rfl, by decide, _, rfl⟩

end Sys2Proof.Tests
end

section
/-! SUPPORT. What an operation may write. The registers are grouped into banks; `Run W s t` says that `s` becomes `t` by
writes to the banks in `W` alone, and `Ends W s t` that error entry may close the run (60_exceptions.md rule R183).
`exec_ends` says this of all 72 rows at once, with the banks of each row, so that what an operation keeps is read off
from what one write keeps (10_state.md rules R12 to R23). -/

namespace Sys2Proof.Machine

/-- The groups of registers that are written together. -/
inductive Bank where
  /-- the cursor and the bit queue (rules R14, R15) -/
  | stream
  /-- the model's own `ret` (log entry 3) -/
  | value
  /-- the three tables (rule R18) -/
  | tables
  /-- the seven header registers (rule R16) -/
  | header
  /-- `OUT` and `olen` (rules R20, R41) -/
  | output
  /-- `nsub` as a count read from the stream (rule R13) -/
  | count
  /-- `phase`, `blk`, `sub` and the model's own `elem` (rules R12, R13) -/
  | control

/-- One write, to a bank in `W`. -/
inductive Write (W : Bank → Prop) (s : State) : State → Prop
  /-- bits leave the queue, with a refill where needed -/
  | bits (n : Nat) (h : W .stream) (hn : n ≤ 16) : Write W s (rdBits n s).2
  /-- a word is fetched -/
  | word (h : W .stream) : Write W s (fetched s)
  /-- the cursor passes `n` bytes that are there -/
  | bytes (n : Nat) (h : W .stream) (hn : s.ip + n ≤ s.inLen) : Write W s { s with ip := s.ip + n }
  | value (v : Result) (h : W .value) : Write W s { s with ret := v }
  | table (r : Role) (lens : List (BitVec 4)) (h : W .tables) : Write W s (installTable r lens s)
  | header (g u p : BitVec 32) (c k : BitVec 16) (m b : BitVec 8) (h : W .header) :
      Write W s { s with hSig := g, hUlen := u, hPlen := p, hCrc1 := c, hCrc2 := k, hMargin := m, hBlocks := b }
  /-- a byte is appended, for which there is room -/
  | append (v : Byte) (h : W .output) (hf : s.fits 1) : Write W s (appendOut v s)
  | count (n : Nat) (h : W .count) : Write W s { s with nsub := n }
  | control (p : Phase) (b n : Nat) (e : Elem) (h : W .control) :
      Write W s { s with phase := p, blk := b, sub := n, elem := e }

/-- Writes one after another. -/
abbrev Run (W : Bank → Prop) : State → State → Prop := Relation.ReflTransGen (Write W)

/-- A run that may be closed by error entry, after which nothing is written (rules R6, R183). -/
def Ends (W : Bank → Prop) (s t : State) : Prop := Run W s t ∨ ∃ e u, Run W s u ∧ t = errorEntry e u

/-- An operation of the pseudocode writes banks in `W` alone, and raises by error entry alone. -/
def Res.Runs {α : Type} (W : Bank → Prop) (s : State) : Res α → Prop
  | .ok _ t => Run W s t
  | .raised t => ∃ e u, Run W s u ∧ t = errorEntry e u

variable {W : Bank → Prop} {s t : State} {α β : Type}

/-! ### Composition -/

theorem Write.run (h : Write W s t) : Run W s t := Relation.ReflTransGen.single h

theorem Res.Runs.raise (e : Error) (s : State) : (raise e s : Res α).Runs W s := ⟨e, s, .refl, rfl⟩

theorem Res.Runs.ok {a : α} (h : Run W s t) : (Res.ok a t).Runs W s := h

/-- What runs after a run, runs. -/
theorem Res.Runs.after {r : Res α} (hst : Run W s t) (h : r.Runs W t) : r.Runs W s := by
  cases r with
  | ok a u => exact hst.trans h
  | raised u =>
    obtain ⟨e, v, hv, rfl⟩ := h
    exact ⟨e, v, hst.trans hv, rfl⟩

theorem Res.Runs.andThen {r : Res α} {f : α → State → Res β} (hr : r.Runs W s)
    (hf : ∀ a t, r = .ok a t → (f a t).Runs W t) : (r.andThen f).Runs W s := by
  cases r with
  | ok a t => exact .after hr (hf a t rfl)
  | raised t => exact hr

theorem Res.Runs.finish {r : Res Unit} (h : r.Runs W s) (e : r.finish = .next t) : Ends W s t := by
  cases r with
  | ok a u => cases e; exact .inl h
  | raised u => cases e; exact .inr h

theorem Res.Runs.finishValue {r : Res Nat} (hv : W .value) (h : r.Runs W s) (e : r.finishValue = .next t) :
    Ends W s t := by
  cases r with
  | ok a u => cases e; exact .inl (Relation.ReflTransGen.tail h (.value _ hv))
  | raised u => cases e; exact .inr h

theorem Res.Runs.finishBytes {r : Res (List Byte)} (hv : W .value) (h : r.Runs W s) (e : r.finishBytes = .next t) :
    Ends W s t := by
  cases r with
  | ok a u => cases e; exact .inl (Relation.ReflTransGen.tail h (.value _ hv))
  | raised u => cases e; exact .inr h

/-! ### Byte reader and bit queue (40_byte_and_bit_reader.md) -/

theorem rdBytes_runs (h : W .stream) (n : Nat) (s : State) : (rdBytes n s).Runs W s := by
  by_cases hn : s.ip + n ≤ s.inLen
  · rw [rdBytes_ok hn]
    exact .ok (Write.bytes n h hn).run
  · rw [rdBytes_short (by omega)]
    exact .raise _ _

theorem rdBe32_runs (h : W .stream) (s : State) : (rdBe32 s).Runs W s :=
  (rdBytes_runs h 4 s).andThen fun _ _ _ => .ok .refl

theorem rdBe16_runs (h : W .stream) (s : State) : (rdBe16 s).Runs W s :=
  (rdBytes_runs h 2 s).andThen fun _ _ _ => .ok .refl

theorem rdU8_runs (h : W .stream) (s : State) : (rdU8 s).Runs W s :=
  (rdBytes_runs h 1 s).andThen fun _ _ _ => .ok .refl

theorem rdBits_run (h : W .stream) {n : Nat} (hn : n ≤ 16) (s : State) : Run W s (rdBits n s).2 := (Write.bits n h hn).run

theorem rdLengths_run (h : W .stream) (n : Nat) (s : State) : Run W s (rdLengths n s).2 := by
  induction n generalizing s with
  | zero => exact .refl
  | succ n ih => exact (rdBits_run h (by decide) s).trans (ih _)

theorem takeDescriptor_run (h : W .stream) (count : Nat) (s : State) : Run W s (takeDescriptor count s) :=
  (rdBits_run h (by decide) s).trans (rdLengths_run h _ _)

theorem takeValue_run (h : W .stream) (r : Role) {k : Nat} (hk : k < 16) (s : State) : Run W s (takeValue r k s) := by
  have hd := slot_depth_lt ((s.tabs.get r).toList.getD k unusedSlot)
  have hcode : Run W s (rdBits ((s.tabs.get r).toList.getD k unusedSlot).depth.toNat s).2 := rdBits_run h (by omega) s
  unfold takeValue
  split
  · exact hcode
  · exact hcode.trans (rdBits_run h (by omega) _)

/-! ### Tables and values (41_huffman_table_builder.md, 42_value_decode.md) -/

theorem huftabForm_ends (h : W .stream) (ht : W .tables) (count : Nat) (r : Role) (lens : List (BitVec 4)) (s : State)
    (e : huftabForm count r lens s = .next t) : Ends W s t := by
  cases e
  exact .inl ((takeDescriptor_run h count s).tail (.table r lens ht))

theorem huftab_run (h : W .stream) (ht : W .tables) (r : Role) (s : State) : Run W s (huftab r s) :=
  ((rdBits_run h (by decide) s).trans (rdLengths_run h _ _)).tail (.table r _ ht)

theorem valForm_ends (h : W .stream) (hv : W .value) {k : Nat} (hk : k < 16) (r : Role) (v : Nat) (s : State)
    (e : valForm k r v s = .next t) : Ends W s t := by
  cases e
  exact .inl ((takeValue_run h r hk s).tail (.value _ hv))

theorem formVal_run (h : W .stream) {k : Nat} (hk : k < 16) (s : State) : Run W s (formVal k s).2 := by
  unfold formVal
  split
  · exact .refl
  · exact rdBits_run h (by omega) s

/-- The scan answers an index below 16 and the depth of a slot. -/
theorem scanSlots_bounds {p k d : Nat} {T : Table} (h : scanSlots p T.toList 0 = some (k, d)) : k < 16 ∧ d ≤ 15 := by
  rw [scanSlots_eq] at h
  obtain ⟨i, hi, he⟩ := Option.map_eq_some_iff.1 h
  have hlt := List.mem_range.1 (List.mem_of_find?_eq_some hi)
  rw [Vector.length_toList] at hlt
  simp only [Prod.mk.injEq] at he
  obtain ⟨rfl, rfl⟩ := he
  exact ⟨by omega, slot_depth_lt _⟩

theorem decVal_runs (h : W .stream) (r : Role) (s : State) : (decVal r s).Runs W s := by
  unfold decVal
  split
  case h_1 => exact .raise _ _
  case h_2 k d hscan =>
    obtain ⟨hk, hd⟩ := scanSlots_bounds hscan
    exact .ok ((rdBits_run h (by omega) s).trans (formVal_run h hk _))

/-! ### Copies (43_lz_expander.md) -/

theorem fits_of_le {n m : Nat} (h : s.fits n) (hm : m ≤ n) : s.fits m := fun cap hc => by
  have := h cap hc
  omega

theorem fits_appendOut {n : Nat} (v : Byte) (h : s.fits (n + 1)) : (appendOut v s).fits n := fun cap hc => by
  have := h cap hc
  simp only [appendOut_olen]
  omega

theorem copyLiteral_run (h : W .stream) (ho : W .output) (n : Nat) {s : State} (hip : s.ip + n ≤ s.inLen)
    (hf : s.fits n) : Run W s (copyLiteral n s) := by
  induction n generalizing s with
  | zero => exact .refl
  | succ n ih =>
    have happ : Run W s (appendOut (s.inMem.read s.ip) s) := (Write.append _ ho (fits_of_le hf (by omega))).run
    refine (happ.tail (.bytes 1 h (by simp; omega))).trans (ih ?_ (fits_appendOut (s.inMem.read s.ip) hf))
    simp only [appendOut_ip, appendOut_inLen]
    omega

theorem copyMatch_run (ho : W .output) (L0 d n j : Nat) {s : State} (hf : s.fits n) :
    Run W s (copyMatch L0 d n j s) := by
  induction n generalizing s j with
  | zero => exact .refl
  | succ n ih =>
    exact (Write.append _ ho (fits_of_le hf (by omega))).run.trans (ih _ (fits_appendOut _ hf))

theorem cpyLit_runs (h : W .stream) (ho : W .output) (n : Nat) (s : State) : (cpyLit n s).Runs W s := by
  unfold cpyLit
  split
  · exact .raise _ _
  · split
    · exact .raise _ _
    · rename_i hip hc
      exact .ok (copyLiteral_run h ho n (by omega) ((overCap_iff n s).1 (by simpa using hc)))

theorem cpyMatch_runs (ho : W .output) (d c : Nat) (s : State) : (cpyMatch d c s).Runs W s := by
  unfold cpyMatch
  split
  · exact .raise _ _
  · split
    · exact .raise _ _
    · rename_i hc
      exact .ok (copyMatch_run ho _ _ _ _ ((overCap_iff c s).1 (by simpa using hc)))

theorem litRun_runs (h : W .stream) (ho : W .output) (s : State) : (litRun s).Runs W s :=
  (decVal_runs h .lit s).andThen fun run t _ => by
    split
    · exact cpyLit_runs h ho run t
    · exact .ok .refl

theorem lzMatch_runs (h : W .stream) (ho : W .output) (s : State) : (lzMatch s).Runs W s :=
  (decVal_runs h .dist s).andThen fun _ t _ =>
    (decVal_runs h .cnt t).andThen fun _ u _ => cpyMatch_runs ho _ _ u

/-! ### The sequencer (44_sequencer.md) -/

theorem hdrSignature_runs (h : W .stream) (hh : W .header) (s : State) : (hdrSignature s).Runs W s :=
  (rdBytes_runs h 4 s).andThen fun b t _ => by
    have hsig (g : BitVec 32) : Run W t { t with hSig := g } :=
      (Write.header g t.hUlen t.hPlen t.hCrc1 t.hCrc2 t.hMargin t.hBlocks hh).run
    dsimp only
    split
    · exact .after (hsig _) (.raise _ _)
    · exact .ok (hsig _)

theorem hdrGate_runs (h : W .stream) (hh : W .header) (s : State) : (hdrGate s).Runs W s :=
  (hdrSignature_runs h hh s).andThen fun _ t _ => by
    split
    · exact .raise _ _
    · exact .ok .refl

/-- Past the gate there are 14 more bytes. -/
theorem hdrGate_room {a : Unit} (h : hdrGate s = .ok a t) : t.ip + 14 ≤ t.inLen := by
  unfold hdrGate at h
  cases hs : hdrSignature s with
  | raised u => rw [hs] at h; cases h
  | ok b u =>
    rw [hs, andThen_ok] at h
    split at h
    · cases h
    · cases h
      omega

theorem execHdr_ends (h : W .stream) (hh : W .header) (u p : BitVec 32) (c k : BitVec 16) (m b : BitVec 8) (s : State)
    (e : execHdr u p c k m b s = .next t) : Ends W s t := by
  refine ((hdrGate_runs h hh s).andThen fun a v hv => ?_).finish e
  exact .ok ((Write.bytes 14 h (hdrGate_room hv)).run.tail (.header v.hSig u p c k m b hh))

theorem hdr_runs (h : W .stream) (hh : W .header) (s : State) : (hdr s).Runs W s := by
  refine (hdrGate_runs h hh s).andThen fun _ a _ => (rdBe32_runs h a).andThen fun u b _ => ?_
  refine .after (Write.header b.hSig (BitVec.ofNat 32 u) b.hPlen b.hCrc1 b.hCrc2 b.hMargin b.hBlocks hh).run ?_
  refine (rdBe32_runs h _).andThen fun p c _ => ?_
  refine .after (Write.header c.hSig c.hUlen (BitVec.ofNat 32 p) c.hCrc1 c.hCrc2 c.hMargin c.hBlocks hh).run ?_
  refine (rdBe16_runs h _).andThen fun x d _ => ?_
  refine .after (Write.header d.hSig d.hUlen d.hPlen (BitVec.ofNat 16 x) d.hCrc2 d.hMargin d.hBlocks hh).run ?_
  refine (rdBe16_runs h _).andThen fun y e _ => ?_
  refine .after (Write.header e.hSig e.hUlen e.hPlen e.hCrc1 (BitVec.ofNat 16 y) e.hMargin e.hBlocks hh).run ?_
  refine (rdU8_runs h _).andThen fun m f _ => ?_
  refine .after (Write.header f.hSig f.hUlen f.hPlen f.hCrc1 f.hCrc2 (BitVec.ofNat 8 m) f.hBlocks hh).run ?_
  refine (rdU8_runs h _).andThen fun n g _ => ?_
  exact .ok (Write.header g.hSig g.hUlen g.hPlen g.hCrc1 g.hCrc2 g.hMargin (BitVec.ofNat 8 n) hh).run

theorem endBlock_run (hc : W .control) (s : State) : Run W s (endBlock s) := by
  unfold endBlock
  split <;> exact (Write.control _ _ s.sub _ hc).run

theorem endHeader_run (hc : W .control) (s : State) : Run W s (endHeader s) := by
  unfold endHeader
  split <;> exact (Write.control _ _ s.sub _ hc).run

theorem beginSubchunks_run (hc : W .control) (s : State) : Run W s (beginSubchunks s) := by
  unfold beginSubchunks
  split
  · exact (Write.control s.phase s.blk 0 s.elem hc).run.trans (endBlock_run hc _)
  · exact (Write.control .perSubchunk s.blk 0 .litVal hc).run

theorem endSubchunk_run (hc : W .control) (s : State) : Run W s (endSubchunk s) := by
  unfold endSubchunk
  split
  · exact (Write.control s.phase s.blk (s.sub + 1) s.elem hc).run.trans (endBlock_run hc _)
  · exact (Write.control s.phase s.blk (s.sub + 1) .litVal hc).run

theorem advance_run (hv : W .value) (hc : W .control) (pos : Elem) (s : State) : Run W s (advance pos s) := by
  have hret : Run W s { s with ret := .unit } := (Write.value .unit hv).run
  have hgoto (e : Elem) : Run W s { s with ret := .unit, elem := e } :=
    hret.tail (.control s.phase s.blk s.sub e hc)
  have hend : Run W s (endSubchunk { s with ret := .unit }) := hret.trans (endSubchunk_run hc _)
  have hlit : Run W s (if hasMatch { s with ret := .unit } then { s with ret := .unit, elem := .distVal }
      else endSubchunk { s with ret := .unit }) := by
    split
    · exact hgoto _
    · exact hend
  unfold advance
  dsimp only
  split
  case h_2 => exact hret.trans (endHeader_run hc _)
  case h_6 => exact hret.trans (beginSubchunks_run hc _)
  case h_7 =>
    split
    · exact hgoto _
    · exact hlit
  case h_8 => exact hlit
  case h_11 => exact hend
  case h_12 | h_13 | h_14 => exact hret
  all_goals exact hgoto _

theorem rdNsub_run (h : W .stream) (hn : W .count) (s : State) : Run W s (rdNsub s) :=
  (rdBits_run h (by decide) s).tail (.count _ hn)

theorem stepHeader_runs (h : W .stream) (hh : W .header) (hc : W .control) (s : State) : (stepHeader s).Runs W s :=
  (hdr_runs h hh s).andThen fun _ t _ => .ok ((rdBits_run h (by decide) t).trans (endHeader_run hc _))

theorem stepBlock_runs (h : W .stream) (ht : W .tables) (hn : W .count) (hc : W .control) (s : State) :
    (stepBlock s).Runs W s := by
  have htabs : Run W s (huftab .cnt (huftab .dist (huftab .lit s))) :=
    ((huftab_run h ht .lit s).trans (huftab_run h ht .dist _)).trans (huftab_run h ht .cnt _)
  exact .ok ((htabs.trans (rdNsub_run h hn _)).trans (beginSubchunks_run hc _))

theorem stepSubchunk_runs (h : W .stream) (ho : W .output) (hc : W .control) (s : State) :
    (stepSubchunk s).Runs W s := by
  refine (litRun_runs h ho s).andThen fun _ t _ => Res.Runs.andThen ?_ fun _ u _ => .ok (endSubchunk_run hc u)
  split
  · exact lzMatch_runs h ho t
  · exact .ok .refl

/-! ### All rows -/

/-- The banks a row may write. -/
def mayWrite (i : Instr) : Bank → Prop
  | .stream | .value | .output => True
  | .tables => (∃ r, i.position = some (.tab r)) ∨ i = .stepBlock
  | .header => i.position = some .hdr ∨ i = .stepHeader
  | .count => i.position = some .nsub ∨ i = .stepBlock
  | .control => i = .stepHeader ∨ i = .stepBlock ∨ i = .stepSubchunk ∨ i = .endBlock

/-- Every row but the two host operations writes its banks alone, and raises by error entry alone. -/
theorem exec_ends {i : Instr} (hr : i ≠ .reset) (hs : i ≠ .start) (e : exec i s = .next t) : Ends (mayWrite i) s t := by
  cases i with
  | hdr u p c k m b => exact execHdr_ends trivial (.inl rfl) u p c k m b s e
  | pad2 v => cases e; exact .inl (rdBits_run trivial (by decide) s)
  | huftab0 r => exact huftabForm_ends trivial (.inl ⟨r, rfl⟩) 0 r [] s e
  | huftab1 r l | huftab2 r l | huftab3 r l | huftab4 r l | huftab5 r l | huftab6 r l | huftab7 r l | huftab8 r l
  | huftab9 r l | huftab10 r l | huftab11 r l | huftab12 r l | huftab13 r l | huftab14 r l | huftab15 r l
  | huftab16 r l | huftab17 r l | huftab18 r l | huftab19 r l | huftab20 r l | huftab21 r l | huftab22 r l
  | huftab23 r l | huftab24 r l | huftab25 r l | huftab26 r l | huftab27 r l | huftab28 r l | huftab29 r l
  | huftab30 r l | huftab31 r l => exact huftabForm_ends trivial (.inl ⟨r, rfl⟩) _ r l s e
  | nsub n => cases e; exact .inl ((rdBits_run trivial (by decide) s).tail (.count _ (.inl rfl)))
  | val0 r => exact valForm_ends (k := 0) trivial trivial (by decide) r _ s e
  | val1 r => exact valForm_ends (k := 1) trivial trivial (by decide) r _ s e
  | val2 r x | val3 r x | val4 r x | val5 r x | val6 r x | val7 r x | val8 r x | val9 r x | val10 r x | val11 r x
  | val12 r x | val13 r x | val14 r x | val15 r x =>
    exact valForm_ends trivial trivial (by decide) r x.toNat s e
  | litrun => exact (litRun_runs trivial trivial s).finish e
  | lzmatch => exact (lzMatch_runs trivial trivial s).finish e
  | reset => exact absurd rfl hr
  | start => exact absurd rfl hs
  | rdbytes n => exact (rdBytes_runs trivial n s).finishBytes trivial e
  | rdbe32 => exact (rdBe32_runs trivial s).finishValue trivial e
  | rdbe16 => exact (rdBe16_runs trivial s).finishValue trivial e
  | rdu8 => exact (rdU8_runs trivial s).finishValue trivial e
  | lookw => cases e; exact .inl (Write.value _ trivial).run
  | fetchw => cases e; exact .inl ((Write.word trivial).run.tail (.value _ trivial))
  | peek n =>
    simp only [exec, execPeek] at e
    split at e
    · cases e
    · cases e; exact .inl (Write.value _ trivial).run
  | rdbits n =>
    simp only [exec, execRdbits] at e
    split at e
    · cases e
    · rename_i hn
      cases e
      exact .inl ((rdBits_run trivial (Nat.not_lt.1 hn) s).tail (.value _ trivial))
  | mirror c w => cases e; exact .inl (Write.value _ trivial).run
  | decval r => exact (decVal_runs trivial r s).finishValue trivial e
  | formval k => cases e; exact .inl ((formVal_run trivial k.isLt s).tail (.value _ trivial))
  | cpylit n => exact (cpyLit_runs trivial trivial n s).finish e
  | cpymatch d c =>
    simp only [exec, execCpymatch] at e
    split at e
    · cases e
    · exact (cpyMatch_runs trivial d c s).finish e
  | stepHeader => exact (stepHeader_runs trivial (.inr rfl) (.inl rfl) s).finish e
  | stepBlock => exact (stepBlock_runs trivial (.inr rfl) (.inr rfl) (.inr (.inl rfl)) s).finish e
  | stepSubchunk => exact (stepSubchunk_runs trivial trivial (.inr (.inr (.inl rfl))) s).finish e
  | endBlock => cases e; exact .inl (endBlock_run (.inr (.inr (.inr rfl))) s)

end Sys2Proof.Machine
end

section
/-! SUPPORT. What a run keeps: each register outside the banks written, `err` and the host's list always, and the stream
position of rule R25 (a), (b), (c). -/

namespace Sys2Proof.Machine

variable {W : Bank → Prop} {s t : State}

/-- `RDBITS` writes the cursor and the queue alone (40_byte_and_bit_reader.md rule R97). -/
theorem rdBits_writes (n : Nat) (s : State) :
    (rdBits n s).2 =
      { s with ip := (rdBits n s).2.ip, bqVal := (rdBits n s).2.bqVal, bqCnt := (rdBits n s).2.bqCnt } := by
  simp only [rdBits, ensure]
  split <;> rfl

/-- What every write keeps, every run keeps. -/
theorem Run.keeps {α : Type} {f : State → α} (hf : ∀ s t, Write W s t → f t = f s) (h : Run W s t) : f t = f s := by
  induction h with
  | refl => rfl
  | tail _ hw ih => exact (hf _ _ hw).trans ih

/-- The registers of rule R16. -/
def State.headerRegs (s : State) :
    BitVec 32 × BitVec 32 × BitVec 32 × BitVec 16 × BitVec 16 × BitVec 8 × BitVec 8 :=
  (s.hSig, s.hUlen, s.hPlen, s.hCrc1, s.hCrc2, s.hMargin, s.hBlocks)

/-- What the sequencer's own writes change: phase, block and subchunk index, and the position (rules R12, R13). -/
def State.controlRegs (s : State) : Phase × Nat × Nat × Elem := (s.phase, s.blk, s.sub, s.elem)

theorem Write.tabs_eq (hW : ¬ W .tables) (h : Write W s t) : t.tabs = s.tabs := by
  cases h with
  | bits n => rw [rdBits_writes]
  | table r lens h => exact absurd h hW
  | _ => rfl

theorem Write.headerRegs_eq (hW : ¬ W .header) (h : Write W s t) : t.headerRegs = s.headerRegs := by
  cases h with
  | bits n => rw [rdBits_writes]; rfl
  | header g u p c k m b h => exact absurd h hW
  | _ => rfl

theorem Write.controlRegs_eq (hW : ¬ W .control) (h : Write W s t) : t.controlRegs = s.controlRegs := by
  cases h with
  | bits n => rw [rdBits_writes]; rfl
  | control p b n e h => exact absurd h hW
  | _ => rfl

theorem Write.nsub_eq (hW : ¬ W .count) (h : Write W s t) : t.nsub = s.nsub := by
  cases h with
  | bits n => rw [rdBits_writes]
  | count n h => exact absurd h hW
  | _ => rfl

theorem Write.err_eq (h : Write W s t) : t.err = s.err := by
  cases h with
  | bits n => rw [rdBits_writes]
  | _ => rfl

theorem Write.hostIn_eq (h : Write W s t) : t.hostIn = s.hostIn := by
  cases h with
  | bits n => rw [rdBits_writes]
  | _ => rfl

theorem Run.headerRegs_eq (hW : ¬ W .header) (h : Run W s t) : t.headerRegs = s.headerRegs :=
  h.keeps fun _ _ hw => hw.headerRegs_eq hW

theorem Run.controlRegs_eq (hW : ¬ W .control) (h : Run W s t) : t.controlRegs = s.controlRegs :=
  h.keeps fun _ _ hw => hw.controlRegs_eq hW

theorem Run.nsub_eq (hW : ¬ W .count) (h : Run W s t) : t.nsub = s.nsub := h.keeps fun _ _ hw => hw.nsub_eq hW

theorem Run.err_eq (h : Run W s t) : t.err = s.err := h.keeps fun _ _ hw => hw.err_eq

theorem Run.hostIn_eq (h : Run W s t) : t.hostIn = s.hostIn := h.keeps fun _ _ hw => hw.hostIn_eq

/-- What a run that leaves the sequencer's registers alone keeps of them. -/
theorem Run.control_fields (hW : ¬ W .control) (h : Run W s t) :
    t.phase = s.phase ∧ t.blk = s.blk ∧ t.sub = s.sub ∧ t.elem = s.elem := by
  simpa only [State.controlRegs, Prod.mk.injEq] using h.controlRegs_eq hW

theorem Run.hBlocks_eq (hW : ¬ W .header) (h : Run W s t) : t.hBlocks = s.hBlocks := by
  have hregs := h.headerRegs_eq hW
  simp only [State.headerRegs, Prod.mk.injEq] at hregs
  obtain ⟨_, _, _, _, _, _, hblocks⟩ := hregs
  exact hblocks

/-- A register that neither the writes nor error entry touch. -/
theorem Ends.keeps {α : Type} {f : State → α} (hf : ∀ s t, Write W s t → f t = f s)
    (he : ∀ e u, f (errorEntry e u) = f u) (h : Ends W s t) : f t = f s := by
  rcases h with h | ⟨e, u, h, rfl⟩
  · exact h.keeps hf
  · exact (he e u).trans (h.keeps hf)

/-! ### The stream position (rule R25 a to c) -/

/-- A write keeps the queue well formed and the cursor inside `IN`, and the cursor does not fall (rule R99). -/
theorem Write.reads (hs : s.Reads) (h : Write W s t) : t.Reads ∧ s.ip ≤ t.ip := by
  have hip := hs.cursor
  cases h with
  | bits n _ hn =>
    rw [rdBits_eq hs hn]
    exact ⟨afterBits_reads hs n, by simp only [afterBits_ip]; omega⟩
  | word => exact ⟨⟨Nat.min_le_right _ _, hs.queueVal, hs.queueCnt⟩, by simp only [fetched_ip]; omega⟩
  | bytes n _ hn => exact ⟨⟨hn, hs.queueVal, hs.queueCnt⟩, Nat.le_add_right _ _⟩
  | _ => exact ⟨⟨hip, hs.queueVal, hs.queueCnt⟩, Nat.le_refl _⟩

theorem Run.reads (hs : s.Reads) (h : Run W s t) : t.Reads ∧ s.ip ≤ t.ip := by
  induction h with
  | refl => exact ⟨hs, Nat.le_refl _⟩
  | tail _ hw ih =>
    obtain ⟨hr, hle⟩ := ih
    obtain ⟨hr', hle'⟩ := hw.reads hr
    exact ⟨hr', hle.trans hle'⟩

theorem errorEntry_reads (e : Error) (hs : s.Reads) : (errorEntry e s).Reads := ⟨hs.cursor, hs.queueVal, hs.queueCnt⟩

theorem Ends.reads (hs : s.Reads) (h : Ends W s t) : t.Reads ∧ s.ip ≤ t.ip := by
  rcases h with h | ⟨e, u, h, rfl⟩
  · exact h.reads hs
  · obtain ⟨hr, hle⟩ := h.reads hs
    exact ⟨errorEntry_reads e hr, hle⟩

theorem clearRegisters_reads (p : Phase) (s : State) : (clearRegisters p s).Reads :=
  ⟨Nat.zero_le _, by simp, Nat.zero_le _⟩

/-- `START` either leaves the state or begins a run (44_sequencer.md rule R150). -/
theorem execStart_cases (h : execStart s = .next t) : t = s ∨ t = clearRegisters .header s := by
  unfold execStart at h
  split at h
  · cases h; exact .inl rfl
  · cases h; exact .inr rfl

end Sys2Proof.Machine
end

section
/-! The statements about what no operation does. -/

namespace Sys2Proof.Machine

/-- Settles O55: every write of a run keeps the position (`Write.reads`), and the two host operations set the cursor and
the queue to 0. -/
theorem everyInstructionKeepsTheStreamPosition : Obligations.EveryInstructionKeepsTheStreamPosition := by
  intro i s t hs he
  by_cases hreset : i = .reset
  · subst hreset
    cases he
    exact ⟨clearRegisters_reads _ _, fun h => absurd rfl h⟩
  by_cases hstart : i = .start
  · subst hstart
    refine ⟨?_, fun _ h => absurd rfl h⟩
    rcases execStart_cases he with rfl | rfl
    · exact hs
    · exact clearRegisters_reads _ _
  obtain ⟨hr, hle⟩ := (exec_ends hreset hstart he).reads hs
  exact ⟨hr, fun _ _ => hle⟩

/-- Settles O56: no other row may write the tables. -/
theorem tablesAreWrittenByTheirOwnersOnly : Obligations.TablesAreWrittenByTheirOwnersOnly := by
  intro i s t hpos hblock hreset hstart he
  have hW : ¬ mayWrite i .tables := by
    rintro (⟨r, hr⟩ | h)
    · exact hpos r hr
    · exact hblock h
  exact (exec_ends hreset hstart he).keeps (fun _ _ hw => hw.tabs_eq hW) fun _ _ => rfl

/-- Settles O57: no other row may write the header registers. -/
theorem headerRegistersAreWrittenByTheirOwnersOnly : Obligations.HeaderRegistersAreWrittenByTheirOwnersOnly := by
  intro i s t hpos hheader hreset hstart he
  have hW : ¬ mayWrite i .header := by
    rintro (h | h)
    · exact hpos h
    · exact hheader h
  have hregs : t.headerRegs = s.headerRegs :=
    (exec_ends hreset hstart he).keeps (fun _ _ hw => hw.headerRegs_eq hW) fun _ _ => rfl
  simpa only [State.headerRegs, Prod.mk.injEq] using hregs

/-- Settles O58: no write of a run touches `err`, so what changed it is the error entry that closed the run. -/
theorem errorsAreRecordedByErrorEntryOnly : Obligations.ErrorsAreRecordedByErrorEntryOnly := by
  intro i s t he hne hreset hstart
  rcases exec_ends hreset hstart he with h | ⟨e, u, _, rfl⟩
  · exact absurd h.err_eq hne
  · have hcode : 1 ≤ e.code ∧ e.code ≤ 5 := by cases e <;> decide
    exact ⟨rfl, e, rfl, rfl, hcode⟩

end Sys2Proof.Machine
end

section
/-! SUPPORT. Which instruction the decoder can answer at which position of the grammar (30_encoding.md rule R60), and what
the step does at a host operation. -/

namespace Sys2Proof.Machine

/-- The instructions that stand at a position: the operands of a descriptor and of a `VAL` are in their range. -/
inductive ElementAt : Elem → Instr → Prop
  | hdr (u p : BitVec 32) (c k : BitVec 16) (m b : BitVec 8) : ElementAt .hdr (.hdr u p c k m b)
  | pad2 (v : BitVec 2) : ElementAt .pad2 (.pad2 v)
  | tab (r : Role) (count : Nat) (lens : List (BitVec 4)) (hc : count ≤ 31) (hl : lens.length = min count 16) :
      ElementAt (.tab r) (huftabInstr r count lens)
  | nsub (n : BitVec 16) : ElementAt .nsub (.nsub n)
  | litVal (k e : Nat) (hk : k < 16) (he : e < 2 ^ (k - 1)) : ElementAt .litVal (valInstr .lit k e)
  | litCopy (run : Nat) : ElementAt (.litCopy run) (.cpylit run)
  | distVal (k e : Nat) (hk : k < 16) (he : e < 2 ^ (k - 1)) : ElementAt .distVal (valInstr .dist k e)
  | cntVal (v1 k e : Nat) (hk : k < 16) (he : e < 2 ^ (k - 1)) : ElementAt (.cntVal v1) (valInstr .cnt k e)
  | matchCopy (v1 v2 : Nat) : ElementAt (.matchCopy v1 v2) (.cpymatch (v1 + 1) (v2 + 2))

theorem bitField_lt (E lo n : Nat) : bitField E lo n < 2 ^ n := by
  rw [bitField, mask]
  exact Nat.and_lt_two_pow _ (Nat.sub_lt (Nat.pow_pos (by decide)) (by decide))

theorem lengthFields_length (n E : Nat) : (lengthFields n E).length = n := by simp [lengthFields_eq]

theorem decodeVal_instr {r : Role} {T : Table} {E : Nat} {i : Instr} (h : decodeVal r T E = .instr i) :
    ∃ k e, i = valInstr r k e ∧ k < 16 ∧ e < 2 ^ (k - 1) := by
  unfold decodeVal at h
  split at h
  case h_1 => cases h
  case h_2 k d hscan =>
    cases h
    exact ⟨k, _, rfl, (scanSlots_bounds hscan).1, bitField_lt _ _ _⟩

theorem decodeVal_reject {r : Role} {T : Table} {E : Nat} {x : Reject} (h : decodeVal r T E = .reject x) :
    x = .noMatch := by
  unfold decodeVal at h
  split at h <;> cases h
  rfl

theorem decodeHdr_instr {b : List Byte} {i : Instr} (h : decodeHdr b = .instr i) : ElementAt .hdr i := by
  unfold decodeHdr at h
  split at h
  · cases h
  split at h
  · cases h
  split at h
  · cases h
  cases h
  exact .hdr ..

/-- What is decoded at a position is one of its elements. -/
theorem decode_elementAt {pos : Elem} {T : Tables} {bytes : List Byte} {E : Nat} {i : Instr}
    (h : decode pos T bytes E = .instr i) : ElementAt pos i := by
  cases pos with
  | hdr => exact decodeHdr_instr h
  | pad2 => cases h; exact .pad2 _
  | tab r =>
    cases h
    have hc : bitField E 0 Config.cntW < 2 ^ 5 := bitField_lt _ _ _
    exact .tab r _ _ (by omega) (lengthFields_length _ _)
  | nsub => cases h; exact .nsub _
  | litVal =>
    obtain ⟨k, e, rfl, hk, he⟩ := decodeVal_instr h
    exact .litVal k e hk he
  | litCopy run => cases h; exact .litCopy run
  | distVal =>
    obtain ⟨k, e, rfl, hk, he⟩ := decodeVal_instr h
    exact .distVal k e hk he
  | cntVal v1 =>
    obtain ⟨k, e, rfl, hk, he⟩ := decodeVal_instr h
    exact .cntVal v1 k e hk he
  | matchCopy v1 v2 => cases h; exact .matchCopy v1 v2

/-- Past the header nothing but a missing code is rejected (rule R69). -/
theorem decode_reject {pos : Elem} {T : Tables} {bytes : List Byte} {E : Nat} {x : Reject}
    (h : decode pos T bytes E = .reject x) : pos = .hdr ∨ x = .noMatch := by
  cases pos with
  | hdr => exact .inl rfl
  | litVal | distVal | cntVal v1 => exact .inr (decodeVal_reject h)
  | pad2 | tab r | nsub | litCopy run | matchCopy v1 v2 => cases h

theorem huftabInstr_position (r : Role) (count : Nat) (lens : List (BitVec 4)) :
    (huftabInstr r count lens).position = some (.tab r) := by
  unfold huftabInstr
  split <;> rfl

theorem valInstr_position (r : Role) (i e : Nat) : (valInstr r i e).position = some r.valPosition := by
  unfold valInstr
  split <;> rfl

/-- A row with bits or bytes of its own is no host operation and none of the sequencer's own. -/
theorem encoded_keeps_control {i : Instr} {pos : Elem} (h : i.position = some pos) :
    i ≠ .reset ∧ i ≠ .start ∧ ¬ mayWrite i .control := by
  refine ⟨?_, ?_, ?_⟩
  · rintro rfl
    cases h
  · rintro rfl
    cases h
  · rintro (rfl | rfl | rfl | rfl) <;> cases h

/-- An element leaves the position to the sequencer, unless it raises. -/
theorem ElementAt.keeps_control {pos : Elem} {i : Instr} (h : ElementAt pos i) :
    i ≠ .reset ∧ i ≠ .start ∧ ¬ mayWrite i .control := by
  cases h with
  | hdr | pad2 | nsub => exact encoded_keeps_control rfl
  | tab r count lens => exact encoded_keeps_control (huftabInstr_position r count lens)
  | litVal n e | distVal n e | cntVal v1 n e => exact encoded_keeps_control (valInstr_position _ n e)
  | litCopy | matchCopy => exact ⟨nofun, nofun, by simp [mayWrite]⟩

/-- A value a `VAL` hands over is at most 32767 (42_value_decode.md rule R129). -/
theorem slotValue_le {k e : Nat} (hk : k < 16) (he : e < 2 ^ (k - 1)) : slotValue k e ≤ 32767 := by
  have hp : 2 ^ (k - 1) ≤ 2 ^ 14 := Nat.pow_le_pow_right (by decide) (by omega)
  rw [slotValue_eq he]
  split <;> omega

/-! ### The step -/

theorem step_nil {s : State} (h : s.hostIn = []) : step s = blockStep s := by rw [step, h]

theorem step_none {s : State} {rest : List (Option HostOp)} (h : s.hostIn = none :: rest) :
    step s = blockStep { s with hostIn := rest } := by rw [step, h]

theorem step_some {s : State} {op : HostOp} {rest : List (Option HostOp)} (h : s.hostIn = some op :: rest) :
    step s = exec op.instr { s with hostIn := rest } := by rw [step, h]

/-- The state after an element: where it was left by error, or past the sequencer's own work. -/
def afterRun (pos : Elem) (u : State) : State := if u.phase = .failed then u else advance pos u

theorem blockStep_standing {s : State} (hb : s.busy = false) : blockStep s = .next s := by simp [blockStep, hb]

theorem blockStep_reject {s : State} {x : Reject} (hb : s.busy = true) (hf : s.fetch = .reject x) :
    blockStep s = rejectStep x s := by simp [blockStep, hb, hf]

theorem blockStep_element {s u : State} {i : Instr} (hb : s.busy = true) (hf : s.fetch = .instr i)
    (he : exec i s = .next u) : blockStep s = .next (afterRun s.elem u) := by
  simp only [blockStep, hb, if_true, hf, he, afterElement, afterRun]
  split <;> rfl

/-- The three things a step of the block can be. -/
theorem blockStep_cases {s t : State} (h : blockStep s = .next t) :
    (s.busy = false ∧ t = s) ∨
    (s.busy = true ∧ ∃ x, s.fetch = .reject x ∧ rejectStep x s = .next t) ∨
    (s.busy = true ∧ ∃ i u, s.fetch = .instr i ∧ exec i s = .next u ∧ t = afterRun s.elem u) := by
  cases hb : s.busy with
  | false =>
    rw [blockStep_standing hb] at h
    cases h
    exact .inl ⟨rfl, rfl⟩
  | true =>
    refine .inr ?_
    cases hf : s.fetch with
    | reject x => exact .inl ⟨rfl, x, rfl, blockStep_reject hb hf ▸ h⟩
    | instr i =>
      cases he : exec i s with
      | next u =>
        rw [blockStep_element hb hf he] at h
        cases h
        exact .inr ⟨rfl, i, u, rfl, he, rfl⟩
      | fault f => simp [blockStep, hb, hf, he, afterElement] at h
      | refused r => simp [blockStep, hb, hf, he, afterElement] at h

/-- Settles O8: the three entries of the list, case by case. -/
theorem hostOperationRunsFirst : Obligations.HostOperationRunsFirst :=
  ⟨fun _ _ h => step_some h, fun _ _ h => step_some h, fun _ _ h => step_none h⟩

end Sys2Proof.Machine
end

section
/-! SUPPORT. The invariant of rule R25 in two halves: what the banks hold (`Stored`), kept by every write, and how the
sequencer's registers stand to each other (`Controlled`), which the tails of the steps establish. -/

namespace Sys2Proof.Machine

variable {W : Bank → Prop} {s t u : State}

/-- The clauses of the invariant on what the registers hold, whatever the phase. -/
structure State.Stored (s : State) : Prop where
  reads : s.Reads
  slots : ∀ r, ∀ t ∈ (s.tabs.get r).toList, t.code.toNat < 2 ^ t.depth.toNat
  capacity : ∀ cap, s.outCap = some cap → s.olen ≤ cap ∧ cap < 2 ^ 32
  inLenBound : s.inLen < 2 ^ 32
  inSpace : s.inMem.wf ∧ ∀ x ∈ s.inMem, x.1 < s.inLen
  outSpace : s.out.wf ∧ ∀ x ∈ s.out, x.1 < s.olen

/-- The clauses of the invariant on the phase, the counts and the position, away from `IDLE`. -/
structure State.Controlled (s : State) : Prop where
  phase : s.phase ≠ .idle
  blocks : s.blk ≤ s.hBlocks.toNat
  inBlock : s.phase = .perBlock → s.blk < s.hBlocks.toNat
  inSubchunk : s.phase = .perSubchunk → s.sub < s.nsub ∧ s.blk < s.hBlocks.toNat
  inHeader : s.phase = .header → s.blk = 0
  error : s.err ≠ none ↔ s.phase = .failed
  counts : s.sub ≤ s.nsub ∧ s.nsub ≤ 65535
  position : s.positionOk

theorem State.Inv.stored (h : s.Inv) : s.Stored :=
  ⟨h.reads, h.slots, h.capacity, h.inLenBound, h.inSpace, h.outSpace⟩

theorem inv_of_halves (hd : s.Stored) (hc : s.Controlled) : s.Inv where
  reads := hd.reads
  slots := hd.slots
  capacity := hd.capacity
  blocks := hc.blocks
  inBlock := hc.inBlock
  inSubchunk := hc.inSubchunk
  inHeader := hc.inHeader
  error := hc.error
  idle := fun h => absurd h hc.phase
  inLenBound := hd.inLenBound
  counts := hc.counts
  position := hc.position
  inSpace := hd.inSpace
  outSpace := hd.outSpace

/-! ### What the banks hold -/

theorem buildTable_slots_fit (lens : List (BitVec 4)) : ∀ t ∈ (buildTable lens).toList, t.code.toNat < 2 ^ t.depth.toNat := by
  intro t ht
  obtain ⟨i, hi, rfl⟩ := List.mem_iff_getElem.1 ht
  rw [Vector.length_toList] at hi
  rw [Vector.getElem_toList]
  exact buildTable_fits lens ⟨i, hi⟩

theorem installTable_stored (r : Role) (lens : List (BitVec 4)) (h : s.Stored) : (installTable r lens s).Stored := by
  refine ⟨⟨h.reads.cursor, h.reads.queueVal, h.reads.queueCnt⟩, fun r' => ?_, h.capacity, h.inLenBound, h.inSpace,
    h.outSpace⟩
  rw [installTable_tabs, tables_get_set]
  split
  · exact buildTable_slots_fit lens
  · exact h.slots r'

theorem appendOut_stored (v : Byte) (hf : s.fits 1) (h : s.Stored) : (appendOut v s).Stored := by
  refine ⟨⟨h.reads.cursor, h.reads.queueVal, h.reads.queueCnt⟩, h.slots,
    fun cap hc => ⟨hf cap hc, (h.capacity cap hc).2⟩, h.inLenBound, h.inSpace, Memory.wf_write h.outSpace.1 _ _, ?_⟩
  intro x hx
  rw [appendOut_olen]
  rcases Memory.mem_write hx with rfl | hx
  · exact Nat.lt_succ_self _
  · exact Nat.lt_succ_of_lt (h.outSpace.2 x hx)

/-- A write of the stream bank touches no other clause. -/
theorem Write.stored (hs : s.Stored) (h : Write W s t) : t.Stored := by
  have hr := (h.reads hs.reads).1
  cases h with
  | bits n _ hn =>
    rw [rdBits_eq hs.reads hn] at hr ⊢
    exact ⟨hr, hs.slots, hs.capacity, hs.inLenBound, hs.inSpace, hs.outSpace⟩
  | table r lens => exact installTable_stored r lens hs
  | append v _ hf => exact appendOut_stored v hf hs
  | _ => exact ⟨hr, hs.slots, hs.capacity, hs.inLenBound, hs.inSpace, hs.outSpace⟩

theorem Run.stored (hs : s.Stored) (h : Run W s t) : t.Stored := by
  induction h with
  | refl => exact hs
  | tail _ hw ih => exact hw.stored ih

theorem errorEntry_stored (e : Error) (hs : s.Stored) : (errorEntry e s).Stored :=
  ⟨errorEntry_reads e hs.reads, hs.slots, hs.capacity, hs.inLenBound, hs.inSpace, hs.outSpace⟩

/-! ### RESET and START (rules R23, R150, R200) -/

theorem emptyTables_slots_fit (r : Role) : ∀ t ∈ (emptyTables.get r).toList, t.code.toNat < 2 ^ t.depth.toNat := by
  cases r <;> decide

/-- The registers at their values of rule R23 satisfy the invariant wherever the parameters do. -/
theorem clearRegisters_inv {p : Phase} (hp : p = .idle ∨ p = .header) (hcap : ∀ cap, s.outCap = some cap → cap < 2 ^ 32)
    (hlen : s.inLen < 2 ^ 32) (hin : s.inMem.wf ∧ ∀ x ∈ s.inMem, x.1 < s.inLen) : (clearRegisters p s).Inv where
  reads := clearRegisters_reads p s
  slots := emptyTables_slots_fit
  capacity := fun cap hc => ⟨Nat.zero_le _, hcap cap hc⟩
  blocks := Nat.zero_le _
  inBlock := by rcases hp with rfl | rfl <;> exact nofun
  inSubchunk := by rcases hp with rfl | rfl <;> exact nofun
  inHeader := fun _ => rfl
  error := by rcases hp with rfl | rfl <;> simp
  idle := fun h => by
    rw [clearRegisters_phase] at h
    subst h
    rfl
  inLenBound := hlen
  counts := ⟨Nat.le_refl _, Nat.zero_le _⟩
  position := by rcases hp with rfl | rfl <;> exact ⟨nofun, nofun⟩
  inSpace := hin
  outSpace := ⟨Memory.wf_nil, nofun⟩

theorem State.Inv.cleared {p : Phase} (h : s.Inv) (hp : p = .idle ∨ p = .header) : (clearRegisters p s).Inv :=
  clearRegisters_inv hp (fun cap hc => (h.capacity cap hc).2) h.inLenBound h.inSpace

/-! ### The sequencer's registers -/

/-- Inside a block of the run, at a point where its subchunks need not be counted yet. -/
structure State.InBlock (s : State) : Prop where
  blk : s.blk < s.hBlocks.toNat
  nsub : s.nsub ≤ 65535
  err : s.err = none

/-- Inside a subchunk of the run. -/
structure State.InSubchunk (s : State) : Prop extends s.InBlock where
  phase : s.phase = .perSubchunk
  sub : s.sub < s.nsub

theorem State.Inv.err_none (h : s.Inv) (hp : s.phase ≠ .failed) : s.err = none :=
  Classical.not_not.1 fun he => hp (h.error.1 he)

theorem State.Inv.atBlock (h : s.Inv) (hp : s.phase = .perBlock) : s.InBlock :=
  ⟨h.inBlock hp, h.counts.2, h.err_none (by simp [hp])⟩

theorem State.Inv.atSubchunk (h : s.Inv) (hp : s.phase = .perSubchunk) : s.InSubchunk :=
  ⟨⟨(h.inSubchunk hp).2, h.counts.2, h.err_none (by simp [hp])⟩, hp, (h.inSubchunk hp).1⟩

theorem State.InBlock.ret (h : s.InBlock) (v : Result) : ({ s with ret := v } : State).InBlock := ⟨h.blk, h.nsub, h.err⟩

theorem State.InSubchunk.ret (h : s.InSubchunk) (v : Result) : ({ s with ret := v } : State).InSubchunk :=
  ⟨h.toInBlock.ret v, h.phase, h.sub⟩

/-- The next element of the same phase visit, inside a block. -/
theorem State.InBlock.goto {e : Elem} (h : s.InBlock) (hp : s.phase = .perBlock) (hsub : s.sub ≤ s.nsub)
    (hpos : State.positionOk { s with elem := e }) : State.Controlled { s with elem := e } where
  phase := by simp [hp]
  blocks := h.blk.le
  inBlock := fun _ => h.blk
  inSubchunk := fun hq => by simp [hp] at hq
  inHeader := fun hq => by simp [hp] at hq
  error := by simp [h.err, hp]
  counts := ⟨hsub, h.nsub⟩
  position := hpos

/-- The next element of the same phase visit, inside a subchunk. -/
theorem State.InSubchunk.goto {e : Elem} (h : s.InSubchunk) (hpos : State.positionOk { s with elem := e }) :
    State.Controlled { s with elem := e } where
  phase := by simp [h.phase]
  blocks := h.blk.le
  inBlock := fun _ => h.blk
  inSubchunk := fun _ => ⟨h.sub, h.blk⟩
  inHeader := fun hq => by simp [h.phase] at hq
  error := by simp [h.err, h.phase]
  counts := ⟨h.sub.le, h.nsub⟩
  position := hpos

theorem endHeader_controlled (he : s.err = none) (hc : s.sub ≤ s.nsub ∧ s.nsub ≤ 65535) : (endHeader s).Controlled := by
  unfold endHeader
  split
  case isTrue =>
    exact ⟨nofun, Nat.zero_le _, nofun, nofun, nofun, by simp [he], hc, nofun, nofun⟩
  case isFalse h0 =>
    have hpos : 0 < s.hBlocks.toNat := Nat.pos_of_ne_zero fun h => h0 (BitVec.eq_of_toNat_eq h)
    exact ⟨nofun, hpos.le, fun _ => hpos, nofun, nofun, by simp [he], hc, rfl⟩

theorem endBlock_controlled (h : s.InBlock) (hsub : s.sub ≤ s.nsub) : (endBlock s).Controlled := by
  have hblk := h.blk
  unfold endBlock
  split
  case isTrue hlast =>
    exact ⟨nofun, hlast.le, nofun, nofun, nofun, by simp [h.err], ⟨hsub, h.nsub⟩, nofun, nofun⟩
  case isFalse hmore =>
    have hnext : s.blk + 1 < s.hBlocks.toNat := by omega
    exact ⟨nofun, hnext.le, fun _ => hnext, nofun, nofun, by simp [h.err], ⟨hsub, h.nsub⟩, rfl⟩

theorem beginSubchunks_controlled (h : s.InBlock) : (beginSubchunks s).Controlled := by
  unfold beginSubchunks
  split
  case isTrue => exact endBlock_controlled ⟨h.blk, h.nsub, h.err⟩ (Nat.zero_le _)
  case isFalse hn =>
    exact State.InSubchunk.goto (s := { s with sub := 0, phase := .perSubchunk })
      ⟨⟨h.blk, h.nsub, h.err⟩, rfl, Nat.pos_of_ne_zero hn⟩ rfl

theorem endSubchunk_controlled (h : s.InSubchunk) : (endSubchunk s).Controlled := by
  have hsub := h.sub
  unfold endSubchunk
  split
  case isTrue hlast => exact endBlock_controlled ⟨h.blk, h.nsub, h.err⟩ hlast.le
  case isFalse hmore =>
    have hnext : s.sub + 1 < s.nsub := by omega
    exact State.InSubchunk.goto (s := { s with sub := s.sub + 1 })
      ⟨⟨h.blk, h.nsub, h.err⟩, h.phase, hnext⟩ h.phase

theorem hasMatch_iff (h : s.sub < s.nsub) : hasMatch s = true ↔ s.sub + 1 < s.nsub := by
  simp only [hasMatch, ne_eq, decide_eq_true_eq]
  omega

/-- After the literal run: the match if the subchunk has one, else the next subchunk (rule R156). -/
theorem afterLiteralRun_controlled (h : s.InSubchunk) :
    (if hasMatch s then { s with elem := .distVal } else endSubchunk s).Controlled := by
  split
  case isTrue hm => exact h.goto ⟨h.phase, (hasMatch_iff h.sub).1 hm⟩
  case isFalse => exact endSubchunk_controlled h

theorem advance_litVal_controlled (h : s.InSubchunk) {run : Nat} (hr : s.ret = .value run) (hle : run ≤ 32767) :
    (advance .litVal s).Controlled := by
  have h' := h.ret .unit
  simp only [advance, hr]
  split
  case isTrue hne => exact h'.goto ⟨h.phase, Nat.pos_of_ne_zero hne, hle⟩
  case isFalse => exact afterLiteralRun_controlled h'

end Sys2Proof.Machine
end

section
/-! The invariant along a step: one lemma for each position of the grammar, then the step. -/

namespace Sys2Proof.Machine

variable {W : Bank → Prop} {s t u v : State}

theorem Run.inBlock (hc : ¬ W .control) (hh : ¬ W .header) (hn : ¬ W .count) (h : Run W s t) (hs : s.InBlock) :
    t.InBlock := by
  obtain ⟨_, hblk, _, _⟩ := h.control_fields hc
  exact ⟨by rw [hblk, h.hBlocks_eq hh]; exact hs.blk, by rw [h.nsub_eq hn]; exact hs.nsub, h.err_eq.trans hs.err⟩

theorem Run.inSubchunk (hc : ¬ W .control) (hh : ¬ W .header) (hn : ¬ W .count) (h : Run W s t) (hs : s.InSubchunk) :
    t.InSubchunk := by
  obtain ⟨hphase, _, hsub, _⟩ := h.control_fields hc
  exact ⟨h.inBlock hc hh hn hs.toInBlock, hphase.trans hs.phase, by rw [hsub, h.nsub_eq hn]; exact hs.sub⟩

/-- An error keeps the invariant where the counts are in order (60_exceptions.md rule R190). -/
theorem errorEntry_inv (e : Error) (hd : s.Stored) (hblk : s.blk ≤ s.hBlocks.toNat)
    (hc : s.sub ≤ s.nsub ∧ s.nsub ≤ 65535) : (errorEntry e s).Inv :=
  inv_of_halves (errorEntry_stored e hd) ⟨nofun, hblk, nofun, nofun, nofun, by simp, hc, nofun, nofun⟩

/-- An element that ran to its end keeps the invariant when what the sequencer makes of it is in order. -/
theorem afterRun_inv {pos : Elem} (hs : s.Inv) (hp : s.phase ≠ .failed) (hc : ¬ W .control) (h : Run W s u)
    (ha : (advance pos u).Controlled) : (afterRun pos u).Inv := by
  obtain ⟨hphase, _⟩ := h.control_fields hc
  rw [afterRun, if_neg (by rw [hphase]; exact hp)]
  exact inv_of_halves ((advance_run (W := fun _ => True) trivial trivial pos u).stored (h.stored hs.stored)) ha

/-- An element that raised keeps the invariant. -/
theorem afterRun_error_inv {pos : Elem} (e : Error) (hs : s.Inv) (hc : ¬ W .control) (hn : ¬ W .count) (h : Run W s v)
    (hblk : s.blk ≤ v.hBlocks.toNat) : (afterRun pos (errorEntry e v)).Inv := by
  obtain ⟨_, hb, hsub, _⟩ := h.control_fields hc
  rw [afterRun, if_pos (errorEntry_phase e v)]
  exact errorEntry_inv e (h.stored hs.stored) (by rw [hb]; exact hblk) (by rw [hsub, h.nsub_eq hn]; exact hs.counts)

/-! ### The header -/

/-- A state of the header phase, at either of its positions. -/
theorem header_controlled (hp : s.phase = .header) (hb : s.blk = 0) (he : s.err = none)
    (hc : s.sub ≤ s.nsub ∧ s.nsub ≤ 65535) (hpos : s.elem = .hdr ∨ s.elem = .pad2) : s.Controlled where
  phase := by simp [hp]
  blocks := by simp [hb]
  inBlock := fun h => by simp [hp] at h
  inSubchunk := fun h => by simp [hp] at h
  inHeader := fun _ => hb
  error := by simp [he, hp]
  counts := hc
  position := by rcases hpos with h | h <;> simp [State.positionOk, h, hp]

/-- The tests of `HDR` keep the invariant, whichever way they end. -/
theorem hdrGate_inv (hs : s.Inv) (hp : s.phase = .header) (hpos : s.elem = .hdr) (h : (hdrGate s).finish = .next t) :
    t.Inv := by
  have hblk := hs.inHeader hp
  have hends : Ends (fun b => b = .stream ∨ b = .header) s t := (hdrGate_runs (.inl rfl) (.inr rfl) s).finish h
  rcases hends with hrun | ⟨e, v, hrun, rfl⟩
  · obtain ⟨hphase, hb, hsub, helem⟩ := hrun.control_fields (by simp)
    refine inv_of_halves (hrun.stored hs.stored) (header_controlled (hphase.trans hp) (hb.trans hblk)
      (hrun.err_eq.trans (hs.err_none (by simp [hp]))) ?_ (.inl (helem.trans hpos)))
    rw [hsub, hrun.nsub_eq (by simp)]
    exact hs.counts
  · obtain ⟨_, hb, hsub, _⟩ := hrun.control_fields (by simp)
    refine errorEntry_inv e (hrun.stored hs.stored) (by simp [hb, hblk]) ?_
    rw [hsub, hrun.nsub_eq (by simp)]
    exact hs.counts

theorem hdr_step_inv (hs : s.Inv) (hp : s.phase = .header) {w p : BitVec 32} {c k : BitVec 16} {m b : BitVec 8}
    (h : exec (.hdr w p c k m b) s = .next u) : (afterRun .hdr u).Inv := by
  have hblk := hs.inHeader hp
  have hends : Ends (fun b => b = .stream ∨ b = .header) s u := execHdr_ends (.inl rfl) (.inr rfl) w p c k m b s h
  rcases hends with hrun | ⟨e, v, hrun, rfl⟩
  · obtain ⟨hphase, hb, hsub, _⟩ := hrun.control_fields (by simp)
    refine afterRun_inv hs (by simp [hp]) (by simp) hrun (header_controlled (hphase.trans hp) (hb.trans hblk)
      (hrun.err_eq.trans (hs.err_none (by simp [hp]))) ?_ (.inr rfl))
    simp only [advance, hsub, hrun.nsub_eq (W := fun b => b = .stream ∨ b = .header) (by simp)]
    exact hs.counts
  · exact afterRun_error_inv e hs (by simp) (by simp) hrun (by simp [hblk])

theorem pad2_step_inv (hs : s.Inv) (hp : s.phase = .header) {x : BitVec 2} (h : exec (.pad2 x) s = .next u) :
    (afterRun .pad2 u).Inv := by
  cases h
  have hrun : Run (fun b => b = .stream) s (pad2 s) := rdBits_run (W := fun b => b = .stream) rfl (by decide) s
  obtain ⟨_, _, hsub, _⟩ := hrun.control_fields (by simp)
  refine afterRun_inv hs (by simp [hp]) (by simp) hrun (endHeader_controlled (hrun.err_eq.trans (hs.err_none (by simp [hp]))) ?_)
  simp only [hsub, hrun.nsub_eq (W := fun b => b = .stream) (by simp)]
  exact hs.counts

/-! ### A block's tables and count -/

theorem advance_tab_controlled (h : s.InBlock) (hp : s.phase = .perBlock) (hsub : s.sub ≤ s.nsub) (r : Role) :
    (advance (.tab r) s).Controlled := by
  cases r with
  | lit | dist | cnt => exact (h.ret .unit).goto hp hsub hp

theorem tab_step_inv (hs : s.Inv) (hp : s.phase = .perBlock) {r : Role} {count : Nat} {lens : List (BitVec 4)}
    (h : huftabForm count r lens s = .next u) : (afterRun (.tab r) u).Inv := by
  cases h
  have hrun : Run (fun b => b = .stream ∨ b = .tables) s (installTable r lens (takeDescriptor count s)) :=
    (takeDescriptor_run (.inl rfl) count s).tail (.table r lens (.inr rfl))
  obtain ⟨hphase, _, hsub, _⟩ := hrun.control_fields (by simp)
  have hblock := hrun.inBlock (by simp) (by simp) (by simp) (hs.atBlock hp)
  have hcounts := hsub.trans_le (hs.counts.1.trans_eq (hrun.nsub_eq (by simp)).symm)
  exact afterRun_inv hs (by simp [hp]) (by simp) hrun (advance_tab_controlled hblock (hphase.trans hp) hcounts r)

theorem nsub_step_inv (hs : s.Inv) (hp : s.phase = .perBlock) {n : BitVec 16} (h : exec (.nsub n) s = .next u) :
    (afterRun .nsub u).Inv := by
  cases h
  have hbits : Run (fun b => b = .stream) s (rdBits Config.nsubW s).2 :=
    rdBits_run (W := fun b => b = .stream) rfl (by decide) s
  have hrun : Run (fun b => b = .stream ∨ b = .count) s { (rdBits Config.nsubW s).2 with nsub := n.toNat } :=
    (rdBits_run (.inl rfl) (by decide) s).tail (.count _ (.inr rfl))
  have hblock := hbits.inBlock (by simp) (by simp) (by simp) (hs.atBlock hp)
  have hn : n.toNat ≤ 65535 := Nat.le_of_lt_succ n.isLt
  exact afterRun_inv hs (by simp [hp]) (by simp) hrun (beginSubchunks_controlled ⟨hblock.blk, hn, hblock.err⟩)

/-! ### A subchunk -/

/-- A `VAL` hands over a number of at most 32767 and stays inside its subchunk. -/
theorem val_step {r : Role} {k e : Nat} (hs : s.InSubchunk) (hk : k < 16) (he : e < 2 ^ (k - 1))
    (h : exec (valInstr r k e) s = .next u) :
    Run (fun b => b = .stream ∨ b = .value) s u ∧ u.InSubchunk ∧ u.sub = s.sub ∧ u.nsub = s.nsub ∧
      ∃ x, x ≤ 32767 ∧ u.ret = .value x := by
  rw [exec_valInstr s r hk he] at h
  cases h
  have hrun : Run (fun b => b = .stream ∨ b = .value) s (returning (slotValue k e) (takeValue r k s)) :=
    (takeValue_run (.inl rfl) r hk s).tail (.value _ (.inr rfl))
  obtain ⟨_, _, hsub, _⟩ := hrun.control_fields (by simp)
  exact ⟨hrun, hrun.inSubchunk (by simp) (by simp) (by simp) hs, hsub, hrun.nsub_eq (by simp), _, slotValue_le hk he, rfl⟩

theorem litVal_step_inv {k e : Nat} (hs : s.Inv) (hp : s.phase = .perSubchunk) (hk : k < 16) (he : e < 2 ^ (k - 1))
    (h : exec (valInstr .lit k e) s = .next u) : (afterRun .litVal u).Inv := by
  obtain ⟨hrun, hsub, _, _, x, hx, hret⟩ := val_step (hs.atSubchunk hp) hk he h
  exact afterRun_inv hs (by simp [hp]) (by simp) hrun (advance_litVal_controlled hsub hret hx)

theorem distVal_step_inv {k e : Nat} (hs : s.Inv) (hp : s.phase = .perSubchunk) (hm : s.sub + 1 < s.nsub) (hk : k < 16)
    (he : e < 2 ^ (k - 1)) (h : exec (valInstr .dist k e) s = .next u) : (afterRun .distVal u).Inv := by
  obtain ⟨hrun, hsub, h1, h2, x, hx, hret⟩ := val_step (hs.atSubchunk hp) hk he h
  refine afterRun_inv hs (by simp [hp]) (by simp) hrun ?_
  simp only [advance, hret]
  exact (hsub.ret .unit).goto ⟨hsub.phase, by simp only [h1, h2]; exact hm, hx⟩

theorem cntVal_step_inv {v1 k e : Nat} (hs : s.Inv) (hp : s.phase = .perSubchunk) (hm : s.sub + 1 < s.nsub)
    (hv1 : v1 ≤ 32767) (hk : k < 16) (he : e < 2 ^ (k - 1)) (h : exec (valInstr .cnt k e) s = .next u) :
    (afterRun (.cntVal v1) u).Inv := by
  obtain ⟨hrun, hsub, h1, h2, x, hx, hret⟩ := val_step (hs.atSubchunk hp) hk he h
  refine afterRun_inv hs (by simp [hp]) (by simp) hrun ?_
  simp only [advance, hret]
  exact (hsub.ret .unit).goto ⟨hsub.phase, by simp only [h1, h2]; exact hm, hv1, hx⟩

/-- A raw copy, of literals or of a match, keeps the invariant when what follows it is in order. -/
theorem copy_step_inv {pos : Elem} (hs : s.Inv) (hp : s.phase = .perSubchunk)
    (h : Ends (fun b => b = .stream ∨ b = .output) s u) (ha : u.InSubchunk → (advance pos u).Controlled) :
    (afterRun pos u).Inv := by
  rcases h with hrun | ⟨e, v, hrun, rfl⟩
  · exact afterRun_inv hs (by simp [hp]) (by simp) hrun
      (ha (hrun.inSubchunk (by simp) (by simp) (by simp) (hs.atSubchunk hp)))
  · exact afterRun_error_inv e hs (by simp) (by simp) hrun (by rw [hrun.hBlocks_eq (by simp)]; exact hs.blocks)

theorem litCopy_step_inv {run : Nat} (hs : s.Inv) (hp : s.phase = .perSubchunk) (h : exec (.cpylit run) s = .next u) :
    (afterRun (.litCopy run) u).Inv :=
  copy_step_inv hs hp ((cpyLit_runs (.inl rfl) (.inr rfl) run s).finish h) fun hu => afterLiteralRun_controlled (hu.ret .unit)

theorem matchCopy_step_inv {v1 v2 : Nat} (hs : s.Inv) (hp : s.phase = .perSubchunk)
    (h : exec (.cpymatch (v1 + 1) (v2 + 2)) s = .next u) : (afterRun (.matchCopy v1 v2) u).Inv :=
  copy_step_inv hs hp ((cpyMatch_runs (.inr rfl) (v1 + 1) (v2 + 2) s).finish h) fun hu => endSubchunk_controlled (hu.ret .unit)

/-! ### The step -/

/-- The phase that goes with the position at which a busy block stands. -/
theorem State.Inv.header_of_busy (hs : s.Inv) (hb : s.busy = true) (hpos : s.elem = .hdr) : s.phase = .header := by
  have hok := hs.position
  simp only [State.positionOk, hpos] at hok
  simp only [State.busy, Bool.or_eq_true, decide_eq_true_eq] at hb
  rcases hb with (hb | hb) | hb
  · exact hb
  · exact absurd hb hok.1
  · exact absurd hb hok.2

/-- The element that stands at the position keeps the invariant, with what the sequencer does after it. -/
theorem element_inv {i : Instr} (hs : s.Inv) (hb : s.busy = true) (hi : ElementAt s.elem i) (h : exec i s = .next u) :
    (afterRun s.elem u).Inv := by
  have hok := hs.position
  unfold State.positionOk at hok
  generalize hpos : s.elem = pos at hi hok
  cases hi with
  | hdr => exact hdr_step_inv hs (hs.header_of_busy hb hpos) h
  | pad2 => exact pad2_step_inv hs hok h
  | tab r count lens hc hl => exact tab_step_inv hs hok (exec_huftabInstr s r count lens hc hl ▸ h)
  | nsub => exact nsub_step_inv hs hok h
  | litVal k e hk he => exact litVal_step_inv hs hok hk he h
  | litCopy run => exact litCopy_step_inv hs hok.1 h
  | distVal k e hk he => exact distVal_step_inv hs hok.1 hok.2 hk he h
  | cntVal v1 k e hk he => exact cntVal_step_inv hs hok.1 hok.2.1 hok.2.2 hk he h
  | matchCopy v1 v2 => exact matchCopy_step_inv hs hok.1 h

theorem rejectStep_inv {x : Reject} (hs : s.Inv) (hb : s.busy = true) (hx : s.fetch = .reject x)
    (h : rejectStep x s = .next t) : t.Inv := by
  cases x with
  | noMatch => cases h; exact errorEntry_inv .noMatch hs.stored hs.blocks hs.counts
  | truncated | badSignature =>
    have hpos : s.elem = .hdr := (decode_reject hx).resolve_right nofun
    exact hdrGate_inv hs (hs.header_of_busy hb hpos) hpos h

theorem blockStep_inv (hs : s.Inv) (h : blockStep s = .next t) : t.Inv := by
  rcases blockStep_cases h with ⟨_, rfl⟩ | ⟨hb, x, hf, hx⟩ | ⟨hb, i, u, hf, he, rfl⟩
  · exact hs
  · exact rejectStep_inv hs hb hf hx
  · exact element_inv hs hb (decode_elementAt hf) he

/-- The host's list is no part of the invariant. -/
theorem State.Inv.withHostIn (hs : s.Inv) (l : List (Option HostOp)) : State.Inv { s with hostIn := l } where
  reads := ⟨hs.reads.cursor, hs.reads.queueVal, hs.reads.queueCnt⟩
  slots := hs.slots
  capacity := hs.capacity
  blocks := hs.blocks
  inBlock := hs.inBlock
  inSubchunk := hs.inSubchunk
  inHeader := hs.inHeader
  error := hs.error
  idle := fun h => congrArg (fun u : State => { u with hostIn := l }) (hs.idle h)
  inLenBound := hs.inLenBound
  counts := hs.counts
  position := hs.position
  inSpace := hs.inSpace
  outSpace := hs.outSpace

/-- Settles O13: a host operation clears the registers or does nothing, and at each position of the grammar the element
that stands there keeps the invariant. -/
theorem everyStepKeepsInv : Obligations.EveryStepKeepsInv := by
  intro s t hs h
  match hh : s.hostIn with
  | [] => exact blockStep_inv hs (step_nil hh ▸ h)
  | none :: rest => exact blockStep_inv (hs.withHostIn rest) (step_none hh ▸ h)
  | some .reset :: rest =>
    rw [step_some hh] at h
    cases h
    exact (hs.withHostIn rest).cleared (.inl rfl)
  | some .start :: rest =>
    rw [step_some hh] at h
    rcases execStart_cases h with rfl | rfl
    · exact hs.withHostIn rest
    · exact (hs.withHostIn rest).cleared (.inr rfl)

/-- Settles O12: the reset state is the cleared state with no stream placed. -/
theorem resetStateSatisfiesInv : Obligations.ResetStateSatisfiesInv :=
  clearRegisters_inv (s := State.reset) (.inl rfl) nofun (by decide) ⟨Memory.wf_nil, nofun⟩

end Sys2Proof.Machine
end

section
/-! SUPPORT. Registers that an operation does not read. `Spares g` says that the bit reader neither reads nor writes what
`g` overwrites; then the reads of bits go the same way with `g` and without (10_state.md rules R17, R19). -/

namespace Sys2Proof.Machine

/-- `g` overwrites registers that the bit reader neither reads nor writes. -/
structure Spares (g : State → State) : Prop where
  queueVal : ∀ s, (g s).bqVal = s.bqVal
  queueCnt : ∀ s, (g s).bqCnt = s.bqCnt
  refill : ∀ s, Machine.refill (g s) = g (Machine.refill s)
  consume : ∀ n s, Machine.consume n (g s) = g (Machine.consume n s)

variable {g : State → State}

theorem Spares.ensure (hg : Spares g) (n : Nat) (s : State) : ensure n (g s) = g (ensure n s) := by
  rw [Machine.ensure, Machine.ensure, hg.queueCnt, hg.refill]
  split <;> rfl

theorem Spares.rdBits (hg : Spares g) (n : Nat) (s : State) : rdBits n (g s) = ((rdBits n s).1, g (rdBits n s).2) := by
  rw [Machine.rdBits, Machine.rdBits, hg.ensure, hg.queueVal, hg.consume]

theorem Spares.rdLengths (hg : Spares g) (n : Nat) (s : State) :
    rdLengths n (g s) = ((rdLengths n s).1, g (rdLengths n s).2) := by
  induction n generalizing s with
  | zero => rfl
  | succ n ih => simp only [Machine.rdLengths, hg.rdBits, ih]

theorem Spares.takeDescriptor (hg : Spares g) (count : Nat) (s : State) :
    takeDescriptor count (g s) = g (takeDescriptor count s) := by
  simp only [Machine.takeDescriptor, hg.rdBits, hg.rdLengths]

theorem Spares.lookahead (hg : Spares g) (k : Nat) (s : State) : lookahead k (g s) = lookahead k s := by
  induction k generalizing s with
  | zero => exact hg.queueVal s
  | succ k ih => rw [Machine.lookahead, Machine.lookahead, hg.refill, ih]

end Sys2Proof.Machine
end

section
/-! A block's step and the tables before it. -/

namespace Sys2Proof.Machine

/-- `s` as it is but for the tables. -/
def State.withTables (T : Tables) (s : State) : State := { s with tabs := T }

theorem withTables_spares (T : Tables) : Spares (State.withTables T) := ⟨fun _ => rfl, fun _ => rfl, fun _ => rfl, fun _ _ => rfl⟩

/-- A descriptor is read and built whatever the tables are; it replaces its own (41_huffman_table_builder.md rule R113). -/
theorem huftab_withTables (r : Role) (T : Tables) (s : State) :
    huftab r (s.withTables T) = (huftab r s).withTables (T.set r ((huftab r s).tabs.get r)) := by
  simp only [huftab, (withTables_spares T).rdBits, (withTables_spares T).rdLengths, installTable_tabs,
    tables_get_set_same]
  rfl

/-- The three descriptors of a block leave nothing of the tables before it (10_state.md rule R19). -/
theorem blockTables_withTables (T : Tables) (s : State) :
    huftab .cnt (huftab .dist (huftab .lit (s.withTables T))) = huftab .cnt (huftab .dist (huftab .lit s)) := by
  have hall (T : Tables) : huftab .cnt (huftab .dist (huftab .lit (s.withTables T)))
      = (huftab .cnt (huftab .dist (huftab .lit s))).withTables
          ⟨(huftab .lit s).tabs.lit, (huftab .dist (huftab .lit s)).tabs.dist,
            (huftab .cnt (huftab .dist (huftab .lit s))).tabs.cnt⟩ := by
    simp only [huftab_withTables]
    rfl
  exact (hall T).trans (hall s.tabs).symm

/-- Settles O60: the block's three descriptors replace the three tables before anything reads one. -/
theorem blockIgnoresTheTablesBefore : Obligations.BlockIgnoresTheTablesBefore := by
  intro s T
  change (stepBlock (s.withTables T)).finish = (stepBlock s).finish
  rw [stepBlock, stepBlock, blockTables_withTables]

end Sys2Proof.Machine
end

section
/-! The header registers that nothing reads (10_state.md rule R17): an element past the header, and the sequencer after
it, go the same way whatever they hold. -/

namespace Sys2Proof.Machine

variable (u p : BitVec 32) (c k : BitVec 16) (m : BitVec 8)

theorem withUnusedHeader_spares : Spares fun s => s.withUnusedHeader u p c k m :=
  ⟨fun _ => rfl, fun _ => rfl, fun _ => rfl, fun _ _ => rfl⟩

theorem fetch_withUnusedHeader (s : State) : (s.withUnusedHeader u p c k m).fetch = s.fetch := by
  unfold State.fetch
  rw [(withUnusedHeader_spares u p c k m).lookahead]
  rfl

theorem takeValue_withUnusedHeader (r : Role) (i : Nat) (s : State) :
    takeValue r i (s.withUnusedHeader u p c k m) = (takeValue r i s).withUnusedHeader u p c k m := by
  have hg := withUnusedHeader_spares u p c k m
  unfold takeValue
  simp only [hg.rdBits]
  split <;> rfl

/-! ### Copies -/

/-- The same operation on a state with some registers overwritten. -/
def Res.mapState {α : Type} (g : State → State) : Res α → Res α
  | .ok a s => .ok a (g s)
  | .raised s => .raised (g s)

theorem finish_mapState {g : State → State} {r : Res Unit} {t : State} (h : r.finish = .next t) :
    (r.mapState g).finish = .next (g t) := by
  cases r <;> cases h <;> rfl

theorem cpyLit_withUnusedHeader (n : Nat) (s : State) :
    cpyLit n (s.withUnusedHeader u p c k m) = (cpyLit n s).mapState fun s => s.withUnusedHeader u p c k m := by
  by_cases hip : s.ip + n ≤ s.inLen
  · by_cases hf : s.fits n
    · rw [cpyLit_ok hip hf]
      exact cpyLit_ok (s := s.withUnusedHeader u p c k m) hip hf
    · rw [cpyLit_full hip hf]
      exact cpyLit_full (s := s.withUnusedHeader u p c k m) hip hf
  · have hshort : s.inLen < s.ip + n := by omega
    rw [cpyLit_short hshort]
    exact cpyLit_short (s := s.withUnusedHeader u p c k m) hshort

theorem copyMatch_withUnusedHeader (L0 d n j : Nat) (s : State) :
    copyMatch L0 d n j (s.withUnusedHeader u p c k m) = (copyMatch L0 d n j s).withUnusedHeader u p c k m := by
  induction n generalizing s j with
  | zero => rfl
  | succ n ih => exact ih (j + 1) (appendOut (s.out.read (L0 - d + j)) s)

theorem cpyMatch_withUnusedHeader (d n : Nat) (s : State) :
    cpyMatch d n (s.withUnusedHeader u p c k m) = (cpyMatch d n s).mapState fun s => s.withUnusedHeader u p c k m := by
  by_cases hd : d ≤ s.olen
  · by_cases hf : s.fits n
    · have hcap := (overCap_iff n s).2 hf
      have hcap' := (overCap_iff n (s.withUnusedHeader u p c k m)).2 hf
      have hd' : ¬ d > (s.withUnusedHeader u p c k m).olen := Nat.not_lt.2 hd
      rw [cpyMatch, if_neg hd', hcap', cpyMatch, if_neg (Nat.not_lt.2 hd), hcap]
      exact congrArg (Res.ok ()) (copyMatch_withUnusedHeader u p c k m s.olen d n 0 s)
    · rw [cpyMatch_full hd hf]
      exact cpyMatch_full (s := s.withUnusedHeader u p c k m) hd hf
  · have hfar : s.olen < d := by omega
    rw [cpyMatch_far hfar]
    exact cpyMatch_far (s := s.withUnusedHeader u p c k m) hfar

/-! ### Elements -/

/-- An element past the header goes the same way. -/
theorem exec_withUnusedHeader {pos : Elem} {i : Instr} {s t : State} (hi : ElementAt pos i) (hpos : pos ≠ .hdr)
    (h : exec i s = .next t) :
    exec i (s.withUnusedHeader u p c k m) = .next (t.withUnusedHeader u p c k m) := by
  have hg := withUnusedHeader_spares u p c k m
  have hval (r : Role) {n e : Nat} (hn : n < 16) (he : e < 2 ^ (n - 1)) (h : exec (valInstr r n e) s = .next t) :
      exec (valInstr r n e) (s.withUnusedHeader u p c k m) = .next (t.withUnusedHeader u p c k m) := by
    rw [exec_valInstr _ r hn he] at h ⊢
    cases h
    rw [valForm, takeValue_withUnusedHeader]
    rfl
  cases hi with
  | hdr => exact absurd rfl hpos
  | pad2 x =>
    cases h
    simp only [exec, execPad2, pad2, hg.rdBits]
  | tab r count lens hc hl =>
    rw [exec_huftabInstr _ r count lens hc hl] at h ⊢
    cases h
    rw [huftabForm, hg.takeDescriptor]
    rfl
  | nsub n =>
    cases h
    simp only [exec, execNsub, hg.rdBits]
    rfl
  | litVal n e hn he => exact hval .lit hn he h
  | distVal n e hn he => exact hval .dist hn he h
  | cntVal v1 n e hn he => exact hval .cnt hn he h
  | litCopy run =>
    simp only [exec, execCpylit, cpyLit_withUnusedHeader] at h ⊢
    exact finish_mapState h
  | matchCopy v1 v2 =>
    simp only [exec, execCpymatch, cpyMatch_withUnusedHeader, if_neg (Nat.succ_ne_zero v1)] at h ⊢
    exact finish_mapState h

/-! ### The sequencer -/

theorem endHeader_withUnusedHeader (s : State) :
    endHeader (s.withUnusedHeader u p c k m) = (endHeader s).withUnusedHeader u p c k m := by
  unfold endHeader
  rw [apply_ite (fun s : State => s.withUnusedHeader u p c k m)]
  rfl

theorem endBlock_withUnusedHeader (s : State) :
    endBlock (s.withUnusedHeader u p c k m) = (endBlock s).withUnusedHeader u p c k m := by
  unfold endBlock
  rw [apply_ite (fun s : State => s.withUnusedHeader u p c k m)]
  rfl

theorem beginSubchunks_withUnusedHeader (s : State) :
    beginSubchunks (s.withUnusedHeader u p c k m) = (beginSubchunks s).withUnusedHeader u p c k m := by
  unfold beginSubchunks
  rw [apply_ite (fun s : State => s.withUnusedHeader u p c k m), ← endBlock_withUnusedHeader]
  rfl

theorem endSubchunk_withUnusedHeader (s : State) :
    endSubchunk (s.withUnusedHeader u p c k m) = (endSubchunk s).withUnusedHeader u p c k m := by
  unfold endSubchunk
  rw [apply_ite (fun s : State => s.withUnusedHeader u p c k m), ← endBlock_withUnusedHeader]
  rfl

theorem afterLiteralRun_withUnusedHeader (s : State) :
    (if hasMatch (s.withUnusedHeader u p c k m) then { s.withUnusedHeader u p c k m with elem := .distVal }
      else endSubchunk (s.withUnusedHeader u p c k m))
      = (if hasMatch s then { s with elem := .distVal } else endSubchunk s).withUnusedHeader u p c k m := by
  rw [apply_ite (fun s : State => s.withUnusedHeader u p c k m), ← endSubchunk_withUnusedHeader]
  rfl

theorem advance_withUnusedHeader (pos : Elem) (s : State) :
    advance pos (s.withUnusedHeader u p c k m) = (advance pos s).withUnusedHeader u p c k m := by
  have hret : (s.withUnusedHeader u p c k m).ret = s.ret := rfl
  cases pos with
  | hdr => rfl
  | pad2 => exact endHeader_withUnusedHeader u p c k m { s with ret := .unit }
  | tab r => cases r <;> rfl
  | nsub => exact beginSubchunks_withUnusedHeader u p c k m { s with ret := .unit }
  | litVal =>
    cases hr : s.ret with
    | unit | bytes b => simp only [advance, hret, hr]; rfl
    | value run =>
      simp only [advance, hret, hr]
      by_cases h0 : run ≠ 0
      · rw [if_pos h0, if_pos h0]
        rfl
      · rw [if_neg h0, if_neg h0]
        exact afterLiteralRun_withUnusedHeader u p c k m { s with ret := .unit }
  | litCopy run => exact afterLiteralRun_withUnusedHeader u p c k m { s with ret := .unit }
  | distVal | cntVal v1 => cases hr : s.ret <;> simp only [advance, hret, hr] <;> rfl
  | matchCopy v1 v2 => exact endSubchunk_withUnusedHeader u p c k m { s with ret := .unit }

/-! ### Past the header -/

/-- No busy state stands at the header. -/
def State.pastHeader (s : State) : Prop := s.busy = true → s.elem ≠ .hdr

variable {s t : State}

theorem endHeader_pastHeader (s : State) : (endHeader s).pastHeader := by
  unfold endHeader
  split <;> exact nofun

theorem endBlock_pastHeader (s : State) : (endBlock s).pastHeader := by
  unfold endBlock
  split <;> exact nofun

theorem beginSubchunks_pastHeader (s : State) : (beginSubchunks s).pastHeader := by
  unfold beginSubchunks
  split
  · exact endBlock_pastHeader _
  · exact nofun

theorem endSubchunk_pastHeader (s : State) : (endSubchunk s).pastHeader := by
  unfold endSubchunk
  split
  · exact endBlock_pastHeader _
  · exact nofun

theorem afterLiteralRun_pastHeader (s : State) :
    (if hasMatch s then { s with elem := .distVal } else endSubchunk s).pastHeader := by
  split
  · exact nofun
  · exact endSubchunk_pastHeader s

/-- The sequencer does not go back to the header but to stop there. -/
theorem advance_pastHeader {pos : Elem} (he : s.elem ≠ .hdr) : (advance pos s).pastHeader := by
  unfold advance
  dsimp only
  split
  case h_2 => exact endHeader_pastHeader _
  case h_6 => exact beginSubchunks_pastHeader _
  case h_7 =>
    split
    · exact nofun
    · exact afterLiteralRun_pastHeader _
  case h_8 => exact afterLiteralRun_pastHeader _
  case h_11 => exact endSubchunk_pastHeader _
  case h_12 | h_13 | h_14 => exact fun _ => he
  all_goals exact nofun

/-- A step past the header stays past it. -/
theorem blockStep_pastHeader (hs : s.pastHeader) (h : blockStep s = .next t) : t.hostIn = s.hostIn ∧ t.pastHeader := by
  rcases blockStep_cases h with ⟨_, rfl⟩ | ⟨hb, x, hf, hx⟩ | ⟨hb, i, v, hf, he, rfl⟩
  · exact ⟨rfl, hs⟩
  · obtain rfl : x = .noMatch := (decode_reject hf).resolve_left (hs hb)
    cases hx
    exact ⟨rfl, nofun⟩
  · obtain ⟨hreset, hstart, hcontrol⟩ := (decode_elementAt hf).keeps_control
    unfold afterRun
    rcases exec_ends hreset hstart he with hrun | ⟨e, w, hrun, rfl⟩
    · obtain ⟨_, _, _, helem⟩ := hrun.control_fields hcontrol
      have hv : v.elem ≠ .hdr := helem ▸ hs hb
      have hadv : Run (fun _ => True) v (advance s.elem v) := advance_run trivial trivial _ _
      split
      · exact ⟨hrun.hostIn_eq, fun _ => hv⟩
      · exact ⟨hadv.hostIn_eq.trans hrun.hostIn_eq, advance_pastHeader hv⟩
    · rw [if_pos (errorEntry_phase e w)]
      exact ⟨hrun.hostIn_eq, nofun⟩

/-- A step past the header goes the same way. -/
theorem blockStep_withUnusedHeader (hs : s.pastHeader) (h : blockStep s = .next t) :
    blockStep (s.withUnusedHeader u p c k m) = .next (t.withUnusedHeader u p c k m) := by
  have hbusy : (s.withUnusedHeader u p c k m).busy = s.busy := rfl
  have hfetch := fetch_withUnusedHeader u p c k m s
  rcases blockStep_cases h with ⟨hb, rfl⟩ | ⟨hb, x, hf, hx⟩ | ⟨hb, i, v, hf, he, rfl⟩
  · exact blockStep_standing (hbusy.trans hb)
  · obtain rfl : x = .noMatch := (decode_reject hf).resolve_left (hs hb)
    cases hx
    rw [blockStep_reject (hbusy.trans hb) (hfetch.trans hf)]
    rfl
  · have he' := exec_withUnusedHeader u p c k m (decode_elementAt hf) (hs hb) he
    rw [blockStep_element (hbusy.trans hb) (hfetch.trans hf) he']
    unfold afterRun
    rw [apply_ite (fun s : State => s.withUnusedHeader u p c k m), ← advance_withUnusedHeader]
    rfl

/-- Runs from states past the header, with no host operation pending. -/
theorem stepRun_withUnusedHeader (n : Nat) (hh : s.hostIn = []) (hs : s.pastHeader) (h : stepRun n s = .next t) :
    stepRun n (s.withUnusedHeader u p c k m) = .next (t.withUnusedHeader u p c k m) := by
  induction n generalizing s with
  | zero => cases h; rfl
  | succ n ih =>
    have hstep : step s = blockStep s := step_nil hh
    have hstep' : step (s.withUnusedHeader u p c k m) = blockStep (s.withUnusedHeader u p c k m) := step_nil hh
    rw [stepRun, hstep] at h
    rw [stepRun, hstep']
    cases hb : blockStep s with
    | next v =>
      rw [hb] at h
      rw [blockStep_withUnusedHeader u p c k m hs hb]
      obtain ⟨hhost, hpast⟩ := blockStep_pastHeader hs hb
      exact ih (hhost.trans hh) hpast h
    | fault f => rw [hb] at h; cases h
    | refused r => rw [hb] at h; cases h

end Sys2Proof.Machine
end

section
/-! The statement about the registers of rule R17. -/

namespace Sys2Proof.Machine

/-- Settles O59, by induction on the number of steps: past the header no element and no tail of a step reads the five
registers, and no step goes back to the header. -/
theorem unusedHeaderFieldsHaveNoEffect : Obligations.UnusedHeaderFieldsHaveNoEffect :=
  fun n _ _ u p c k m hh he h => stepRun_withUnusedHeader u p c k m n hh (fun _ => he) h

end Sys2Proof.Machine
end

section
/-! SUPPORT. The byte spaces along a run (20_memory.md): no write touches the parameters, and `OUT` only grows. -/

namespace Sys2Proof.Machine

variable {W : Bank → Prop} {s t u : State}

/-! ### The parameters (20_memory.md rule R40, 10_state.md rule R11) -/

/-- What the host gives the block: `IN`, `IN_LEN` and `OUT_CAP`. -/
def State.parameters (s : State) : Memory × Nat × Option Nat := (s.inMem, s.inLen, s.outCap)

theorem parameters_eq_iff :
    t.parameters = s.parameters ↔ t.inMem = s.inMem ∧ t.inLen = s.inLen ∧ t.outCap = s.outCap := by
  simp only [State.parameters, Prod.mk.injEq]

/-- No bank holds a parameter. -/
theorem Write.parameters_eq (h : Write W s t) : t.parameters = s.parameters := by
  cases h with
  | bits n => rw [rdBits_writes]; rfl
  | _ => rfl

theorem Ends.parameters_eq (h : Ends W s t) : t.parameters = s.parameters :=
  h.keeps (fun _ _ hw => hw.parameters_eq) fun _ _ => rfl

theorem execStart_parameters (h : execStart s = .next t) : t.parameters = s.parameters := by
  rcases execStart_cases h with rfl | rfl <;> rfl

/-! ### The output (20_memory.md rule R41, 10_state.md rules R20, R25 e) -/

/-- From `s` to `t` the output is at most appended to, within the same capacity. -/
structure OutputGrows (s t : State) : Prop where
  length : s.olen ≤ t.olen
  bytes : ∀ a, a < s.olen → t.out.read a = s.out.read a
  canonical : t.out.wf
  sameCapacity : t.outCap = s.outCap
  within : ∀ cap, s.outCap = some cap → s.olen ≤ cap → t.olen ≤ cap

theorem OutputGrows.refl (hs : s.out.wf) : OutputGrows s s := ⟨Nat.le_refl _, fun _ _ => rfl, hs, rfl, fun _ _ h => h⟩

theorem OutputGrows.trans (h : OutputGrows s t) (h' : OutputGrows t u) : OutputGrows s u where
  length := h.length.trans h'.length
  bytes a ha := (h'.bytes a (ha.trans_le h.length)).trans (h.bytes a ha)
  canonical := h'.canonical
  sameCapacity := h'.sameCapacity.trans h.sameCapacity
  within cap hc hle := h'.within cap (h.sameCapacity.trans hc) (h.within cap hc hle)

/-- The byte appended stands above every byte written before it. -/
theorem appendOut_outputGrows (v : Byte) (hf : s.fits 1) (hs : s.out.wf) : OutputGrows s (appendOut v s) where
  length := Nat.le_succ _
  bytes _ ha := Memory.read_write_other hs v (Nat.ne_of_lt ha)
  canonical := Memory.wf_write hs _ _
  sameCapacity := rfl
  within cap hc _ := hf cap hc

/-- `append` is the one write of the output bank. -/
theorem Write.outputGrows (hs : s.out.wf) (h : Write W s t) : OutputGrows s t := by
  have hsame : OutputGrows s s := .refl hs
  cases h with
  | bits n => rw [rdBits_writes]; exact ⟨hsame.length, hsame.bytes, hs, rfl, hsame.within⟩
  | append v _ hf => exact appendOut_outputGrows v hf hs
  | _ => exact ⟨hsame.length, hsame.bytes, hs, rfl, hsame.within⟩

theorem Run.outputGrows (hs : s.out.wf) (h : Run W s t) : OutputGrows s t := by
  induction h with
  | refl => exact .refl hs
  | tail _ hw ih => exact ih.trans (hw.outputGrows ih.canonical)

/-- Error entry keeps all of `OUT` (60_exceptions.md rule R183). -/
theorem errorEntry_outputGrows (e : Error) (h : OutputGrows s t) : OutputGrows s (errorEntry e t) :=
  ⟨h.length, h.bytes, h.canonical, h.sameCapacity, h.within⟩

theorem Ends.outputGrows (hs : s.out.wf) (h : Ends W s t) : OutputGrows s t := by
  rcases h with h | ⟨e, u, h, rfl⟩
  · exact h.outputGrows hs
  · exact errorEntry_outputGrows e (h.outputGrows hs)

end Sys2Proof.Machine
end

section
/-! The statements about the byte spaces. -/

namespace Sys2Proof.Machine

/-- Settles O53: no write of a run touches a parameter (`Write.parameters_eq`), error entry freezes them, and the two host
operations clear registers only. -/
theorem noInstructionWritesTheInput : Obligations.NoInstructionWritesTheInput := by
  intro i s t he
  rw [← parameters_eq_iff]
  by_cases hreset : i = .reset
  · subst hreset
    cases he
    rfl
  by_cases hstart : i = .start
  · subst hstart
    exact execStart_parameters he
  exact (exec_ends hreset hstart he).parameters_eq

/-- Settles O54: the one write of `OUT` appends a byte for which there is room (`Write.outputGrows`), and a run is such
writes one after another. -/
theorem outputIsAppendOnly : Obligations.OutputIsAppendOnly := by
  intro i s t hreset hstart hs he
  have hgrows : OutputGrows s t := (exec_ends hreset hstart he).outputGrows hs
  exact ⟨hgrows.length, hgrows.bytes, hgrows.canonical, hgrows.within⟩

end Sys2Proof.Machine
end

section
/-! SUPPORT. The bit fields of a number, and fields set side by side (00_scope.md rule R5; 30_encoding.md rule R71). -/

namespace Sys2Proof.Machine

theorem bitField_low (E n : Nat) : bitField E 0 n = E % 2 ^ n := by
  rw [bitField, Nat.shiftRight_zero, mask, Nat.and_two_pow_sub_one_eq_mod]

/-- A field of a number is the lowest field of the bits from there on. -/
theorem bitField_shiftRight (E lo n : Nat) : bitField E lo n = bitField (E >>> lo) 0 n := rfl

theorem ofNat_bitField (E n : Nat) : BitVec.ofNat n (bitField E 0 n) = BitVec.ofNat n E := by
  rw [bitField_low]
  exact BitVec.eq_of_toNat_eq (by simp)

/-- A field of `n` bits with the field `b` above it, as one number. -/
theorem or_shiftLeft_eq {a n : Nat} (ha : a < 2 ^ n) (b : Nat) : a ||| (b <<< n) = a + 2 ^ n * b := by
  rw [Nat.or_comm, ← Nat.shiftLeft_add_eq_or_of_lt ha, Nat.shiftLeft_eq, Nat.mul_comm, Nat.add_comm]

/-- Two fields side by side with `rest` above them: `a`, and above it `b` with `rest`. -/
theorem two_fields_rest {a n : Nat} (ha : a < 2 ^ n) (b m rest : Nat) :
    (a ||| (b <<< n)) + 2 ^ (n + m) * rest = a + 2 ^ n * (b + 2 ^ m * rest) := by
  rw [or_shiftLeft_eq ha, pow_add]
  ring

theorem low_field {a n : Nat} (ha : a < 2 ^ n) (b : Nat) : (a + 2 ^ n * b) % 2 ^ n = a := by
  rw [Nat.add_mul_mod_self_left, Nat.mod_eq_of_lt ha]

theorem ofNat_low_field {n : Nat} (x : BitVec n) (b : Nat) : BitVec.ofNat n (x.toNat + 2 ^ n * b) = x := by
  rw [← ofNat_bitField, bitField_low, low_field x.isLt, BitVec.ofNat_toNat, BitVec.setWidth_eq]

theorem high_field {a n : Nat} (ha : a < 2 ^ n) (b : Nat) : (a + 2 ^ n * b) >>> n = b := by
  rw [Nat.shiftRight_eq_div_pow, Nat.add_mul_div_left _ _ (Nat.two_pow_pos n), Nat.div_eq_of_lt ha, Nat.zero_add]

/-- The low `n + m` bits are the low `n` bits with the next `m` above them. -/
theorem low_bits_split (E n m : Nat) : (E % 2 ^ n) ||| ((E >>> n) % 2 ^ m) <<< n = E % 2 ^ (n + m) := by
  rw [or_shiftLeft_eq (Nat.mod_lt _ (Nat.two_pow_pos n)), pow_add, Nat.mod_mul, Nat.shiftRight_eq_div_pow]

theorem low_bits_mod {n m : Nat} (h : n ≤ m) (E : Nat) : E % 2 ^ m % 2 ^ n = E % 2 ^ n :=
  Nat.mod_mod_of_dvd _ (pow_dvd_pow 2 h)

/-! ### The length fields of a descriptor (rule R64) -/

theorem lengthFields_packLengths (lens : List (BitVec 4)) (rest : Nat) :
    lengthFields lens.length (packLengths lens + 2 ^ (4 * lens.length) * rest) = lens := by
  induction lens with
  | nil => rfl
  | cons l ls ih =>
    have hE : packLengths (l :: ls) + 2 ^ (4 * (l :: ls).length) * rest
        = l.toNat + 2 ^ 4 * (packLengths ls + 2 ^ (4 * ls.length) * rest) := by
      rw [List.length_cons, Nat.mul_succ, Nat.add_comm _ 4]
      exact two_fields_rest l.isLt _ _ _
    rw [hE, List.length_cons, lengthFields, ofNat_low_field, high_field l.isLt, ih]

theorem packLengths_lengthFields (n E : Nat) : packLengths (lengthFields n E) = E % 2 ^ (4 * n) := by
  induction n generalizing E with
  | zero => simp [lengthFields, packLengths, Nat.mod_one]
  | succ n ih =>
    rw [lengthFields, packLengths, ih, BitVec.toNat_ofNat, Nat.mul_succ, Nat.add_comm _ 4]
    exact low_bits_split E 4 (4 * n)

end Sys2Proof.Machine
end

section
/-! SUPPORT. The forms of `HUFTAB` and the classes of `VAL` as encoded elements: each is well formed, its encoding is the one
of its shared format (rules R64, R66), and every well-formed row with an encoding is an element of its position
(30_encoding.md rule R60). -/

namespace Sys2Proof.Machine

theorem encode_huftabInstr (T : Tables) (r : Role) {count : Nat} {lens : List (BitVec 4)} (hc : count ≤ 31)
    (hl : lens.length = min count 16) : encode T (huftabInstr r count lens) = encodeHuftab count lens := by
  rcases Nat.eq_zero_or_pos count with rfl | hpos
  · rw [List.length_eq_zero_iff.1 hl]
    rfl
  · interval_cases count <;> rfl

theorem huftabInstr_wf (r : Role) {count : Nat} {lens : List (BitVec 4)} (hc : count ≤ 31)
    (hl : lens.length = min count 16) : (huftabInstr r count lens).wf = true := by
  rcases Nat.eq_zero_or_pos count with rfl | hpos
  · rfl
  · interval_cases count <;> exact beq_iff_eq.2 hl

/-- The descriptor of any form, whatever bits follow. -/
theorem decodeHuftab_encodeHuftab (r : Role) {count w v : Nat} {lens : List (BitVec 4)} (hc : count ≤ 31)
    (hl : lens.length = min count 16) (h : encodeHuftab count lens = .bits w v) (rest : Nat) :
    decodeHuftab r (v + 2 ^ w * rest) = huftabInstr r count lens := by
  injection h with hw hv
  subst hw hv
  have hc5 : count < 2 ^ Config.cntW := Nat.lt_succ_of_le hc
  have hn : min count Config.nslot = lens.length := hl.symm
  rw [two_fields_rest hc5, decodeHuftab, bitField_low, low_field hc5, high_field hc5, hn]
  exact congrArg _ (lengthFields_packLengths lens rest)

/-- The encoding of a decoded descriptor: its count and its lengths are the bits they were read from (rule R64). -/
theorem encodeHuftab_lengthFields (E : Nat) :
    encodeHuftab (bitField E 0 5) (lengthFields (min (bitField E 0 5) 16) (E >>> 5))
      = .bits (5 + 4 * min (bitField E 0 5) 16) (E % 2 ^ (5 + 4 * min (bitField E 0 5) 16)) := by
  rw [← low_bits_split, ← bitField_low, ← packLengths_lengthFields]
  rfl

theorem encode_valInstr (T : Tables) (r : Role) {k e : Nat} (hk : k < 16) (he : e < 2 ^ (k - 1)) :
    encode T (valInstr r k e) = encodeVal T r k e := by
  have hmod : e % 2 ^ (k - 1) = e := Nat.mod_eq_of_lt he
  rcases Nat.lt_or_ge k 2 with hk2 | hk2
  · have he0 : e = 0 := by
      rw [show k - 1 = 0 by omega] at he
      exact Nat.lt_one_iff.1 he
    subst he0
    interval_cases k <;> rfl
  · interval_cases k <;> exact congrArg (encodeVal T r _) hmod

theorem valInstr_wf (r : Role) (k e : Nat) : (valInstr r k e).wf = true := by
  unfold valInstr
  split <;> rfl

theorem valInstr_elementAt (r : Role) {k e : Nat} (hk : k < 16) (he : e < 2 ^ (k - 1)) :
    ElementAt r.valPosition (valInstr r k e) := by
  cases r with
  | lit => exact .litVal k e hk he
  | dist => exact .distVal k e hk he
  | cnt => exact .cntVal 0 k e hk he

/-- A well-formed row with an encoding is an element of its position. -/
theorem elementAt_position {i : Instr} {pos : Elem} (hw : i.wf = true) (hp : i.position = some pos) : ElementAt pos i :=
  match i, pos, hw, hp with
  | .hdr u p c k m b, _, _, rfl => .hdr u p c k m b
  | .pad2 v, _, _, rfl => .pad2 v
  | .huftab0 r, _, _, rfl => .tab r 0 [] (by decide) rfl
  | .huftab1 r lens, _, hw, rfl => .tab r 1 lens (by decide) (beq_iff_eq.1 hw)
  | .huftab2 r lens, _, hw, rfl => .tab r 2 lens (by decide) (beq_iff_eq.1 hw)
  | .huftab3 r lens, _, hw, rfl => .tab r 3 lens (by decide) (beq_iff_eq.1 hw)
  | .huftab4 r lens, _, hw, rfl => .tab r 4 lens (by decide) (beq_iff_eq.1 hw)
  | .huftab5 r lens, _, hw, rfl => .tab r 5 lens (by decide) (beq_iff_eq.1 hw)
  | .huftab6 r lens, _, hw, rfl => .tab r 6 lens (by decide) (beq_iff_eq.1 hw)
  | .huftab7 r lens, _, hw, rfl => .tab r 7 lens (by decide) (beq_iff_eq.1 hw)
  | .huftab8 r lens, _, hw, rfl => .tab r 8 lens (by decide) (beq_iff_eq.1 hw)
  | .huftab9 r lens, _, hw, rfl => .tab r 9 lens (by decide) (beq_iff_eq.1 hw)
  | .huftab10 r lens, _, hw, rfl => .tab r 10 lens (by decide) (beq_iff_eq.1 hw)
  | .huftab11 r lens, _, hw, rfl => .tab r 11 lens (by decide) (beq_iff_eq.1 hw)
  | .huftab12 r lens, _, hw, rfl => .tab r 12 lens (by decide) (beq_iff_eq.1 hw)
  | .huftab13 r lens, _, hw, rfl => .tab r 13 lens (by decide) (beq_iff_eq.1 hw)
  | .huftab14 r lens, _, hw, rfl => .tab r 14 lens (by decide) (beq_iff_eq.1 hw)
  | .huftab15 r lens, _, hw, rfl => .tab r 15 lens (by decide) (beq_iff_eq.1 hw)
  | .huftab16 r lens, _, hw, rfl => .tab r 16 lens (by decide) (beq_iff_eq.1 hw)
  | .huftab17 r lens, _, hw, rfl => .tab r 17 lens (by decide) (beq_iff_eq.1 hw)
  | .huftab18 r lens, _, hw, rfl => .tab r 18 lens (by decide) (beq_iff_eq.1 hw)
  | .huftab19 r lens, _, hw, rfl => .tab r 19 lens (by decide) (beq_iff_eq.1 hw)
  | .huftab20 r lens, _, hw, rfl => .tab r 20 lens (by decide) (beq_iff_eq.1 hw)
  | .huftab21 r lens, _, hw, rfl => .tab r 21 lens (by decide) (beq_iff_eq.1 hw)
  | .huftab22 r lens, _, hw, rfl => .tab r 22 lens (by decide) (beq_iff_eq.1 hw)
  | .huftab23 r lens, _, hw, rfl => .tab r 23 lens (by decide) (beq_iff_eq.1 hw)
  | .huftab24 r lens, _, hw, rfl => .tab r 24 lens (by decide) (beq_iff_eq.1 hw)
  | .huftab25 r lens, _, hw, rfl => .tab r 25 lens (by decide) (beq_iff_eq.1 hw)
  | .huftab26 r lens, _, hw, rfl => .tab r 26 lens (by decide) (beq_iff_eq.1 hw)
  | .huftab27 r lens, _, hw, rfl => .tab r 27 lens (by decide) (beq_iff_eq.1 hw)
  | .huftab28 r lens, _, hw, rfl => .tab r 28 lens (by decide) (beq_iff_eq.1 hw)
  | .huftab29 r lens, _, hw, rfl => .tab r 29 lens (by decide) (beq_iff_eq.1 hw)
  | .huftab30 r lens, _, hw, rfl => .tab r 30 lens (by decide) (beq_iff_eq.1 hw)
  | .huftab31 r lens, _, hw, rfl => .tab r 31 lens (by decide) (beq_iff_eq.1 hw)
  | .nsub n, _, _, rfl => .nsub n
  | .val0 r, _, _, rfl => valInstr_elementAt r (k := 0) (e := 0) (by decide) (by decide)
  | .val1 r, _, _, rfl => valInstr_elementAt r (k := 1) (e := 0) (by decide) (by decide)
  | .val2 r e, _, _, rfl => by simpa [valInstr] using valInstr_elementAt r (k := 2) (by decide) e.isLt
  | .val3 r e, _, _, rfl => by simpa [valInstr] using valInstr_elementAt r (k := 3) (by decide) e.isLt
  | .val4 r e, _, _, rfl => by simpa [valInstr] using valInstr_elementAt r (k := 4) (by decide) e.isLt
  | .val5 r e, _, _, rfl => by simpa [valInstr] using valInstr_elementAt r (k := 5) (by decide) e.isLt
  | .val6 r e, _, _, rfl => by simpa [valInstr] using valInstr_elementAt r (k := 6) (by decide) e.isLt
  | .val7 r e, _, _, rfl => by simpa [valInstr] using valInstr_elementAt r (k := 7) (by decide) e.isLt
  | .val8 r e, _, _, rfl => by simpa [valInstr] using valInstr_elementAt r (k := 8) (by decide) e.isLt
  | .val9 r e, _, _, rfl => by simpa [valInstr] using valInstr_elementAt r (k := 9) (by decide) e.isLt
  | .val10 r e, _, _, rfl => by simpa [valInstr] using valInstr_elementAt r (k := 10) (by decide) e.isLt
  | .val11 r e, _, _, rfl => by simpa [valInstr] using valInstr_elementAt r (k := 11) (by decide) e.isLt
  | .val12 r e, _, _, rfl => by simpa [valInstr] using valInstr_elementAt r (k := 12) (by decide) e.isLt
  | .val13 r e, _, _, rfl => by simpa [valInstr] using valInstr_elementAt r (k := 13) (by decide) e.isLt
  | .val14 r e, _, _, rfl => by simpa [valInstr] using valInstr_elementAt r (k := 14) (by decide) e.isLt
  | .val15 r e, _, _, rfl => by simpa [valInstr] using valInstr_elementAt r (k := 15) (by decide) e.isLt

end Sys2Proof.Machine
end

section
/-! SUPPORT. The scan over a table in which at most one slot matches, and the one slot a suffix-free table matches
(41_huffman_table_builder.md rule R117 c, 42_value_decode.md rule R125). -/

namespace Sys2Proof.Machine

/-- A used slot whose stored code is the low bits of `E`. -/
def standsIn (E : Nat) (t : Slot) : Prop := t.depth ≠ 0 ∧ E % 2 ^ t.depth.toNat = t.code.toNat

theorem slotMatches_bitField (E : Nat) (t : Slot) : slotMatches (bitField E 0 16) t = true ↔ standsIn E t := by
  have hd : t.depth.toNat ≤ 16 := le_trans (slot_depth_lt t) (by decide)
  rw [slotMatches, standsIn, Bool.and_eq_true, bne_iff_ne, beq_iff_eq, bitField_low, mask, Nat.and_two_pow_sub_one_eq_mod,
    low_bits_mod hd]

theorem table_getD (t : Table) (k : Fin 16) : t.toList.getD k unusedSlot = t[k] := by simp [List.getD]

/-- What the scan answers stands in the bits scanned. -/
theorem scanSlots_stands {E k d : Nat} {t : Table} (h : scanSlots (bitField E 0 16) t.toList 0 = some (k, d)) :
    d = (t.toList.getD k unusedSlot).depth.toNat ∧ standsIn E (t.toList.getD k unusedSlot) := by
  rw [scanSlots_eq] at h
  obtain ⟨j, hj, he⟩ := Option.map_eq_some_iff.1 h
  rw [Nat.zero_add, Prod.mk.injEq] at he
  obtain ⟨rfl, rfl⟩ := he
  have hm := List.find?_some hj
  exact ⟨rfl, (slotMatches_bitField ..).1 hm⟩

/-- A slot that alone stands in the bits is what the scan answers. -/
theorem scanSlots_of_unique {E : Nat} {t : Table} {k : Fin 16} (hk : standsIn E t[k])
    (hu : ∀ j : Fin 16, standsIn E t[j] → j = k) :
    scanSlots (bitField E 0 16) t.toList 0 = some (k.val, t[k].depth.toNat) := by
  rw [← table_getD] at hk ⊢
  cases h : scanSlots (bitField E 0 16) t.toList 0 with
  | none =>
    rw [scanSlots_eq, Option.map_eq_none_iff, List.find?_eq_none] at h
    exact absurd ((slotMatches_bitField ..).2 hk) (h k (by simp))
  | some kd =>
    obtain ⟨j, d⟩ := kd
    obtain ⟨rfl, hj⟩ := scanSlots_stands h
    have hjk : j = k.val := congrArg Fin.val (hu ⟨j, (scanSlots_bounds h).1⟩ ((table_getD t ⟨j, _⟩) ▸ hj))
    rw [hjk]

/-- Under a suffix-free table two slots that stand in the same bits are one. -/
theorem suffixFree_unique {E : Nat} {t : Table} (hs : suffixFree t) {i j : Fin 16} (hi : standsIn E t[i])
    (hj : standsIn E t[j]) : i = j := by
  obtain ⟨ui, ei⟩ := hi
  obtain ⟨uj, ej⟩ := hj
  by_contra hne
  rcases Nat.le_total t[i].depth.toNat t[j].depth.toNat with hle | hle
  · exact hs i j hne ui uj hle (by rw [← ej, low_bits_mod hle, ei])
  · exact hs j i (Ne.symm hne) uj ui hle (by rw [← ei, low_bits_mod hle, ej])

/-- At the position of a role's `VAL` the decoder reads the role's table. -/
theorem decode_val {pos : Elem} {r : Role} (h : pos = r.valPosition ∨ (r = .cnt ∧ ∃ v1, pos = .cntVal v1)) (T : Tables)
    (bytes : List Byte) (E : Nat) : decode pos T bytes E = decodeVal r (T.get r) E := by
  rcases h with rfl | ⟨rfl, v1, rfl⟩
  · cases r <;> rfl
  · rfl

theorem decodeVal_of_scan {r : Role} {t : Table} {E k d : Nat} (h : scanSlots (bitField E 0 16) t.toList 0 = some (k, d)) :
    decodeVal r t E = .instr (valInstr r k (bitField E d (k - 1))) := by rw [decodeVal, h]

/-- The encoding of a decoded `VAL`: its code is the bits it was found by (rule R66). -/
theorem encode_of_decodeVal {T : Tables} {r : Role} {E : Nat} {i : Instr} (h : decodeVal r (T.get r) E = .instr i) :
    i.wf = true ∧ ∃ w, encode T i = .bits w (E % 2 ^ w) := by
  unfold decodeVal at h
  split at h
  case h_1 => cases h
  case h_2 k d hscan =>
    cases h
    obtain ⟨hd, -, hcode⟩ := scanSlots_stands hscan
    refine ⟨valInstr_wf .., d + (k - 1), ?_⟩
    rw [encode_valInstr T r (scanSlots_bounds hscan).1 (bitField_lt ..), encodeVal, ← hcode, ← hd, ← low_bits_split,
      bitField_shiftRight, bitField_low]

end Sys2Proof.Machine
end

section
/-! SUPPORT. The header's bytes (20_memory.md rule R42 a; 30_encoding.md rule R62), and the decoder on them. -/

namespace Sys2Proof.Machine

theorem beBytes_length (n v : Nat) : (beBytes n v).length = n := by
  induction n with
  | zero => rfl
  | succ n ih => rw [beBytes, List.length_cons, ih]

theorem beNat_beBytes (n v : Nat) : beNat (beBytes n v) = v % 2 ^ (8 * n) := by
  induction n with
  | zero => simp [beBytes, beNat, Nat.mod_one]
  | succ n ih =>
    rw [beBytes, beNat, ih, beBytes_length, BitVec.toNat_ofNat, Nat.mul_succ, pow_add, Nat.mod_mul,
      Nat.shiftRight_eq_div_pow, pow_mul]
    ring

/-- A field of the header read back from its bytes. -/
theorem ofNat_beNat_beBytes {w n : Nat} (hw : w = 8 * n) (x : BitVec w) :
    BitVec.ofNat w (beNat (beBytes n x.toNat)) = x := by
  rw [beNat_beBytes, ← hw, Nat.mod_eq_of_lt x.isLt, BitVec.ofNat_toNat, BitVec.setWidth_eq]

variable {b : List Byte}

theorem decodeHdr_short (h : b.length < 4) : decodeHdr b = .reject .truncated := by rw [decodeHdr, if_pos h]

theorem decodeHdr_badSignature (h : 4 ≤ b.length) (hs : beNat (b.take 4) ≠ Config.sig) :
    decodeHdr b = .reject .badSignature := by rw [decodeHdr, if_neg (Nat.not_lt.2 h), if_pos hs]

theorem decodeHdr_cut (h : 4 ≤ b.length) (hs : beNat (b.take 4) = Config.sig) (hc : b.length < 18) :
    decodeHdr b = .reject .truncated := by
  rw [decodeHdr, if_neg (Nat.not_lt.2 h), if_neg (not_not.2 hs), if_pos hc]

theorem decodeHdr_whole (hs : beNat (b.take 4) = Config.sig) (h : 18 ≤ b.length) :
    decodeHdr b = .instr (.hdr
      (BitVec.ofNat 32 (beNat ((b.drop 4).take 4))) (BitVec.ofNat 32 (beNat ((b.drop 8).take 4)))
      (BitVec.ofNat 16 (beNat ((b.drop 12).take 2))) (BitVec.ofNat 16 (beNat ((b.drop 14).take 2)))
      (BitVec.ofNat 8 (beNat ((b.drop 16).take 1))) (BitVec.ofNat 8 (beNat ((b.drop 17).take 1)))) := by
  rw [decodeHdr, if_neg (by omega), if_neg (not_not.2 hs), if_neg (Nat.not_lt.2 h)]

end Sys2Proof.Machine
end

section
/-! SUPPORT. The bytes the step hands to the decoder at the header as numbers of the stream (20_memory.md rule R42 a), and
the low bits of its lookahead. -/

namespace Sys2Proof.Machine

variable {s : State} {a : Nat}

/-- A piece of a run of bytes is the run from there. -/
theorem inBytes_piece {n i m : Nat} (h : i + m ≤ n) : ((s.inBytes a n).drop i).take m = s.inBytes (a + i) m := by
  refine List.ext_getElem (by simp [State.inBytes]; omega) fun j hj hj' => ?_
  simp [State.inBytes, Nat.add_assoc]

theorem inBytes_cons (h : a < s.inLen) (n : Nat) : s.inBytes a (n + 1) = s.streamByte a :: s.inBytes (a + 1) n := by
  rw [State.inBytes, List.range_succ_eq_map, List.map_cons, List.map_map, Nat.add_zero, streamByte_inside h]
  congr 1
  refine List.map_congr_left fun j _ => ?_
  rw [Function.comp_apply, Nat.succ_eq_add_one, Nat.add_comm j 1, Nat.add_assoc]

theorem beNat_inBytes_one (h : a + 1 ≤ s.inLen) : beNat (s.inBytes a 1) = (s.streamByte a).toNat := by
  rw [inBytes_cons (by omega)]
  simp [State.inBytes, beNat]

theorem beNat_inBytes_two (h : a + 2 ≤ s.inLen) : beNat (s.inBytes a 2) = s.be16At a := by
  rw [inBytes_cons (by omega), beNat, beNat_inBytes_one (by omega), inBytes_length, pow_one, State.be16At]

theorem beNat_inBytes_four (h : a + 4 ≤ s.inLen) : beNat (s.inBytes a 4) = s.be32At a := by
  rw [inBytes_cons (by omega), beNat, inBytes_cons (by omega), beNat, beNat_inBytes_two (by omega), List.length_cons,
    inBytes_length]
  unfold State.be32At State.be16At
  ring

theorem headBytes_length (s : State) : s.headBytes.length = min 18 (s.inLen - s.ip) := inBytes_length ..

theorem headBytes_piece {i m : Nat} (hi : i + m ≤ 18) (h : s.ip + i + m ≤ s.inLen) :
    (s.headBytes.drop i).take m = s.inBytes (s.ip + i) m :=
  inBytes_piece (Nat.le_min.2 ⟨hi, by omega⟩)

theorem headBytes_be32 {i : Nat} (hi : i + 4 ≤ 18) (h : s.ip + i + 4 ≤ s.inLen) :
    beNat ((s.headBytes.drop i).take 4) = s.be32At (s.ip + i) := by rw [headBytes_piece hi h, beNat_inBytes_four h]

theorem headBytes_be16 {i : Nat} (hi : i + 2 ≤ 18) (h : s.ip + i + 2 ≤ s.inLen) :
    beNat ((s.headBytes.drop i).take 2) = s.be16At (s.ip + i) := by rw [headBytes_piece hi h, beNat_inBytes_two h]

theorem headBytes_byte {i : Nat} (hi : i + 1 ≤ 18) (h : s.ip + i + 1 ≤ s.inLen) :
    BitVec.ofNat 8 (beNat ((s.headBytes.drop i).take 1)) = s.streamByte (s.ip + i) := by
  rw [headBytes_piece hi h, beNat_inBytes_one h, BitVec.ofNat_toNat, BitVec.setWidth_eq]

theorem headBytes_signature (h : s.ip + 4 ≤ s.inLen) : beNat (s.headBytes.take 4) = s.be32At s.ip :=
  headBytes_be32 (i := 0) (by decide) h

/-- A whole header at the cursor decodes to the fields `HDR` loads (44_sequencer.md rule R151). -/
theorem decodeHdr_headBytes (h : s.headerOk) :
    decodeHdr s.headBytes = .instr (.hdr s.afterHeader.hUlen s.afterHeader.hPlen s.afterHeader.hCrc1 s.afterHeader.hCrc2
      s.afterHeader.hMargin s.afterHeader.hBlocks) := by
  obtain ⟨hlen, hsig⟩ := h
  rw [decodeHdr_whole ((headBytes_signature (by omega)).trans hsig) (by rw [headBytes_length]; omega),
    headBytes_be32 (by decide) (by omega), headBytes_be32 (by decide) (by omega), headBytes_be16 (by decide) (by omega),
    headBytes_be16 (by decide) (by omega), headBytes_byte (by decide) (by omega), headBytes_byte (by decide) (by omega)]
  rfl

/-- What the step fetches at the header: the gate of rule R151 on the bytes at the cursor, then the fields. -/
theorem decodeHdr_stream (h : s.Reads) :
    decodeHdr s.headBytes = if s.inLen < s.ip + 4 then .reject .truncated
      else if s.be32At s.ip ≠ 0x524E4301 then .reject .badSignature
      else if s.inLen < s.ip + 18 then .reject .truncated
      else .instr (.hdr s.afterHeader.hUlen s.afterHeader.hPlen s.afterHeader.hCrc1 s.afterHeader.hCrc2
        s.afterHeader.hMargin s.afterHeader.hBlocks) := by
  have hcur := h.cursor
  have hlen := headBytes_length s
  split
  case isTrue hshort => exact decodeHdr_short (by omega)
  case isFalse hgate =>
    have hsig := headBytes_signature (s := s) (by omega)
    split
    case isTrue hbad => exact decodeHdr_badSignature (by omega) (hsig.trans_ne hbad)
    case isFalse hgood =>
      have hgood' := not_not.1 hgood
      split
      case isTrue hcut => exact decodeHdr_cut (by omega) (hsig.trans hgood') (by omega)
      case isFalse hwhole => exact decodeHdr_headBytes ⟨by omega, hgood'⟩

theorem ofNat_lookahead (h : s.Reads) {n : Nat} (hn : n ≤ 80) :
    BitVec.ofNat n (lookahead 5 s) = BitVec.ofNat n (s.streamField 0 n) := by
  rw [← bitField_lookahead h.queue (by omega), ofNat_bitField]

end Sys2Proof.Machine
end

section
/-! The statements about the encoding (30_encoding.md). -/

namespace Sys2Proof.Machine

/-- Settles O1: a well-formed row at one of these positions is `PAD2`, a form of `HUFTAB` or `NSUB` (`elementAt_position`),
and each reads its own fields back whatever bits follow. -/
theorem bitElementsDecodeAfterEncode : Obligations.BitElementsDecodeAfterEncode := by
  intro T i pos w v rest bytes hwf hpos hbits henc
  have hel : ElementAt pos i := elementAt_position hwf hpos
  rcases hbits with rfl | ⟨r, rfl⟩ | rfl
  case inl =>
    cases hel with
    | pad2 x =>
      injection henc with hw hv
      subst hw hv
      exact congrArg (Decoded.instr ∘ Instr.pad2) (ofNat_low_field x rest)
  case inr.inl =>
    cases hel with
    | tab _ count lens hc hl =>
      rw [encode_huftabInstr T r hc hl] at henc
      exact congrArg Decoded.instr (decodeHuftab_encodeHuftab r hc hl henc rest)
  case inr.inr =>
    cases hel with
    | nsub x =>
      injection henc with hw hv
      subst hw hv
      exact congrArg (Decoded.instr ∘ Instr.nsub) (ofNat_low_field x rest)

/-- Settles O3: the bits written make slot `k` stand next, and under a suffix-free table no other slot stands there
(`suffixFree_unique`), so the scan finds `k` whatever the order of the slots. -/
theorem valuesDecodeAfterEncode : Obligations.ValuesDecodeAfterEncode := by
  intro T r pos k e w v rest bytes he hpos hsf hused hfit henc
  rw [encode_valInstr T r k.isLt he, encodeVal, table_getD] at henc
  injection henc with hw hv
  subst hw hv
  rw [two_fields_rest hfit, decode_val hpos]
  have hstands : standsIn ((T.get r)[k].code.toNat + 2 ^ (T.get r)[k].depth.toNat * (e + 2 ^ (k.val - 1) * rest))
      (T.get r)[k] := ⟨hused, low_field hfit _⟩
  rw [decodeVal_of_scan (scanSlots_of_unique hstands fun j hj => suffixFree_unique hsf hj hstands), bitField_shiftRight,
    high_field hfit, bitField_low, low_field he]

/-- Settles O2: each field of the header is cut from the bytes where it was put, and read back from them. -/
theorem headerDecodesAfterEncode : Obligations.HeaderDecodesAfterEncode := by
  intro T u p c k m b bs rest E henc
  injection henc with hbs
  have hlen : bs.length = 18 := by
    rw [← hbs]
    simp only [List.length_append, beBytes_length]
  refine ⟨hlen, ?_⟩
  have hlen' : 18 ≤ (bs ++ rest).length := by
    rw [List.length_append, hlen]
    exact Nat.le_add_right ..
  have hsig : beNat ((bs ++ rest).take 4) = Config.sig := by
    subst hbs
    exact beNat_beBytes 4 Config.sig
  subst hbs
  refine (decodeHdr_whole hsig hlen').trans ?_
  rw [Decoded.instr.injEq, Instr.hdr.injEq]
  exact ⟨ofNat_beNat_beBytes (n := 4) rfl u, ofNat_beNat_beBytes (n := 4) rfl p, ofNat_beNat_beBytes (n := 2) rfl c,
    ofNat_beNat_beBytes (n := 2) rfl k, ofNat_beNat_beBytes (n := 1) rfl m, ofNat_beNat_beBytes (n := 1) rfl b⟩

/-- Settles O4: position by position, the bits of an element are the fields it was decoded to. -/
theorem encodeGivesBackTheBitsDecoded : Obligations.EncodeGivesBackTheBitsDecoded := by
  intro T pos bytes E i hhdr hlit hmatch h
  cases pos with
  | hdr => exact absurd rfl hhdr
  | litCopy n => exact absurd rfl (hlit n)
  | matchCopy v1 v2 => exact absurd rfl (hmatch v1 v2)
  | pad2 =>
    cases h
    exact ⟨rfl, 2, congrArg (Encoding.bits 2) (BitVec.toNat_ofNat E 2)⟩
  | nsub =>
    cases h
    exact ⟨rfl, 16, congrArg (Encoding.bits 16) (BitVec.toNat_ofNat E 16)⟩
  | tab r =>
    cases h
    have hc : bitField E 0 5 ≤ 31 := Nat.le_of_lt_succ (bitField_lt E 0 5)
    have hl := lengthFields_length (min (bitField E 0 5) 16) (E >>> 5)
    exact ⟨huftabInstr_wf r hc hl, _, (encode_huftabInstr T r hc hl).trans (encodeHuftab_lengthFields E)⟩
  | litVal => exact encode_of_decodeVal (r := .lit) h
  | distVal => exact encode_of_decodeVal (r := .dist) h
  | cntVal v1 => exact encode_of_decodeVal (r := .cnt) h

/-- Settles O6: position by position, what the decoder makes of the bytes at the cursor and of the lookahead. -/
theorem fetchReadsTheStream : Obligations.FetchReadsTheStream := by
  intro s hs
  refine ⟨?hdr, ?pad2, ?tab, ?nsub, ?val, ?litCopy, ?matchCopy⟩
  case hdr =>
    intro he
    rw [State.fetch, he]
    exact decodeHdr_stream hs
  case pad2 =>
    intro he
    rw [State.fetch, he, ← ofNat_lookahead hs (by decide)]
    rfl
  case tab =>
    intro r he
    rw [State.fetch, he]
    exact congrArg Decoded.instr (decodeHuftab_stream hs.queue r)
  case nsub =>
    intro he
    rw [State.fetch, he, ← ofNat_lookahead hs (by decide)]
    rfl
  case val =>
    intro r he
    exact (decode_val he ..).trans (decodeVal_stream hs r)
  case litCopy =>
    intro run he
    rw [State.fetch, he]
    rfl
  case matchCopy =>
    intro v1 v2 he
    rw [State.fetch, he]
    rfl

/-- Settles O5: the five words are closed terms, which the decoder evaluates. -/
theorem sampleWordsDecode : Obligations.SampleWordsDecode := by
  unfold Obligations.SampleWordsDecode
  decide

end Sys2Proof.Machine
end

section
/-! SUPPORT. The rows of the byte reader and the bit queue in terms of their shared operations
(40_byte_and_bit_reader.md). -/

namespace Sys2Proof.Machine

variable {s : State} {n : Nat}

/-! ### Byte reader (rules R91 to R93) -/

theorem rdBe32_short (h : s.inLen < s.ip + 4) : rdBe32 s = raise .truncated s := by
  rw [rdBe32, rdBytes_short h, andThen_raise]

theorem rdBe16_short (h : s.inLen < s.ip + 2) : rdBe16 s = raise .truncated s := by
  rw [rdBe16, rdBytes_short h, andThen_raise]

theorem rdU8_short (h : s.inLen < s.ip + 1) : rdU8 s = raise .truncated s := by
  rw [rdU8, rdBytes_short h, andThen_raise]

/-! ### Bit queue (rules R96 to R98) -/

theorem execPeek_of_le (h : n ≤ 16) : execPeek n s = .next (returning (peek n s) s) := if_neg (Nat.not_lt.2 h)

theorem execPeek_wide (h : 16 < n) : execPeek n s = .refused .widthAbove16 := if_pos h

theorem execRdbits_of_le (hs : s.Reads) (h : n ≤ 16) :
    execRdbits n s = .next (returning (s.streamField 0 n) (s.afterBits n)) := by
  rw [execRdbits, if_neg (Nat.not_lt.2 h), rdBits_eq hs h]

theorem execRdbits_wide (h : 16 < n) : execRdbits n s = .refused .widthAbove16 := if_pos h

/-- The model's own `ret` is no part of the stream (log entry 3). -/
theorem returning_streamBit (v : Nat) (s : State) (i : Nat) : (returning v s).streamBit i = s.streamBit i := rfl

end Sys2Proof.Machine
end

section
/-! SUPPORT. Past the end of `IN` (40_byte_and_bit_reader.md rule R100): every bit to come is 0, taking bits changes the
number of buffered bits alone, and a descriptor is that of an empty table. -/

namespace Sys2Proof.Machine

/-- Nothing but zeros is left: the cursor is at the end of `IN` and the buffered bits are 0. -/
structure State.Exhausted (s : State) : Prop where
  reads : s.Reads
  atEnd : s.ip = s.inLen
  zeros : s.bqVal = 0

variable {s : State}

theorem State.Exhausted.streamBit_eq (h : s.Exhausted) (i : Nat) : s.streamBit i = false := by
  unfold State.streamBit
  split
  case isTrue => rw [h.zeros, Nat.zero_testBit]
  case isFalse =>
    have hbyte (a : Nat) : s.streamByte (s.ip + a) = 0 := if_neg (by rw [h.atEnd]; omega)
    rw [hbyte]
    exact Nat.zero_testBit _

theorem State.Exhausted.streamField_eq (h : s.Exhausted) (lo n : Nat) : s.streamField lo n = 0 :=
  (eq_streamField fun i => by rw [h.streamBit_eq, Bool.and_false, Nat.zero_testBit]).symm

/-- The cursor stays at the end and the queue stays 0, whatever its length. -/
theorem State.Exhausted.afterBits_eq (h : s.Exhausted) (n : Nat) :
    s.afterBits n = { s with bqCnt := s.bqCnt + 16 * s.wordsFor n - n } := by
  refine queue_ext s _ _ rfl rfl ?ip ?bqVal rfl
  case ip =>
    have hend := h.atEnd
    rw [afterBits_ip]
    dsimp only
    omega
  case bqVal => rw [afterBits_bqVal, h.streamField_eq, h.zeros]

theorem State.Exhausted.afterBits (h : s.Exhausted) (n : Nat) : (s.afterBits n).Exhausted where
  reads := afterBits_reads h.reads n
  atEnd := by rw [h.afterBits_eq]; exact h.atEnd
  zeros := by rw [h.afterBits_eq]; exact h.zeros

theorem State.Exhausted.withTables (h : s.Exhausted) (T : Tables) : (s.withTables T).Exhausted :=
  ⟨⟨h.reads.cursor, h.reads.queueVal, h.reads.queueCnt⟩, h.atEnd, h.zeros⟩

/-- Bits are taken the same way whatever the tables are. -/
theorem afterBits_withTables (n : Nat) (T : Tables) (s : State) :
    (s.withTables T).afterBits n = (s.afterBits n).withTables T := by
  have hfield (lo m : Nat) : (s.withTables T).streamField lo m = s.streamField lo m := streamField_congr fun _ _ => rfl
  unfold State.afterBits
  rw [hfield]
  rfl

/-- A descriptor of no lengths leaves every slot unused (41_huffman_table_builder.md rule R114). -/
theorem buildTable_nil : buildTable [] = emptyTable := by
  refine Vector.ext fun i hi => ?_
  rw [emptyTable, Vector.getElem_replicate]
  exact (buildTable_slot [] ⟨i, hi⟩).trans (if_pos rfl)

/-- The five bits of the count field are 0, and that is the whole descriptor (rules R110, R114). -/
theorem State.Exhausted.huftab_eq (h : s.Exhausted) (r : Role) :
    huftab r s = (s.afterBits 5).withTables (s.tabs.set r emptyTable) := by
  have hlens : s.descriptorLengths = [] := by
    rw [State.descriptorLengths, h.streamField_eq]
    rfl
  rw [Machine.huftab_eq r h.reads, State.afterDescriptor, hlens, h.streamField_eq, buildTable_nil]
  rfl

/-- The three descriptors of a block: 15 bits, three empty tables (44_sequencer.md rule R154). -/
theorem State.Exhausted.blockTables_eq (h : s.Exhausted) :
    huftab .cnt (huftab .dist (huftab .lit s)) = (s.afterBits 15).withTables emptyTables := by
  have hlit := (h.afterBits 5).withTables (s.tabs.set .lit emptyTable)
  have hdist := (hlit.afterBits 5).withTables ((s.tabs.set .lit emptyTable).set .dist emptyTable)
  calc huftab .cnt (huftab .dist (huftab .lit s))
      = huftab .cnt ((((s.afterBits 5).withTables (s.tabs.set .lit emptyTable)).afterBits 5).withTables
          ((s.tabs.set .lit emptyTable).set .dist emptyTable)) := by rw [h.huftab_eq, hlit.huftab_eq]; rfl
    _ = (((s.afterBits 5).afterBits 5).afterBits 5).withTables emptyTables := by
        rw [hdist.huftab_eq]
        simp only [afterBits_withTables]
        rfl
    _ = (s.afterBits 15).withTables emptyTables := by
        rw [afterBits_afterBits h.reads, afterBits_afterBits h.reads]

/-- The subchunk count is sixteen more zeros (rule R155). -/
theorem State.Exhausted.rdNsub_eq (h : s.Exhausted) : rdNsub s = { s.afterBits 16 with nsub := 0 } := by
  rw [rdNsub, rdBits_eq h.reads (by decide), h.streamField_eq]

theorem beginSubchunks_none (h : s.nsub = 0) : beginSubchunks s = State.blockEnded { s with sub := 0 } := by
  rw [beginSubchunks, if_pos h, endBlock_eq]

end Sys2Proof.Machine
end

section
/-! The statements about the byte reader and the bit queue (40_byte_and_bit_reader.md). -/

namespace Sys2Proof.Machine

/-- Settles O16: each read by what it returns when its bytes are there and by its error when they are not. -/
theorem bigEndianReads : Obligations.BigEndianReads := by
  intro s
  refine ⟨?be32, ?be32Short, ?be16, ?be16Short, ?u8, ?u8Short⟩
  case be32 => exact fun h => congrArg Res.finishValue (rdBe32_at h)
  case be32Short => exact fun h => congrArg Res.finishValue (rdBe32_short h)
  case be16 => exact fun h => congrArg Res.finishValue (rdBe16_at h)
  case be16Short => exact fun h => congrArg Res.finishValue (rdBe16_short h)
  case u8 =>
    intro h
    rw [← streamByte_inside h]
    exact congrArg Res.finishValue (rdU8_ok h)
  case u8Short => exact fun h => congrArg Res.finishValue (rdU8_short h)

/-- Settles O17: both rows return the word `LOOKW` sees; `FETCHW` also moves the cursor. -/
theorem lookAndFetchTheWord : Obligations.LookAndFetchTheWord := by
  intro s
  rw [← lookW_eq]
  exact ⟨rfl, rfl⟩

/-- Settles O18: with a width in range `PEEK` returns what `peek_eq` says of the stream. -/
theorem peekShowsTheNextBits : Obligations.PeekShowsTheNextBits := by
  intro s n hs hn
  rw [← peek_eq hs]
  exact execPeek_of_le hn

/-- Settles O19: with a width in range at most one refill is made, and it is enough (`rdBits_eq`). -/
theorem rdbitsReadsTheNextBits : Obligations.RdbitsReadsTheNextBits :=
  fun _ _ hs hn => execRdbits_of_le hs hn

/-- Settles O20: the bits after the call are those after the `n` handed out (`afterBits_streamBit`), and the value has the
`n` bits handed out and no others. -/
theorem rdbitsCutsTheStreamInOrder : Obligations.RdbitsCutsTheStreamInOrder := by
  intro s t n hs he
  obtain ⟨hreads, -⟩ := everyInstructionKeepsTheStreamPosition (.rdbits n) s t hs he
  rcases Nat.lt_or_ge 16 n with hwide | hn
  · cases (execRdbits_wide hwide).symm.trans he
  · cases (execRdbits_of_le hs hn).symm.trans he
    refine ⟨hreads, fun i => ?order, s.streamField 0 n, rfl, fun i => ?value⟩
    case order => rw [returning_streamBit, afterBits_streamBit hs]
    case value => rw [streamField_testBit, Nat.zero_add]

/-- Settles O22: three descriptors of five zeros and a count of sixteen, so that the block ends with no subchunk. -/
theorem exhaustedStreamIsAnEmptyBlock : Obligations.ExhaustedStreamIsAnEmptyBlock := by
  intro s hs hend hzeros
  have h : s.Exhausted := ⟨hs, hend, hzeros⟩
  have hread : rdNsub (huftab .cnt (huftab .dist (huftab .lit s)))
      = { s with tabs := emptyTables, nsub := 0, bqCnt := s.bqCnt + 16 * s.wordsFor 31 - 31 } := by
    rw [h.blockTables_eq, ((h.afterBits 15).withTables emptyTables).rdNsub_eq, afterBits_withTables,
      afterBits_afterBits hs, h.afterBits_eq]
    rfl
  change (stepBlock s).finish = _
  rw [stepBlock, hread, finish_ok, beginSubchunks_none rfl]

/-- Settles O15: the bytes are there, or `Truncated` is raised before the cursor moves. -/
theorem rdbytesReadsOrTruncates : Obligations.RdbytesReadsOrTruncates := fun _ _ =>
  ⟨fun h => congrArg Res.finishBytes (rdBytes_ok h), fun h => congrArg Res.finishBytes (rdBytes_short h)⟩

/-- Settles O21: both rows test the width first. -/
theorem widthAboveSixteenIsRefused : Obligations.WidthAboveSixteenIsRefused :=
  fun _ _ h => ⟨execRdbits_wide h, execPeek_wide h⟩

end Sys2Proof.Machine
end

section
/-! SUPPORT. `MIRROR` on part of a code, and the slots of a built table bit by bit (41_huffman_table_builder.md rules R112,
R113). -/

namespace Sys2Proof.Machine

/-- The low bits of a mirror are the mirror of the leading bits. -/
theorem mirror_mod (c : Nat) {n w : Nat} (h : n ≤ w) : mirror c w % 2 ^ n = mirror (c / 2 ^ (w - n)) n := by
  refine Nat.eq_of_testBit_eq fun i => ?_
  rw [Nat.testBit_mod_two_pow, mirror_testBit, mirror_testBit, Nat.testBit_div_two_pow]
  by_cases hi : i < n
  · rw [show n - 1 - i + (w - n) = w - 1 - i by omega]
    simp [hi, show i < w by omega]
  · simp [hi]

/-- `MIRROR` undoes itself on the bits it keeps. -/
theorem mirror_mirror (c w : Nat) : mirror (mirror c w) w = c % 2 ^ w := by
  refine Nat.eq_of_testBit_eq fun i => ?_
  rw [mirror_testBit, mirror_testBit, Nat.testBit_mod_two_pow]
  by_cases hi : i < w
  · rw [show w - 1 - (w - 1 - i) = i by omega]
    simp [hi, show w - 1 - i < w by omega]
  · simp [hi]

theorem mirror_inj {a b w : Nat} (ha : a < 2 ^ w) (hb : b < 2 ^ w) (h : mirror a w = mirror b w) : a = b := by
  rw [← Nat.mod_eq_of_lt ha, ← Nat.mod_eq_of_lt hb, ← mirror_mirror, ← mirror_mirror, h]

theorem buildTable_depth_toNat (lens : List (BitVec 4)) (i : Fin 16) :
    (buildTable lens)[i].depth.toNat = lengthAt lens i := congrArg BitVec.toNat (buildTable_depth lens i)

theorem buildTable_depth_ne_zero (lens : List (BitVec 4)) (i : Fin 16) :
    (buildTable lens)[i].depth ≠ 0 ↔ lengthAt lens i ≠ 0 := by
  rw [← buildTable_depth_toNat]
  exact not_congr BitVec.toNat_inj.symm

/-- The stored code of any slot is the canonical code with its bits reversed; the code of an unused slot has no bits. -/
theorem buildTable_code_testBit (lens : List (BitVec 4)) (i : Fin 16) (j : Nat) :
    (buildTable lens)[i].code.toNat.testBit j
      = (decide (j < lengthAt lens i) && (canonicalCode lens i).testBit (lengthAt lens i - 1 - j)) := by
  by_cases h : lengthAt lens i = 0
  · rw [buildTable_slot, if_pos h, h]
    simp [unusedSlot]
  · rw [buildTable_code lens i h, mirror_testBit]

/-- Every form of `HUFTAB` takes its descriptor from the stream and builds one table (rule R118). -/
theorem huftabForm_eq {s : State} (h : s.Reads) (r : Role) (count : Nat) (lens : List (BitVec 4)) :
    huftabForm count r lens s
      = .next { s.afterBits (5 + 4 * min count 16) with tabs := s.tabs.set r (buildTable lens) } := by
  rw [huftabForm, takeDescriptor_eq count h]
  rfl

end Sys2Proof.Machine
end

section
/-! SUPPORT. Canonical codes against the code space (41_huffman_table_builder.md rules R111, R117). Measured in units of
`2^(-15)`, the codes of lengths up to `len` fill the space from 0 to `codeAfter lens len`, so that lengths which do not
over-subscribe the space leave room for every code. -/

namespace Sys2Proof.Machine

/-! ### Slots of one length -/

theorem slotsOfLength_eq_sum (lens : List (BitVec 4)) (len n : Nat) :
    slotsOfLength lens len n = ∑ i ∈ Finset.range n, if lengthAt lens i = len then 1 else 0 := by
  induction n with
  | zero => rfl
  | succ n ih => rw [slotsOfLength, ih, Finset.sum_range_succ]

theorem slotsOfLength_mono (lens : List (BitVec 4)) (len : Nat) : Monotone (slotsOfLength lens len) :=
  monotone_nat_of_le_succ fun _ => Nat.le_add_right _ _

/-- A slot is counted among those of its length from its own index on. -/
theorem slotsOfLength_lt (lens : List (BitVec 4)) {i n : Nat} (h : i < n) :
    slotsOfLength lens (lengthAt lens i) i < slotsOfLength lens (lengthAt lens i) n := by
  have hself : slotsOfLength lens (lengthAt lens i) (i + 1) = slotsOfLength lens (lengthAt lens i) i + 1 := by
    rw [slotsOfLength, if_pos rfl]
  exact hself.ge.trans (slotsOfLength_mono lens _ h)

/-! ### The counter of rule R111 -/

/-- The counter once every slot of a length has its code. -/
def codeAfter (lens : List (BitVec 4)) (len : Nat) : Nat := firstCode lens len + slotsOfLength lens len 16

theorem firstCode_succ (lens : List (BitVec 4)) {len : Nat} (h : len ≠ 0) :
    firstCode lens (len + 1) = 2 * codeAfter lens len := by rw [firstCode, if_neg h, codeAfter]

theorem firstCode_le_canonicalCode (lens : List (BitVec 4)) (i : Nat) :
    firstCode lens (lengthAt lens i) ≤ canonicalCode lens i := Nat.le_add_right _ _

theorem canonicalCode_lt_codeAfter (lens : List (BitVec 4)) (i : Fin 16) :
    canonicalCode lens i < codeAfter lens (lengthAt lens i) :=
  Nat.add_lt_add_left (slotsOfLength_lt lens i.isLt) _

/-- The codes of a length, aligned on the left, end before those of any longer length begin. -/
theorem codeAfter_le_firstCode (lens : List (BitVec 4)) {len : Nat} (h : len ≠ 0) (d : Nat) :
    codeAfter lens len * 2 ^ (d + 1) ≤ firstCode lens (len + (d + 1)) := by
  induction d with
  | zero => rw [Nat.zero_add, pow_one, firstCode_succ lens h, Nat.mul_comm]
  | succ d ih =>
    calc codeAfter lens len * 2 ^ (d + 1 + 1)
        = 2 * (codeAfter lens len * 2 ^ (d + 1)) := by ring
      _ ≤ 2 * codeAfter lens (len + (d + 1)) := Nat.mul_le_mul_left 2 (ih.trans (Nat.le_add_right _ _))
      _ = firstCode lens (len + (d + 1 + 1)) := (firstCode_succ lens (by omega)).symm

/-- A shorter code is smaller, aligned on the left, and does not begin the longer one (rule R117 b, d). -/
theorem canonicalCode_shorter (lens : List (BitVec 4)) {i j : Fin 16} (hi : lengthAt lens i ≠ 0)
    (h : lengthAt lens i < lengthAt lens j) :
    (canonicalCode lens i + 1) * 2 ^ (lengthAt lens j - lengthAt lens i) ≤ canonicalCode lens j := by
  obtain ⟨d, hd⟩ := Nat.exists_eq_add_of_lt h
  have hgap := codeAfter_le_firstCode lens hi d
  rw [show lengthAt lens i + (d + 1) = lengthAt lens j by omega] at hgap
  rw [show lengthAt lens j - lengthAt lens i = d + 1 by omega]
  calc (canonicalCode lens i + 1) * 2 ^ (d + 1)
      ≤ codeAfter lens (lengthAt lens i) * 2 ^ (d + 1) := Nat.mul_le_mul_right _ (canonicalCode_lt_codeAfter lens i)
    _ ≤ firstCode lens (lengthAt lens j) := hgap
    _ ≤ canonicalCode lens j := firstCode_le_canonicalCode lens j

/-- Two slots of one length have two codes: of the two, the later one counts the earlier. -/
theorem canonicalCode_ne_of_lengthAt_eq (lens : List (BitVec 4)) {i j : Nat} (hne : i ≠ j)
    (h : lengthAt lens i = lengthAt lens j) : canonicalCode lens i ≠ canonicalCode lens j := by
  unfold canonicalCode
  rcases Nat.lt_or_gt_of_ne hne with hij | hji
  · have := slotsOfLength_lt lens hij
    rw [← h]
    omega
  · have := slotsOfLength_lt lens hji
    rw [h]
    omega

/-- No canonical code is the leading bits of another (rule R117 b). -/
theorem canonicalCode_prefixFree (lens : List (BitVec 4)) {i j : Fin 16} (hi : lengthAt lens i ≠ 0) (hne : i ≠ j)
    (h : lengthAt lens i ≤ lengthAt lens j) :
    canonicalCode lens j / 2 ^ (lengthAt lens j - lengthAt lens i) ≠ canonicalCode lens i := by
  rcases Nat.eq_or_lt_of_le h with heq | hlt
  · rw [heq, Nat.sub_self, pow_zero, Nat.div_one]
    exact canonicalCode_ne_of_lengthAt_eq lens (Fin.val_ne_of_ne hne.symm) heq.symm
  · exact Nat.ne_of_gt ((Nat.le_div_iff_mul_le (Nat.two_pow_pos _)).2 (canonicalCode_shorter lens hi hlt))

/-! ### The code space -/

/-- `2^15` times the sum of `2^(-length)` over the used slots of length at most `len`. -/
def codeSpace (lens : List (BitVec 4)) (len : Nat) : Nat :=
  ∑ i ∈ Finset.range 16, if lengthAt lens i = 0 ∨ len < lengthAt lens i then 0 else 2 ^ (15 - lengthAt lens i)

theorem codeSpace_zero (lens : List (BitVec 4)) : codeSpace lens 0 = 0 :=
  Finset.sum_eq_zero fun _ _ => if_pos (Nat.eq_zero_or_pos _)

theorem codeSpace_succ (lens : List (BitVec 4)) (len : Nat) :
    codeSpace lens (len + 1) = codeSpace lens len + slotsOfLength lens (len + 1) 16 * 2 ^ (15 - (len + 1)) := by
  rw [codeSpace, codeSpace, slotsOfLength_eq_sum, Finset.sum_mul, ← Finset.sum_add_distrib]
  refine Finset.sum_congr rfl fun i _ => ?_
  by_cases h : lengthAt lens i = len + 1
  · simp [h]
  · simp [h, show len + 1 < lengthAt lens i ↔ len < lengthAt lens i by omega]

theorem codeSpace_le_kraftSum (lens : List (BitVec 4)) (len : Nat) : codeSpace lens len ≤ kraftSum lens := by
  change _ ≤ ∑ i ∈ Finset.range 16, if lengthAt lens i = 0 then 0 else 2 ^ (15 - lengthAt lens i)
  refine Finset.sum_le_sum fun i _ => ?_
  by_cases h : lengthAt lens i = 0
  · simp [h]
  · simp only [h, false_or, if_false]
    split
    · exact Nat.zero_le _
    · exact le_rfl

/-- The counter at the start of a length is the space the shorter lengths take. -/
theorem firstCode_eq_codeSpace (lens : List (BitVec 4)) {len : Nat} (h : len < 15) :
    firstCode lens (len + 1) * 2 ^ (15 - (len + 1)) = codeSpace lens len := by
  induction len with
  | zero => rw [codeSpace_zero]; exact Nat.zero_mul _
  | succ len ih =>
    rw [codeSpace_succ, ← ih (by omega), firstCode_succ lens (by omega), codeAfter,
      show 15 - (len + 1) = 15 - (len + 1 + 1) + 1 by omega]
    ring

/-- The counter at the end of a length is the space taken up to that length. -/
theorem codeAfter_eq_codeSpace (lens : List (BitVec 4)) {len : Nat} (h0 : len ≠ 0) (h : len ≤ 15) :
    codeAfter lens len * 2 ^ (15 - len) = codeSpace lens len := by
  obtain ⟨n, rfl⟩ := Nat.exists_eq_succ_of_ne_zero h0
  rw [codeAfter, Nat.add_mul, codeSpace_succ, firstCode_eq_codeSpace lens (by omega)]

/-- Lengths that do not over-subscribe the space leave the counter within each length. -/
theorem codeAfter_le {lens : List (BitVec 4)} (hk : kraftSum lens ≤ 2 ^ 15) {len : Nat} (h0 : len ≠ 0) (h : len ≤ 15) :
    codeAfter lens len ≤ 2 ^ len := by
  refine Nat.le_of_mul_le_mul_right ?_ (Nat.two_pow_pos (15 - len))
  rw [codeAfter_eq_codeSpace lens h0 h, ← pow_add, Nat.add_sub_cancel' h]
  exact (codeSpace_le_kraftSum lens len).trans hk

/-- Every canonical code fits its length (rule R117 a). -/
theorem canonicalCode_fits {lens : List (BitVec 4)} (hk : kraftSum lens ≤ 2 ^ 15) (i : Fin 16) (hi : lengthAt lens i ≠ 0) :
    canonicalCode lens i < 2 ^ lengthAt lens i :=
  (canonicalCode_lt_codeAfter lens i).trans_le (codeAfter_le hk hi (lengthAt_le lens i))

/-! ### The built table -/

/-- The stored codes of a table that does not over-subscribe are suffix-free: were one the low bits of another, its
canonical code would be the leading bits of the other's (rule R117 c). -/
theorem buildTable_suffixFree {lens : List (BitVec 4)} (hk : kraftSum lens ≤ 2 ^ 15) : suffixFree (buildTable lens) := by
  intro i j hne ui uj hle hlow
  rw [buildTable_depth_ne_zero] at ui uj
  rw [buildTable_depth_toNat, buildTable_depth_toNat] at hle
  rw [buildTable_depth_toNat, buildTable_code lens i ui, buildTable_code lens j uj, mirror_mod _ hle] at hlow
  have hlead : canonicalCode lens j / 2 ^ (lengthAt lens j - lengthAt lens i) < 2 ^ lengthAt lens i := by
    rw [Nat.div_lt_iff_lt_mul (Nat.two_pow_pos _), ← pow_add, Nat.add_sub_cancel' hle]
    exact canonicalCode_fits hk j uj
  exact canonicalCode_prefixFree lens ui hne hle (mirror_inj hlead (canonicalCode_fits hk i ui) hlow)

/-- A slot matches a peek of any width when its stored code is the peek's low bits (42_value_decode.md rule R125). -/
theorem slotMatches_iff_standsIn (p : Nat) (t : Slot) : slotMatches p t = true ↔ standsIn p t := by
  rw [slotMatches, standsIn, Bool.and_eq_true, bne_iff_ne, beq_iff_eq, mask, Nat.and_two_pow_sub_one_eq_mod]

end Sys2Proof.Machine
end

section
/-! The statements about the table builder (41_huffman_table_builder.md). -/

namespace Sys2Proof.Machine

/-- Settles O23: the value returned is `mirror c w`, whose bits `mirror_testBit` gives at every width. -/
theorem mirrorReversesTheBits : Obligations.MirrorReversesTheBits :=
  fun _ c w _ _ => ⟨mirror c w, rfl, mirror_testBit c w⟩

/-- Settles O24: every form is `huftabForm` with its own count, and the table it writes is `buildTable` of the lengths
given. -/
theorem huftabFormsWriteTheirTable : Obligations.HuftabFormsWriteTheirTable := by
  intro s r count lens hs hc hl
  refine ⟨buildTable lens, ?run, fun i => ⟨buildTable_depth_toNat lens i, buildTable_code_testBit lens i⟩⟩
  case run => rw [exec_huftabInstr s r count lens hc hl, huftabForm_eq hs]

/-- Settles O25: the bound comes from the code space left, the order and the prefixes from the counter alone, and what the
stored codes keep of them from `mirror` being one-to-one. -/
theorem canonicalCodesArePrefixFree : Obligations.CanonicalCodesArePrefixFree := by
  intro lens hk
  refine ⟨canonicalCode_fits hk, fun _ _ => canonicalCode_shorter lens, fun _ _ hi _ => canonicalCode_prefixFree lens hi,
    buildTable_suffixFree hk, fun p i j hi hj => ?unique⟩
  case unique =>
    rw [slotMatches_iff_standsIn] at hi hj
    exact suffixFree_unique (buildTable_suffixFree hk) hi hj

end Sys2Proof.Machine
end

section
/-! SUPPORT. A complete code (41_huffman_table_builder.md rule R115; 42_value_decode.md rule R127): the canonical codes of
lengths that use the whole code space leave no gap, so that some stored code is the low bits of any number. -/

namespace Sys2Proof.Machine

variable {lens : List (BitVec 4)}

theorem codeSpace_fifteen (lens : List (BitVec 4)) : codeSpace lens 15 = kraftSum lens := by
  change _ = ∑ i ∈ Finset.range 16, if lengthAt lens i = 0 then 0 else 2 ^ (15 - lengthAt lens i)
  exact Finset.sum_congr rfl fun i _ => by simp [Nat.not_lt.2 (lengthAt_le lens i)]

/-- A point of the space taken so far was taken by one of the lengths so far. -/
theorem exists_length_of_lt_codeSpace {x n : Nat} (h : x < codeSpace lens n) :
    ∃ len < n, codeSpace lens len ≤ x ∧ x < codeSpace lens (len + 1) := by
  induction n with
  | zero => exact absurd (codeSpace_zero lens ▸ h) (Nat.not_lt_zero x)
  | succ n ih =>
    rcases Nat.lt_or_ge x (codeSpace lens n) with hlt | hge
    · obtain ⟨len, hlen, hx⟩ := ih hlt
      exact ⟨len, Nat.lt_succ_of_lt hlen, hx⟩
    · exact ⟨n, Nat.lt_succ_self n, hge, h⟩

/-- Counting the slots of a length from the first on, every number below the total is some slot's rank. -/
theorem exists_slot_of_rank {len rank n : Nat} (h : rank < slotsOfLength lens len n) :
    ∃ i < n, lengthAt lens i = len ∧ slotsOfLength lens len i = rank := by
  induction n with
  | zero => exact absurd h (Nat.not_lt_zero rank)
  | succ n ih =>
    rcases Nat.lt_or_ge rank (slotsOfLength lens len n) with hlt | hge
    · obtain ⟨i, hi, hslot⟩ := ih hlt
      exact ⟨i, Nat.lt_succ_of_lt hi, hslot⟩
    · rw [slotsOfLength] at h
      split at h
      case isTrue hlen => exact ⟨n, Nat.lt_succ_self n, hlen, by omega⟩
      case isFalse => omega

/-- In a complete code every 15-bit number begins, most significant bit first, with the canonical code of a used slot. -/
theorem exists_canonicalCode_eq_leading (hk : kraftSum lens = 2 ^ 15) {x : Nat} (hx : x < 2 ^ 15) :
    ∃ i : Fin 16, lengthAt lens i ≠ 0 ∧ canonicalCode lens i = x / 2 ^ (15 - lengthAt lens i) := by
  obtain ⟨n, hn, hlo, hhi⟩ := exists_length_of_lt_codeSpace (lens := lens) (n := 15) (by rwa [codeSpace_fifteen, hk])
  rw [← firstCode_eq_codeSpace lens hn] at hlo
  rw [← codeAfter_eq_codeSpace lens n.succ_ne_zero hn] at hhi
  have hfirst : firstCode lens (n + 1) ≤ x / 2 ^ (15 - (n + 1)) := (Nat.le_div_iff_mul_le (Nat.two_pow_pos _)).2 hlo
  have hafter : x / 2 ^ (15 - (n + 1)) < codeAfter lens (n + 1) := (Nat.div_lt_iff_lt_mul (Nat.two_pow_pos _)).2 hhi
  obtain ⟨i, hi, hlen, hrank⟩ := exists_slot_of_rank (lens := lens) (len := n + 1) (n := 16)
    (Nat.sub_lt_left_of_lt_add hfirst hafter)
  refine ⟨⟨i, hi⟩, hlen ▸ n.succ_ne_zero, ?_⟩
  rw [canonicalCode, hlen, hrank, Nat.add_sub_cancel' hfirst]

/-- In the table of a complete code a slot stands in whatever bits come next. -/
theorem exists_standsIn_buildTable (hk : kraftSum lens = 2 ^ 15) (E : Nat) :
    ∃ i : Fin 16, standsIn E (buildTable lens)[i] := by
  obtain ⟨i, hused, hcode⟩ := exists_canonicalCode_eq_leading hk (mirror_lt E 15)
  refine ⟨i, (buildTable_depth_ne_zero lens i).2 hused, ?_⟩
  rw [buildTable_depth_toNat, buildTable_code lens i hused, hcode, ← mirror_mod _ (lengthAt_le lens i), mirror_mirror,
    low_bits_mod (lengthAt_le lens i)]

end Sys2Proof.Machine
end

section
/-! SUPPORT. The rows of `DECVAL` and `VAL` in terms of the stream (42_value_decode.md rules R125 to R129). -/

namespace Sys2Proof.Machine

variable {s : State} {r : Role} {k : Nat}

theorem slot_eq (s : State) (r : Role) (i : Fin 16) : s.slot r i = (s.tabs.get r)[i] := table_getD _ i

theorem matchedSlot_eq_none_iff :
    s.matchedSlot r = none ↔ ∀ i : Fin 16, (s.tabs.get r)[i].depth ≠ 0 →
      s.streamField 0 (s.tabs.get r)[i].depth.toNat ≠ (s.tabs.get r)[i].code.toNat := by
  simp only [State.matchedSlot, List.find?_eq_none, List.mem_range, Bool.and_eq_true, decide_eq_true_eq, not_and,
    ← slot_eq]
  exact ⟨fun h i => h i i.isLt, fun h i hi => h ⟨i, hi⟩⟩

theorem streamField_mod (s : State) {d n : Nat} (h : d ≤ n) : s.streamField 0 n % 2 ^ d = s.streamField 0 d := by
  rw [← Nat.add_sub_of_le h, streamField_split, low_field (streamField_lt ..)]

/-- A slot whose stored code is the low bits of the next 15 bits is found. -/
theorem matchedSlot_ne_none {i : Fin 16} (h : standsIn (s.streamField 0 15) (s.tabs.get r)[i]) :
    s.matchedSlot r ≠ none := by
  obtain ⟨hused, hcode⟩ := h
  rw [streamField_mod s (slot_depth_lt _)] at hcode
  exact fun hnone => matchedSlot_eq_none_iff.1 hnone i hused hcode

theorem execDecval_of_match (hs : s.Reads) (hk : s.matchedSlot r = some k) :
    execDecval r s = .next (s.valued r k (s.valueOf r k)) := congrArg Res.finishValue (decVal_ok hs hk)

theorem execDecval_of_noMatch (hs : s.Reads) (hk : s.matchedSlot r = none) :
    execDecval r s = .next (s.failedWith .noMatch) := congrArg Res.finishValue (decVal_noMatch hs hk)

/-- The classes with extra bits: the value is those bits under an implied leading 1 (rules R302 to R315). -/
theorem valForm_extra (hs : s.Reads) (r : Role) (h2 : 2 ≤ k) (hk : k < 16) (e : BitVec (k - 1)) :
    valForm k r e.toNat s = .next (s.valued r k (2 ^ (k - 1) + e.toNat)) := by
  rw [valForm_eq hs r hk e.isLt, if_neg (Nat.not_lt.2 h2)]

/-- A `VAL` of a used slot takes between 1 and 29 bits (rule R129). -/
theorem valueBits_bounds (hk : k < 16) (hused : (s.slot r k).depth ≠ 0) :
    1 ≤ s.valueBits r k ∧ s.valueBits r k ≤ 29 := by
  have hpos : (s.slot r k).depth.toNat ≠ 0 := fun h => hused (BitVec.toNat_inj.1 h)
  have hle := slot_depth_lt (s.slot r k)
  unfold State.valueBits
  omega

/-- At most 32 bits are at most two words, and the cursor never goes back (rule R95). -/
theorem afterBits_ip_bounds (hs : s.Reads) {n : Nat} (hn : n ≤ 32) :
    s.ip ≤ (s.afterBits n).ip ∧ (s.afterBits n).ip ≤ s.ip + 4 := by
  have hcursor := hs.cursor
  rw [afterBits_ip, State.wordsFor]
  omega

end Sys2Proof.Machine
end

section
/-! The statements about values (42_value_decode.md). -/

namespace Sys2Proof.Machine

/-- Settles O26: the scan answers the slot that stands next (`decVal_ok`), and the two reads are one of `valueBits`. -/
theorem decvalDecodesTheFirstMatch : Obligations.DecvalDecodesTheFirstMatch :=
  fun _ _ _ hs hk => execDecval_of_match hs hk

/-- Settles O27: the scan finds nothing, and the error is raised before any read. -/
theorem decvalWithoutMatchRaises : Obligations.DecvalWithoutMatchRaises :=
  fun _ _ hs hnone => execDecval_of_noMatch hs (matchedSlot_eq_none_iff.2 hnone)

/-- Settles O28: the codes of a complete code leave no gap (`exists_standsIn_buildTable`), so the scan finds a slot. -/
theorem completeCodeAlwaysMatches : Obligations.CompleteCodeAlwaysMatches := by
  intro s r lens hs htab hk
  obtain ⟨i, hi⟩ := exists_standsIn_buildTable hk (s.streamField 0 15)
  rw [← htab] at hi
  obtain ⟨k, hmatch⟩ := Option.ne_none_iff_exists'.1 (matchedSlot_ne_none hi)
  obtain ⟨hused, -⟩ := matchedSlot_matches hmatch
  exact ⟨k, s.valueOf r k, matchedSlot_lt hmatch, hused, execDecval_of_match hs hmatch⟩

/-- Settles O29: a run that raises nothing matched a slot, and the bounds are those of its class. -/
theorem valueBounds : Obligations.ValueBounds := by
  intro s t r hs he herr hclear
  cases hmatch : s.matchedSlot r with
  | none =>
    cases (execDecval_of_noMatch hs hmatch).symm.trans he
    cases herr.trans hclear
  | some k =>
    cases (execDecval_of_match hs hmatch).symm.trans he
    obtain ⟨hused, -⟩ := matchedSlot_matches hmatch
    have hk := matchedSlot_lt hmatch
    obtain ⟨hone, hmax⟩ := valueBits_bounds hk hused
    exact ⟨s.valueOf r k, s.valueBits r k, rfl, valueOf_le hk, hone, hmax, afterBits_streamBit hs _,
      afterBits_ip_bounds hs (hmax.trans (by decide))⟩

/-- Settles O30: `formVal_eq` at an index of four bits. -/
theorem formvalFormsTheValue : Obligations.FormvalFormsTheValue := by
  intro s k hs
  change execFormval k s = _
  rw [execFormval, formVal_eq k.isLt hs]
  rfl

/-- Settles O31: every class is `valForm` with its own index; the first two have no extra bits. -/
theorem lowerValueClasses : Obligations.LowerValueClasses := fun _ r hs =>
  ⟨fun _ => valForm_eq hs r (k := 0) (e := 0) (by decide) (by decide),
    fun _ => valForm_eq hs r (k := 1) (e := 0) (by decide) (by decide),
    fun _ => valForm_extra hs r (k := 2) (by decide) (by decide),
    fun _ => valForm_extra hs r (k := 3) (by decide) (by decide),
    fun _ => valForm_extra hs r (k := 4) (by decide) (by decide),
    fun _ => valForm_extra hs r (k := 5) (by decide) (by decide),
    fun _ => valForm_extra hs r (k := 6) (by decide) (by decide),
    fun _ => valForm_extra hs r (k := 7) (by decide) (by decide)⟩

/-- Settles O32: every class is `valForm` with its own index. -/
theorem upperValueClasses : Obligations.UpperValueClasses := fun _ r hs =>
  ⟨fun _ => valForm_extra hs r (k := 8) (by decide) (by decide),
    fun _ => valForm_extra hs r (k := 9) (by decide) (by decide),
    fun _ => valForm_extra hs r (k := 10) (by decide) (by decide),
    fun _ => valForm_extra hs r (k := 11) (by decide) (by decide),
    fun _ => valForm_extra hs r (k := 12) (by decide) (by decide),
    fun _ => valForm_extra hs r (k := 13) (by decide) (by decide),
    fun _ => valForm_extra hs r (k := 14) (by decide) (by decide),
    fun _ => valForm_extra hs r (k := 15) (by decide) (by decide)⟩

end Sys2Proof.Machine
end

section
/-! SUPPORT. The rows of the expander in terms of the stream and the output (43_lz_expander.md): the bytes a copy appends,
and what `LITRUN` and `MATCH` come to once their `VAL`s are known. -/

namespace Sys2Proof.Machine

variable {s : State}

/-! ### What a copy appends -/

theorem matchBytes_length (s : State) (d c : Nat) : (s.matchBytes d c).length = c := by simp [State.matchBytes]

theorem matchBytes_getD (s : State) (d : Nat) {c j : Nat} (h : j < c) :
    (s.matchBytes d c).getD j 0 = s.out.read (s.olen - d + j % d) := by
  simp [State.matchBytes, List.getD, h]

theorem appended_matchBytes (s : State) (d c : Nat) :
    s.appended (s.matchBytes d c) = { s with olen := s.olen + c, out := s.out.putAll s.olen (s.matchBytes d c) } := by
  rw [State.appended, matchBytes_length]

theorem afterLiteral_eq (s : State) (n : Nat) :
    s.afterLiteral n =
      { s with ip := s.ip + n, olen := s.olen + n, out := s.out.putAll s.olen (s.inBytes s.ip n) } := by
  rw [State.afterLiteral, State.appended, inBytes_length]

theorem afterLiteral_zero (s : State) : s.afterLiteral 0 = s := rfl

/-- Taking bits moves neither `olen` nor `OUT_CAP`. -/
theorem afterBits_fits_iff {n m : Nat} : (s.afterBits n).fits m ↔ s.fits m := Iff.rfl

/-! ### The rows -/

theorem exec_cpylit (n : Nat) (s : State) : exec (.cpylit n) s = (cpyLit n s).finish := rfl

theorem exec_cpymatch_zero (c : Nat) (s : State) : exec (.cpymatch 0 c) s = .fault .undefinedOutByte := rfl

theorem exec_cpymatch {d : Nat} (hd : 1 ≤ d) (c : Nat) (s : State) :
    exec (.cpymatch d c) s = (cpyMatch d c s).finish := if_neg (Nat.ne_of_gt hd)

theorem exec_litrun (s : State) : exec .litrun s = (litRun s).finish := rfl

theorem exec_lzmatch (s : State) : exec .lzmatch s = (lzMatch s).finish := rfl

/-! ### LITRUN (rule R135) -/

theorem litRun_noMatch (hs : s.Reads) (hnone : s.matchedSlot .lit = none) : litRun s = raise .noMatch s := by
  rw [litRun, decVal_noMatch hs hnone, andThen_raise]

/-- An empty run copies nothing and tests nothing. -/
theorem litRun_empty (hs : s.Reads) {k : Nat} (hk : s.matchedSlot .lit = some k) (hv : s.valueOf .lit k = 0) :
    litRun s = .ok () (s.afterBits (s.valueBits .lit k)) := by
  rw [litRun, decVal_ok hs hk, andThen_ok, if_neg (not_not.2 hv)]

/-- Any other run is the copy of as many bytes as the `VAL` says, from where its bits leave the cursor. -/
theorem litRun_copy (hs : s.Reads) {k : Nat} (hk : s.matchedSlot .lit = some k) (hv : s.valueOf .lit k ≠ 0) :
    litRun s = cpyLit (s.valueOf .lit k) (s.afterBits (s.valueBits .lit k)) := by
  rw [litRun, decVal_ok hs hk, andThen_ok, if_pos hv]

/-! ### MATCH (rule R137) -/

/-- The state after both `VAL`s of a `MATCH`, of classes `k1` and `k2`, where its copy begins. -/
def State.afterValues (s : State) (k1 k2 : Nat) : State :=
  (s.afterDist k1).afterBits ((s.afterDist k1).valueBits .cnt k2)

/-! The `VAL`s take bits only, so the copy meets the output and the capacity as they were. -/

theorem afterValues_olen (s : State) (k1 k2 : Nat) : (s.afterValues k1 k2).olen = s.olen := rfl

theorem afterValues_out (s : State) (k1 k2 : Nat) : (s.afterValues k1 k2).out = s.out := rfl

theorem afterValues_fits_iff {k1 k2 n : Nat} : (s.afterValues k1 k2).fits n ↔ s.fits n := Iff.rfl

theorem afterMatch_eq (s : State) (k1 k2 : Nat) :
    s.afterMatch k1 k2 = (s.afterValues k1 k2).appended ((s.afterValues k1 k2).matchBytes
      (s.valueOf .dist k1 + 1) ((s.afterDist k1).valueOf .cnt k2 + 2)) := rfl

theorem afterDist_reads (hs : s.Reads) (k : Nat) : (s.afterDist k).Reads := afterBits_reads hs _

theorem lzMatch_noDistance (hs : s.Reads) (hnone : s.matchedSlot .dist = none) : lzMatch s = raise .noMatch s := by
  rw [lzMatch, decVal_noMatch hs hnone, andThen_raise]

/-- After the distance, `MATCH` goes on from the state the distance's bits leave. -/
theorem lzMatch_distance (hs : s.Reads) {k1 : Nat} (hk1 : s.matchedSlot .dist = some k1) :
    lzMatch s = (decVal .cnt (s.afterDist k1)).andThen fun v2 t => cpyMatch (s.valueOf .dist k1 + 1) (v2 + 2) t := by
  rw [lzMatch, decVal_ok hs hk1, andThen_ok, State.afterDist]

theorem lzMatch_noCount (hs : s.Reads) {k1 : Nat} (hk1 : s.matchedSlot .dist = some k1)
    (hnone : (s.afterDist k1).matchedSlot .cnt = none) : lzMatch s = raise .noMatch (s.afterDist k1) := by
  rw [lzMatch_distance hs hk1, decVal_noMatch (afterDist_reads hs k1) hnone, andThen_raise]

/-- With both `VAL`s decoded, `MATCH` is the copy from the state their bits leave. -/
theorem lzMatch_copy (hs : s.Reads) {k1 k2 : Nat} (hk1 : s.matchedSlot .dist = some k1)
    (hk2 : (s.afterDist k1).matchedSlot .cnt = some k2) :
    lzMatch s = cpyMatch (s.valueOf .dist k1 + 1) ((s.afterDist k1).valueOf .cnt k2 + 2)
      (s.afterValues k1 k2) := by
  rw [lzMatch_distance hs hk1, decVal_ok (afterDist_reads hs k1) hk2, andThen_ok, State.afterValues]

end Sys2Proof.Machine
end

section
/-! The statements about the expander (43_lz_expander.md). -/

namespace Sys2Proof.Machine

/-- Settles O33: the bytes are stored one after another from `olen` on (`afterLiteral_eq`), so each reads back at its own
address and no other address is written. -/
theorem cpylitCopiesOrRaises : Obligations.CpylitCopiesOrRaises := by
  intro s n wf _ _
  refine ⟨fun hip hf => ⟨s.out.putAll s.olen (s.inBytes s.ip n), ?run, fun j hj => ?inside, fun a ha => ?outside⟩,
    fun hshort => ?short, fun hip hfull => ?full⟩
  case run => rw [exec_cpylit, cpyLit_ok hip hf, finish_ok, afterLiteral_eq]
  case inside =>
    rw [Memory.read_putAll_inside wf _ _ (by rwa [inBytes_length]), inBytes_getD s s.ip n j hj]
  case outside => exact Memory.read_putAll_other wf _ _ (by rwa [inBytes_length])
  case short => rw [exec_cpylit, cpyLit_short hshort, finish_raise, failedWith_eq]
  case full => rw [exec_cpylit, cpyLit_full hip hfull, finish_raise, failedWith_eq]

/-- Settles O34: the byte-serial loop appends the last `d` bytes of the old output repeated (`copyMatch_eq`, by the
periodicity of what it has written so far), and each byte reads back at its own address. -/
theorem cpymatchCopiesOrRaises : Obligations.CpymatchCopiesOrRaises := by
  intro s d c wf hd _ _ _
  refine ⟨fun hle hf => ⟨s.out.putAll s.olen (s.matchBytes d c), ?run, fun j hj => ?inside, fun a ha => ?outside⟩,
    fun hfar => ?far, fun hle hfull => ?full⟩
  case run => rw [exec_cpymatch hd, cpyMatch_ok hd hle hf wf, finish_ok, appended_matchBytes]
  case inside =>
    rw [Memory.read_putAll_inside wf _ _ (by rwa [matchBytes_length]), matchBytes_getD s d hj]
  case outside => exact Memory.read_putAll_other wf _ _ (by rwa [matchBytes_length])
  case far => rw [exec_cpymatch hd, cpyMatch_far hfar, finish_raise, failedWith_eq]
  case full => rw [exec_cpymatch hd, cpyMatch_full hle hfull, finish_raise, failedWith_eq]

/-- Settles O35: distance 0 is tested before the copy. -/
theorem cpymatchDistanceZeroFaults : Obligations.CpymatchDistanceZeroFaults :=
  fun s c => exec_cpymatch_zero c s

/-- Settles O36: an empty run ends after its `VAL`; any other is `CPYLIT` from the state after the `VAL`. -/
theorem litrunCopiesTheRun : Obligations.LitrunCopiesTheRun := by
  intro s k hs ⟨hk, hrun⟩
  rw [exec_litrun, State.afterLitrun]
  by_cases hv : s.valueOf .lit k = 0
  case pos => rw [litRun_empty hs hk hv, finish_ok, hv, afterLiteral_zero]
  case neg =>
    obtain ⟨hip, hf⟩ := hrun.resolve_left hv
    rw [litRun_copy hs hk hv, cpyLit_ok hip (afterBits_fits_iff.2 hf), finish_ok]

/-- Settles O37: the scan fails before any read, and the errors of the copy are those of `CPYLIT` after the `VAL`. -/
theorem litrunErrors : Obligations.LitrunErrors := by
  intro s hs
  refine ⟨fun hnone => ?noMatch, fun k hk hv => ⟨fun hshort => ?short, fun hip hfull => ?full⟩⟩
  case noMatch => rw [exec_litrun, litRun_noMatch hs hnone, finish_raise, failedWith_eq]
  case short => rw [exec_litrun, litRun_copy hs hk hv, cpyLit_short hshort, finish_raise, failedWith_eq]
  case full =>
    rw [exec_litrun, litRun_copy hs hk hv, cpyLit_full hip (mt afterBits_fits_iff.1 hfull), finish_raise, failedWith_eq]

/-- Settles O38: `MATCH` is `CPYMATCH` from the state both `VAL`s leave (`lzMatch_copy`), whose output is the old one. -/
theorem matchCopiesFromTheOutput : Obligations.MatchCopiesFromTheOutput := by
  intro s k1 k2 hs wf ⟨hk1, hk2, hle, hf⟩
  have hle' : s.valueOf .dist k1 + 1 ≤ (s.afterValues k1 k2).olen := by rwa [afterValues_olen]
  have wf' : (s.afterValues k1 k2).out.wf := by rwa [afterValues_out]
  rw [exec_lzmatch, lzMatch_copy hs hk1 hk2, cpyMatch_ok (Nat.le_add_left 1 _) hle' (afterValues_fits_iff.2 hf) wf',
    finish_ok, afterMatch_eq]

/-- Settles O39: each scan fails before its own reads, and the errors of the copy are those of `CPYMATCH` after both
`VAL`s. -/
theorem matchErrors : Obligations.MatchErrors := by
  intro s hs
  refine ⟨fun hnone => ?noDistance, fun k1 hk1 => ⟨fun hnone => ?noCount, fun k2 hk2 =>
    ⟨fun hfar => ?far, fun hle hfull => ?full⟩⟩⟩
  case noDistance => rw [exec_lzmatch, lzMatch_noDistance hs hnone, finish_raise, failedWith_eq]
  case noCount => rw [exec_lzmatch, lzMatch_noCount hs hk1 hnone, finish_raise, failedWith_eq]
  case far =>
    have hfar' : (s.afterValues k1 k2).olen < s.valueOf .dist k1 + 1 := by rwa [afterValues_olen]
    rw [exec_lzmatch, lzMatch_copy hs hk1 hk2, cpyMatch_far hfar', finish_raise, failedWith_eq, State.afterValues]
  case full =>
    have hle' : s.valueOf .dist k1 + 1 ≤ (s.afterValues k1 k2).olen := by rwa [afterValues_olen]
    rw [exec_lzmatch, lzMatch_copy hs hk1 hk2, cpyMatch_full hle' (mt afterValues_fits_iff.1 hfull), finish_raise,
      failedWith_eq, State.afterValues]

end Sys2Proof.Machine
end

section
/-! SUPPORT. The rows of the sequencer in terms of the stream (44_sequencer.md rules R151 to R157): `HDR` by its gate, the
tails of the steps in closed form, and a subchunk's two halves where they can run to their ends. -/

namespace Sys2Proof.Machine

variable {s t : State}

/-! ### START and the header -/

theorem execStart_busy (h : s.busy = true) : execStart s = .next s := if_pos h

theorem execStart_standing (h : s.busy = false) : execStart s = .next (clearRegisters .header s) := if_neg (by simp [h])

theorem busy_iff : s.busy = true ↔ s.phase = .header ∨ s.phase = .perBlock ∨ s.phase = .perSubchunk := by
  simp [State.busy, or_assoc]

theorem not_busy_iff : s.busy = false ↔ s.phase = .idle ∨ s.phase = .done ∨ s.phase = .failed := by
  unfold State.busy
  cases s.phase <;> decide

/-- An error of the gate is the error of the whole row, whatever its fields. -/
theorem execHdr_raise {u p : BitVec 32} {c k : BitVec 16} {m b : BitVec 8} {e : Error} (h : hdrGate s = raise e t) :
    execHdr u p c k m b s = .next (t.failedWith e) := by
  rw [execHdr, h, andThen_raise, finish_raise, failedWith_eq]

theorem hdr_raise {e : Error} (h : hdrGate s = raise e t) : hdr s = raise e t := by rw [hdr, h, andThen_raise]

theorem stepHeader_raise {e : Error} (h : hdrGate s = raise e t) : stepHeader s = raise e t := by
  rw [stepHeader, hdr_raise h, andThen_raise]

theorem execHdr_ok (h : s.headerOk) (u p : BitVec 32) (c k : BitVec 16) (m b : BitVec 8) :
    execHdr u p c k m b s = .next { s with
      ip := s.ip + 18
      hSig := 0x524E4301
      hUlen := u
      hPlen := p
      hCrc1 := c
      hCrc2 := k
      hMargin := m
      hBlocks := b } := by
  rw [execHdr, hdrGate_ok h, andThen_ok, finish_ok, State.afterSignature, h.2]
  rfl

theorem afterHeader_reads (hs : s.Reads) (h : s.headerOk) : s.afterHeader.Reads := ⟨h.1, hs.queueVal, hs.queueCnt⟩

/-- The registers `endHeader` writes, as one record. -/
theorem endHeader_eq (s : State) :
    endHeader s = { s with blk := 0, phase := if s.hBlocks = 0 then .done else .perBlock,
                           elem := if s.hBlocks = 0 then .hdr else .tab .lit } := by
  unfold endHeader
  split <;> rfl

theorem pad2_eq (hs : s.Reads) : pad2 s = s.afterBits 2 := congrArg Prod.snd (rdBits_eq hs (by decide))

theorem stepHeader_ok (hs : s.Reads) (h : s.headerOk) : stepHeader s = .ok () (endHeader (s.afterHeader.afterBits 2)) := by
  rw [stepHeader, hdr_ok h, andThen_ok, pad2_eq (afterHeader_reads hs h)]

/-! ### A block's tables and count -/

theorem rdNsub_eq (hs : s.Reads) : rdNsub s = { s.afterBits 16 with nsub := s.streamField 0 16 } := by
  rw [rdNsub, rdBits_eq hs (by decide)]

theorem beginSubchunks_eq (s : State) :
    beginSubchunks s = if s.nsub = 0 then State.blockEnded { s with sub := 0 }
      else { s with sub := 0, phase := .perSubchunk, elem := .litVal } := by
  rw [beginSubchunks, endBlock_eq]

/-! ### A subchunk -/

theorem endSubchunk_last (h : s.sub + 1 = s.nsub) : endSubchunk s = State.blockEnded { s with sub := s.sub + 1 } := by
  rw [endSubchunk, if_pos h, endBlock_eq]

theorem endSubchunk_more (h : s.sub + 1 < s.nsub) : endSubchunk s = { s with sub := s.sub + 1, elem := .litVal } :=
  if_neg (Nat.ne_of_lt h)

theorem hasMatch_last (h : s.sub + 1 = s.nsub) : hasMatch s = false := by
  simp only [hasMatch, ne_eq, decide_eq_false_iff_not]
  omega

theorem hasMatch_more (h : s.sub + 1 < s.nsub) : hasMatch s = true := (hasMatch_iff (Nat.lt_of_succ_lt h)).2 h

/-- After the literal run of the last subchunk of a block there is no match. -/
theorem stepSubchunk_last (h : litRun s = .ok () t) (hlast : t.sub + 1 = t.nsub) :
    stepSubchunk s = .ok () (endSubchunk t) := by
  rw [stepSubchunk, h, andThen_ok, hasMatch_last hlast, if_neg Bool.false_ne_true, andThen_ok]

/-- After the literal run of any other subchunk the match decides. -/
theorem stepSubchunk_more (h : litRun s = .ok () t) (hmore : t.sub + 1 < t.nsub) :
    stepSubchunk s = (lzMatch t).andThen fun _ u => .ok () (endSubchunk u) := by
  rw [stepSubchunk, h, andThen_ok, hasMatch_more hmore, if_pos rfl]

/-- `LITRUN` runs to its end: an empty run is a copy of no bytes. -/
theorem litRun_ok {k : Nat} (hs : s.Reads) (h : s.litrunOk k) : litRun s = .ok () (s.afterLitrun k) := by
  obtain ⟨hk, hrun⟩ := h
  rw [State.afterLitrun]
  by_cases hv : s.valueOf .lit k = 0
  case pos => rw [litRun_empty hs hk hv, hv, afterLiteral_zero]
  case neg =>
    obtain ⟨hip, hf⟩ := hrun.resolve_left hv
    rw [litRun_copy hs hk hv, cpyLit_ok hip (afterBits_fits_iff.2 hf)]

theorem lzMatch_ok {k1 k2 : Nat} (hs : s.Reads) (wf : s.out.wf) (h : s.matchOk k1 k2) :
    lzMatch s = .ok () (s.afterMatch k1 k2) := by
  obtain ⟨hk1, hk2, hle, hf⟩ := h
  rw [lzMatch_copy hs hk1 hk2, cpyMatch_ok (s := s.afterValues k1 k2) (Nat.le_add_left 1 _) hle
    (afterValues_fits_iff.2 hf) wf, afterMatch_eq]

theorem litRun_runs_stream_output (s : State) : (litRun s).Runs (fun b => b = .stream ∨ b = .output) s :=
  litRun_runs (.inl rfl) (.inr rfl) s

theorem lzMatch_runs_stream_output (s : State) : (lzMatch s).Runs (fun b => b = .stream ∨ b = .output) s :=
  lzMatch_runs (.inl rfl) (.inr rfl) s

theorem afterLitrun_run {k : Nat} (hs : s.Reads) (h : s.litrunOk k) :
    Run (fun b => b = .stream ∨ b = .output) s (s.afterLitrun k) := by
  have hrun := litRun_runs_stream_output s
  rwa [litRun_ok hs h] at hrun

/-- `LITRUN` moves neither index: what is left of it is bits, and bytes of the output; nor does `MATCH`. -/
theorem afterLitrun_indices (s : State) (k : Nat) : (s.afterLitrun k).sub = s.sub ∧ (s.afterLitrun k).nsub = s.nsub :=
  ⟨rfl, rfl⟩

theorem afterMatch_indices (s : State) (k1 k2 : Nat) :
    (s.afterMatch k1 k2).sub = s.sub ∧ (s.afterMatch k1 k2).nsub = s.nsub := ⟨rfl, rfl⟩

/-! ### What the outcome of a row says of the operation -/

/-- An operation that leaves the phase alone raised exactly where its outcome is `FAILED`. -/
theorem Res.Runs.cases_of_finish {W : Bank → Prop} {r : Res Unit} (hr : r.Runs W s) (hc : ¬ W .control)
    (h : r.finish = .next t) :
    (t.phase = .failed ∧ r = .raised t) ∨ (t.phase = s.phase ∧ Run W s t ∧ r = .ok () t) := by
  cases r with
  | ok a u =>
    cases h
    obtain ⟨hphase, _⟩ := Run.control_fields hc hr
    exact .inr ⟨hphase, hr, rfl⟩
  | raised u =>
    cases h
    obtain ⟨e, v, _, rfl⟩ := hr
    exact .inl ⟨rfl, rfl⟩

theorem Res.Runs.raised_of_failed {W : Bank → Prop} {r : Res Unit} (hr : r.Runs W s) (hc : ¬ W .control)
    (hp : s.phase ≠ .failed) (h : r.finish = .next t) (hf : t.phase = .failed) : r = .raised t := by
  rcases hr.cases_of_finish hc h with ⟨-, hraised⟩ | ⟨hphase, -⟩
  · exact hraised
  · exact absurd (hphase.symm.trans hf) hp

/-- A half of a subchunk that did not raise ran to its end, and moved neither index. -/
theorem Res.Runs.ok_of_not_failed {r : Res Unit} (hr : r.Runs (fun b => b = .stream ∨ b = .output) s)
    (h : r.finish = .next t) (hf : t.phase ≠ .failed) : r = .ok () t ∧ t.sub = s.sub ∧ t.nsub = s.nsub := by
  rcases hr.cases_of_finish (by simp) h with ⟨hphase, -⟩ | ⟨-, hrun, hok⟩
  · exact absurd hphase hf
  · obtain ⟨_, _, hsub, _⟩ := hrun.control_fields (by simp)
    exact ⟨hok, hsub, hrun.nsub_eq (by simp)⟩

end Sys2Proof.Machine
end

section
/-! The statements about the sequencer's rows (44_sequencer.md). -/

namespace Sys2Proof.Machine

/-- Settles O7: a busy block with no host operation pending dispatches what it fetched (`blockStep_element`). -/
theorem stepRunsTheDecodedElement : Obligations.StepRunsTheDecodedElement :=
  fun _ _ _ hh hb hf he => (step_nil hh).trans (blockStep_element hb hf he)

/-- Settles O9: the three phases are those in which the block is not busy. -/
theorem terminalPhasesStand : Obligations.TerminalPhasesStand :=
  fun _ hh hp => (step_nil hh).trans (blockStep_standing (not_busy_iff.2 hp))

/-- Settles O11: `START` tests `busy`, and the cleared registers are those of the table of rule R23. -/
theorem startBeginsARunOrIsIgnored : Obligations.StartBeginsARunOrIsIgnored :=
  fun _ => ⟨fun hp => execStart_busy (busy_iff.2 hp), fun hp => execStart_standing (not_busy_iff.2 hp)⟩

/-- Settles O40: the gate's four outcomes. -/
theorem hdrLoadsOrRaises : Obligations.HdrLoadsOrRaises := fun _ u p c k m b =>
  ⟨fun h => execHdr_ok h u p c k m b, fun h => execHdr_raise (hdrGate_none h),
    fun h hsig => execHdr_raise (hdrGate_badSignature h hsig),
    fun h hsig hcut => execHdr_raise (hdrGate_short h hsig hcut)⟩

/-- Settles O42: both rows are one `RDBITS` (`rdBits_eq`). -/
theorem pad2AndNsubConsumeTheirBits : Obligations.Pad2AndNsubConsumeTheirBits := by
  intro s hs
  refine ⟨fun v => ?pad2, fun n => ?nsub⟩
  case pad2 => exact congrArg Host.Outcome.next (pad2_eq hs)
  case nsub =>
    change execNsub n s = _
    rw [execNsub, rdBits_eq hs (by decide)]

/-- Settles O43: past a whole header nothing can fail; before it the gate's error is that of the step. -/
theorem stepHeaderResult : Obligations.StepHeaderResult := by
  intro s hs
  have hfail {e : Error} {t : State} (h : hdrGate s = raise e t) : exec .stepHeader s = .next (t.failedWith e) :=
    congrArg Res.finish (stepHeader_raise h)
  refine ⟨fun h => ?ok, fun h => hfail (hdrGate_none h), fun h hsig => hfail (hdrGate_badSignature h hsig),
    fun h hsig hcut => hfail (hdrGate_short h hsig hcut)⟩
  case ok =>
    change (stepHeader s).finish = _
    rw [stepHeader_ok hs h, finish_ok, endHeader_eq]
    rfl

/-- Settles O44: each descriptor is read from where the one before it left the stream (`huftab_eq`), then the count. -/
theorem stepBlockResult : Obligations.StepBlockResult := by
  intro s hs a b c t
  have ha : a.Reads := afterDescriptor_reads hs .lit
  have hb : b.Reads := afterDescriptor_reads ha .dist
  have hc : c.Reads := afterDescriptor_reads hb .cnt
  change (stepBlock s).finish = _
  rw [stepBlock, huftab_eq .lit hs, huftab_eq .dist ha, huftab_eq .cnt hb, rdNsub_eq hc, finish_ok, beginSubchunks_eq]

/-- Settles O45: an outcome in `FAILED` is an error of the operation, any other its end with both indices kept. -/
theorem stepSubchunkResult : Obligations.StepSubchunkResult := by
  intro s hp _
  have hlit := litRun_runs_stream_output s
  refine ⟨fun t h hf => ?litFails, fun t h hf hlast => ?last, fun t u h hf hmore hm hfu => ?matchFails,
    fun t u h hf hmore hm hfu => ?more⟩ <;> change (stepSubchunk s).finish = _
  case litFails =>
    have hraised := hlit.raised_of_failed (by simp) (by simp [hp]) h hf
    rw [stepSubchunk, hraised, andThen_raised, finish_raised]
  case last =>
    obtain ⟨hok, hsub, hnsub⟩ := hlit.ok_of_not_failed h hf
    rw [stepSubchunk_last hok (by omega), endSubchunk_last (by omega), finish_ok, hsub]
  case matchFails =>
    obtain ⟨hok, hsub, hnsub⟩ := hlit.ok_of_not_failed h hf
    have hraised := (lzMatch_runs_stream_output t).raised_of_failed (by simp) hf hm hfu
    rw [stepSubchunk_more hok (by omega), hraised, andThen_raised, finish_raised]
  case more =>
    obtain ⟨hok, hsub, hnsub⟩ := hlit.ok_of_not_failed h hf
    obtain ⟨hok', hsub', hnsub'⟩ := (lzMatch_runs_stream_output t).ok_of_not_failed hm hfu
    rw [stepSubchunk_more hok (by omega), hok', andThen_ok, endSubchunk_more (by omega), finish_ok, hsub', hsub]

/-- Settles O46: both halves run to their ends (`litRun_ok`, `lzMatch_ok`), and neither moves an index. -/
theorem stepSubchunkCompletes : Obligations.StepSubchunkCompletes := by
  intro s k hs wf hk
  have hlit := litRun_ok hs hk
  obtain ⟨hsub, hnsub⟩ := afterLitrun_indices s k
  refine ⟨fun hlast => ?last, fun k1 k2 hmore hm => ?more⟩ <;> change (stepSubchunk s).finish = _
  case last => rw [stepSubchunk_last hlit (by omega), endSubchunk_last (by omega), finish_ok, hsub]
  case more =>
    have hreads : (s.afterLitrun k).Reads := (Run.reads hs (afterLitrun_run hs hk)).1
    obtain ⟨hsub', hnsub'⟩ := afterMatch_indices (s.afterLitrun k) k1 k2
    rw [stepSubchunk_more hlit (by omega), lzMatch_ok hreads (Memory.wf_putAll wf _ _) hm, andThen_ok,
      endSubchunk_more (by omega), finish_ok, hsub', hsub]

/-- Settles O47: `endBlock_eq`. -/
theorem endBlockCountsTheBlock : Obligations.EndBlockCountsTheBlock :=
  fun s => congrArg Host.Outcome.next (endBlock_eq s)

end Sys2Proof.Machine
end

section
/-! SUPPORT. A step as an operation of the pseudocode: at each position of the grammar the block runs the operation that the
spec's own steps run there, on the stream, and then the sequencer (44_sequencer.md rules R151 to R156, R162). -/

namespace Sys2Proof.Machine

variable {s t : State} {W : Bank → Prop}

/-- The value an operation returns, left in the model's own `ret` (log entry 3). -/
def Res.handOver (r : Res Nat) : Res Unit := r.andThen fun v t => .ok () (returning v t)

/-- The operation of the pseudocode that stands at a position. -/
def operationAt : Elem → State → Res Unit
  | .hdr, s => hdr s
  | .pad2, s => .ok () (pad2 s)
  | .tab r, s => .ok () (huftab r s)
  | .nsub, s => .ok () (rdNsub s)
  | .litVal, s => (decVal .lit s).handOver
  | .litCopy run, s => cpyLit run s
  | .distVal, s => (decVal .dist s).handOver
  | .cntVal _, s => (decVal .cnt s).handOver
  | .matchCopy v1 v2, s => cpyMatch (v1 + 1) (v2 + 2) s

/-- An operation, and the sequencer after it unless it raised (60_exceptions.md rule R183). -/
def Res.thenAdvance (pos : Elem) (r : Res Unit) : Res Unit := r.andThen fun _ t => .ok () (advance pos t)

theorem thenAdvance_handOver (pos : Elem) (r : Res Nat) :
    r.handOver.thenAdvance pos = r.andThen fun v t => .ok () (advance pos (returning v t)) := by
  cases r <;> rfl

/-! ### What the operation at a position writes -/

/-- The banks that are written at a position: header registers and the count at their own alone. -/
def writtenAt (pos : Elem) (b : Bank) : Prop := b ≠ .control ∧ (b = .header → pos = .hdr) ∧ (b = .count → pos = .nsub)

theorem writtenAt_stream (pos : Elem) : writtenAt pos .stream := ⟨nofun, nofun, nofun⟩

theorem writtenAt_output (pos : Elem) : writtenAt pos .output := ⟨nofun, nofun, nofun⟩

theorem not_writtenAt_control (pos : Elem) : ¬ writtenAt pos .control := fun h => h.1 rfl

theorem decVal_handOver_runs (h : W .stream) (hv : W .value) (r : Role) (s : State) : (decVal r s).handOver.Runs W s :=
  (decVal_runs h r s).andThen fun v _ _ => .ok (Write.value (.value v) hv).run

theorem operationAt_runs (pos : Elem) (s : State) : (operationAt pos s).Runs (writtenAt pos) s := by
  have hstream := writtenAt_stream pos
  have hout := writtenAt_output pos
  cases pos with
  | hdr => exact hdr_runs hstream ⟨nofun, fun _ => rfl, nofun⟩ s
  | pad2 => exact .ok (rdBits_run hstream (by decide) s)
  | tab r => exact .ok (huftab_run hstream ⟨nofun, nofun, nofun⟩ r s)
  | nsub => exact .ok (rdNsub_run hstream ⟨nofun, nofun, fun _ => rfl⟩ s)
  | litVal | distVal | cntVal v1 => exact decVal_handOver_runs hstream ⟨nofun, nofun, nofun⟩ _ s
  | litCopy run => exact cpyLit_runs hstream hout run s
  | matchCopy v1 v2 => exact cpyMatch_runs hout _ _ s

/-! ### The step -/

theorem not_failed_of_busy (h : s.busy = true) : s.phase ≠ .failed := by
  rintro hp
  simp [State.busy, hp] at h

/-- An instruction that comes to an operation, dispatched. -/
theorem blockStep_operation {i : Instr} {r : Res Unit} (hb : s.busy = true) (hf : s.fetch = .instr i)
    (he : exec i s = r.finish) (hr : r.Runs W s) (hc : ¬ W .control) :
    blockStep s = (r.thenAdvance s.elem).finish := by
  cases r with
  | ok a t =>
    obtain ⟨hphase, _⟩ := Run.control_fields hc hr
    rw [blockStep_element hb hf he, afterRun, if_neg (by rw [hphase]; exact not_failed_of_busy hb)]
    rfl
  | raised t =>
    obtain ⟨e, v, _, rfl⟩ := hr
    rw [blockStep_element hb hf he, afterRun, if_pos (errorEntry_phase e v)]
    rfl

/-- Where no element stands, the operation raises at once. -/
theorem blockStep_rejected {x : Reject} {e : Error} {r : Res Unit} (hb : s.busy = true) (hf : s.fetch = .reject x)
    (hx : rejectStep x s = (raise e t : Res Unit).finish) (hr : r = raise e t) :
    blockStep s = (r.thenAdvance s.elem).finish := by
  rw [blockStep_reject hb hf, hx, hr]
  rfl

/-- The header's step is `HDR()`, whatever its tests answer (rule R151). -/
theorem blockStep_header (hb : s.busy = true) (he : s.elem = .hdr) :
    blockStep s = ((hdr s).thenAdvance .hdr).finish := by
  have hfetch : s.fetch = decodeHdr s.headBytes := by rw [State.fetch, he]; rfl
  have hlen := headBytes_length s
  rw [← he]
  by_cases h4 : s.inLen < s.ip + 4
  · have hg := hdrGate_none h4
    exact blockStep_rejected hb (hfetch.trans (decodeHdr_short (by omega))) (congrArg Res.finish hg) (hdr_raise hg)
  have hsig := headBytes_signature (s := s) (by omega)
  by_cases hbad : s.be32At s.ip ≠ 0x524E4301
  · have hg := hdrGate_badSignature (by omega) hbad
    exact blockStep_rejected hb (hfetch.trans (decodeHdr_badSignature (by omega) (hsig.trans_ne hbad)))
      (congrArg Res.finish hg) (hdr_raise hg)
  have hgood := not_not.1 hbad
  by_cases h18 : s.inLen < s.ip + 18
  · have hg := hdrGate_short (by omega) hgood h18
    exact blockStep_rejected hb (hfetch.trans (decodeHdr_cut (by omega) (hsig.trans hgood) (by omega)))
      (congrArg Res.finish hg) (hdr_raise hg)
  have hok : s.headerOk := ⟨by omega, hgood⟩
  refine blockStep_operation hb (hfetch.trans (decodeHdr_headBytes hok)) ?_ (operationAt_runs .hdr s)
    (not_writtenAt_control .hdr)
  rw [hdr_ok hok]
  exact execHdr_ok hok ..

/-- A `VAL`'s step is `DECVAL`, its value handed over (rules R125 to R128). -/
theorem blockStep_val {r : Role} {pos : Elem} (hs : s.Reads) (hb : s.busy = true) (he : s.elem = pos)
    (hpos : pos = r.valPosition ∨ (r = .cnt ∧ ∃ v1, pos = .cntVal v1)) :
    blockStep s = ((decVal r s).handOver.thenAdvance pos).finish := by
  subst he
  obtain ⟨-, -, -, -, hval, -⟩ := fetchReadsTheStream s hs
  have hfetch := hval r hpos
  cases hk : s.matchedSlot r with
  | none =>
    rw [hk] at hfetch
    refine blockStep_rejected (e := .noMatch) hb hfetch rfl ?_
    rw [decVal_noMatch hs hk]
    rfl
  | some k =>
    rw [hk] at hfetch
    refine blockStep_operation hb hfetch ?_
      (decVal_handOver_runs (W := writtenAt s.elem) (writtenAt_stream _) ⟨nofun, nofun, nofun⟩ r s) (not_writtenAt_control _)
    rw [exec_valInstr s r (matchedSlot_lt hk) (streamField_lt ..), valForm_eq hs r (matchedSlot_lt hk) (streamField_lt ..),
      decVal_ok hs hk]
    rfl

/-- A step is the operation at the position, and the sequencer after it. -/
theorem blockStep_eq (hs : s.Reads) (hb : s.busy = true) :
    blockStep s = ((operationAt s.elem s).thenAdvance s.elem).finish := by
  obtain ⟨-, hpad2, htab, hnsub, -, hlit, hmatch⟩ := fetchReadsTheStream s hs
  have hop {i : Instr} (hf : s.fetch = .instr i) (he : exec i s = (operationAt s.elem s).finish) :
      blockStep s = ((operationAt s.elem s).thenAdvance s.elem).finish :=
    blockStep_operation hb hf he (operationAt_runs s.elem s) (not_writtenAt_control s.elem)
  cases hpos : s.elem with
  | hdr => exact blockStep_header hb hpos
  | litVal => exact blockStep_val (r := .lit) hs hb hpos (.inl rfl)
  | distVal => exact blockStep_val (r := .dist) hs hb hpos (.inl rfl)
  | cntVal v1 => exact blockStep_val (r := .cnt) hs hb hpos (.inr ⟨rfl, v1, rfl⟩)
  | pad2 =>
    rw [hpos] at hop
    exact hop (hpad2 hpos) rfl
  | tab r =>
    rw [hpos] at hop
    refine hop (htab r hpos) ?_
    rw [exec_huftabInstr s r _ _ (Nat.le_of_lt_succ (streamField_lt s 0 5)) (descriptorLengths_length s),
      huftabForm, takeDescriptor_eq _ hs, operationAt, huftab_eq r hs]
    rfl
  | nsub =>
    rw [hpos] at hop
    refine hop (hnsub hpos) ?_
    change execNsub _ s = .next (rdNsub s)
    rw [execNsub, rdNsub, rdBits_eq hs (by decide), BitVec.toNat_ofNat, Nat.mod_eq_of_lt (streamField_lt ..)]
  | litCopy run =>
    rw [hpos] at hop
    exact hop (hlit run hpos) rfl
  | matchCopy v1 v2 =>
    rw [hpos] at hop
    exact hop (hmatch v1 v2 hpos) (exec_cpymatch (Nat.le_add_left 1 v1) _ s)

end Sys2Proof.Machine
end

section
/-! The statement about the step at the header. -/

namespace Sys2Proof.Machine

/-- Settles O41: the step is `HDR()` on the stream (`blockStep_header`), whose registers are those of `afterHeader` and
whose errors are the gate's. -/
theorem headerStepReadsTheFields : Obligations.HeaderStepReadsTheFields := by
  intro s hh hp he
  have hstep : step s = ((hdr s).thenAdvance .hdr).finish :=
    (step_nil hh).trans (blockStep_header (busy_iff.2 (.inl hp)) he)
  have hfail {e : Error} {t : State} (h : hdrGate s = raise e t) : step s = .next (t.failedWith e) := by
    rw [hstep, hdr_raise h]
    rfl
  refine ⟨fun h => ?ok, fun h => hfail (hdrGate_none h), fun h hsig => hfail (hdrGate_badSignature h hsig),
    fun h hsig hcut => hfail (hdrGate_short h hsig hcut)⟩
  case ok =>
    rw [hstep, hdr_ok h]
    rfl

end Sys2Proof.Machine
end

section
/-! SUPPORT. The position in the grammar is the model's own mark (log entry 1): no operation but the sequencer's reads it, and
the sequencer writes it anew. So the steps of one phase visit can be followed on the state without the mark. -/

namespace Sys2Proof.Machine

variable {s t : State} {α : Type}

/-- `s` with the sequencer at a position. -/
def State.atElem (e : Elem) (s : State) : State := { s with elem := e }

/-- The same outcome with the position overwritten; error entry writes it itself (60_exceptions.md rule R183). -/
def Res.atElem (e : Elem) : Res α → Res α
  | .ok a t => .ok a (t.atElem e)
  | .raised t => .raised t

theorem atElem_spares (e : Elem) : Spares (State.atElem e) := ⟨fun _ => rfl, fun _ => rfl, fun _ => rfl, fun _ _ => rfl⟩

theorem atElem_of_elem {e : Elem} (h : s.elem = e) : s.atElem e = s := by
  subst h
  rfl

/-! ### The operations -/

theorem pad2_atElem (e : Elem) (s : State) : pad2 (s.atElem e) = (pad2 s).atElem e := by
  simp only [pad2, (atElem_spares e).rdBits]

theorem huftab_atElem (e : Elem) (r : Role) (s : State) : huftab r (s.atElem e) = (huftab r s).atElem e := by
  simp only [huftab, (atElem_spares e).rdBits, (atElem_spares e).rdLengths]
  rfl

theorem rdNsub_atElem (e : Elem) (s : State) : rdNsub (s.atElem e) = (rdNsub s).atElem e := by
  simp only [rdNsub, (atElem_spares e).rdBits]
  rfl

theorem formVal_atElem (e : Elem) (k : Nat) (s : State) :
    formVal k (s.atElem e) = ((formVal k s).1, (formVal k s).2.atElem e) := by
  unfold formVal
  rw [(atElem_spares e).rdBits]
  split <;> rfl

theorem decVal_atElem (e : Elem) (r : Role) (s : State) : decVal r (s.atElem e) = (decVal r s).atElem e := by
  have hscan : scanSlots (peek 16 (s.atElem e)) ((s.atElem e).tabs.get r).toList 0
      = scanSlots (peek 16 s) (s.tabs.get r).toList 0 := rfl
  unfold decVal
  rw [hscan]
  split
  case h_1 => rfl
  case h_2 => rw [(atElem_spares e).rdBits, formVal_atElem]; rfl

theorem cpyLit_atElem (e : Elem) (n : Nat) (s : State) : cpyLit n (s.atElem e) = (cpyLit n s).atElem e := by
  by_cases hip : s.ip + n ≤ s.inLen
  · by_cases hf : s.fits n
    · rw [cpyLit_ok hip hf]
      exact cpyLit_ok (s := s.atElem e) hip hf
    · rw [cpyLit_full hip hf]
      exact cpyLit_full (s := s.atElem e) hip hf
  · have hshort : s.inLen < s.ip + n := Nat.lt_of_not_le hip
    rw [cpyLit_short hshort]
    exact cpyLit_short (s := s.atElem e) hshort

theorem copyMatch_atElem (e : Elem) (L0 d n j : Nat) (s : State) :
    copyMatch L0 d n j (s.atElem e) = (copyMatch L0 d n j s).atElem e := by
  induction n generalizing s j with
  | zero => rfl
  | succ n ih => exact ih (j + 1) (appendOut (s.out.read (L0 - d + j)) s)

theorem cpyMatch_atElem (e : Elem) (d c : Nat) (s : State) : cpyMatch d c (s.atElem e) = (cpyMatch d c s).atElem e := by
  have hcap : overCap c (s.atElem e) = overCap c s := rfl
  have holen : (s.atElem e).olen = s.olen := rfl
  unfold cpyMatch
  rw [hcap, holen, copyMatch_atElem]
  split
  · rfl
  · split <;> rfl

/-! ### The sequencer -/

theorem endHeader_atElem (e : Elem) (s : State) : endHeader (s.atElem e) = endHeader s := by
  rw [endHeader_eq, endHeader_eq]
  rfl

theorem beginSubchunks_atElem (e : Elem) (s : State) : beginSubchunks (s.atElem e) = beginSubchunks s := by
  rw [beginSubchunks_eq, beginSubchunks_eq]
  rfl

theorem endSubchunk_atElem (e : Elem) (s : State) : endSubchunk (s.atElem e) = endSubchunk s := by
  unfold endSubchunk
  rw [endBlock_eq, endBlock_eq]
  rfl

/-- What the sequencer goes on to once the literal run of a subchunk is done (rule R156). -/
def afterLiteralRun (s : State) : State := if hasMatch s then s.atElem .distVal else endSubchunk s

theorem afterLiteralRun_atElem (e : Elem) (s : State) : afterLiteralRun (s.atElem e) = afterLiteralRun s := by
  unfold afterLiteralRun
  rw [endSubchunk_atElem]
  rfl

/-! ### Outcomes -/

theorem andThen_atElem {β : Type} (e : Elem) (r : Res α) (f : α → State → Res β) :
    (r.atElem e).andThen f = r.andThen fun a t => f a (t.atElem e) := by
  cases r <;> rfl

theorem andThen_assoc {β γ : Type} (r : Res α) (f : α → State → Res β) (g : β → State → Res γ) :
    (r.andThen f).andThen g = r.andThen fun a t => (f a t).andThen g := by
  cases r <;> rfl

theorem andThen_congr {β : Type} {r : Res α} {f g : α → State → Res β} (h : ∀ a t, r = .ok a t → f a t = g a t) :
    r.andThen f = r.andThen g := by
  cases r with
  | ok a t => exact h a t rfl
  | raised t => rfl

end Sys2Proof.Machine
end

section
/-! SUPPORT. The steps of one phase visit from a state in the middle of it, each by the operation that runs and the position
that is next (44_sequencer.md rules R153, R154, R156). -/

namespace Sys2Proof.Machine

variable {s t : State} {α β : Type}

/-- In the middle of a phase visit: busy, no host operation pending, no value waiting. -/
structure State.Midway (s : State) : Prop where
  reads : s.Reads
  host : s.hostIn = []
  ret : s.ret = .unit
  busy : s.busy = true

/-- The banks of the operations that return nothing, and of `DECVAL` before its value is handed over. -/
def quiet (b : Bank) : Prop := b ≠ .control ∧ b ≠ .value

theorem quiet_stream : quiet .stream := ⟨nofun, nofun⟩

theorem quiet_output : quiet .output := ⟨nofun, nofun⟩

theorem quiet_header : quiet .header := ⟨nofun, nofun⟩

theorem quiet_tables : quiet .tables := ⟨nofun, nofun⟩

theorem quiet_count : quiet .count := ⟨nofun, nofun⟩

theorem Write.ret_eq {W : Bank → Prop} (hW : ¬ W .value) (h : Write W s t) : t.ret = s.ret := by
  cases h with
  | bits n => rw [rdBits_writes]
  | value v h => exact absurd h hW
  | _ => rfl

theorem State.Midway.run (h : s.Midway) (hrun : Run quiet s t) : t.Midway where
  reads := (hrun.reads h.reads).1
  host := hrun.hostIn_eq.trans h.host
  ret := (hrun.keeps fun _ _ hw => hw.ret_eq fun hv => hv.2 rfl).trans h.ret
  busy := by
    obtain ⟨hphase, _⟩ := hrun.control_fields fun hc => hc.1 rfl
    rw [State.busy, hphase]
    exact h.busy

/-- An operation that did not raise leaves the visit where it was. -/
theorem State.Midway.after {r : Res α} {a : α} (h : s.Midway) (hr : r.Runs quiet s) (e : r = .ok a t) : t.Midway := by
  subst e
  exact h.run hr

theorem State.Midway.atElem (h : s.Midway) (e : Elem) : (s.atElem e).Midway :=
  ⟨⟨h.reads.cursor, h.reads.queueVal, h.reads.queueCnt⟩, h.host, h.ret, h.busy⟩

theorem State.Midway.noValue (h : s.Midway) : ({ s with ret := .unit } : State) = s := by rw [← h.ret]

/-- A step, by the operation at its position and what the sequencer makes of a state in the middle of the visit. -/
theorem State.Midway.step_at (h : s.Midway) {e : Elem} {r : Res α} {f g : α → State → State}
    (hop : (operationAt e (s.atElem e)).thenAdvance e = r.andThen fun a t => .ok () (f a (t.atElem e)))
    (hr : r.Runs quiet s) (hadv : ∀ a t, t.Midway → f a (t.atElem e) = g a t) :
    step (s.atElem e) = (r.andThen fun a t => .ok () (g a t)).finish := by
  have he := h.atElem e
  calc step (s.atElem e) = ((operationAt e (s.atElem e)).thenAdvance e).finish :=
        (step_nil he.host).trans (blockStep_eq he.reads he.busy)
    _ = (r.andThen fun a t => .ok () (g a t)).finish := by
        rw [hop]
        exact congrArg Res.finish (andThen_congr fun a t ht => congrArg (Res.ok ()) (hadv a t (h.after hr ht)))

/-! ### The header (rule R153) -/

theorem advance_hdr (h : s.Midway) : advance .hdr s = s.atElem .pad2 :=
  congrArg (State.atElem .pad2) h.noValue

theorem step_pad2 (h : s.Midway) : step (s.atElem .pad2) = .next (endHeader (pad2 s)) := by
  refine h.step_at (r := .ok () (pad2 s)) (f := fun _ => advance .pad2) (g := fun _ => endHeader) ?_
    (rdBits_run quiet_stream (by decide) s) fun _ t ht => ?_
  · change Res.ok () (advance .pad2 (pad2 (s.atElem .pad2))) = _
    rw [pad2_atElem, andThen_ok]
  · exact (congrArg endHeader (ht.atElem .pad2).noValue).trans (endHeader_atElem .pad2 t)

/-! ### A block's tables and count (rule R154) -/

theorem step_tab (h : s.Midway) {r : Role} {e : Elem}
    (hadv : ∀ t : State, advance (.tab r) t = State.atElem e { t with ret := .unit }) :
    step (s.atElem (.tab r)) = .next ((huftab r s).atElem e) := by
  refine h.step_at (r := .ok () (huftab r s)) (f := fun _ => advance (.tab r)) (g := fun _ => State.atElem e) ?_
    (huftab_run quiet_stream quiet_tables r s) fun _ t ht => ?_
  · change Res.ok () (advance (.tab r) (huftab r (s.atElem (.tab r)))) = _
    rw [huftab_atElem, andThen_ok]
  · rw [hadv, (ht.atElem (.tab r)).noValue]
    rfl

theorem step_nsub (h : s.Midway) : step (s.atElem .nsub) = .next (beginSubchunks (rdNsub s)) := by
  refine h.step_at (r := .ok () (rdNsub s)) (f := fun _ => advance .nsub) (g := fun _ => beginSubchunks) ?_
    (rdNsub_run quiet_stream quiet_count s) fun _ t ht => ?_
  · change Res.ok () (advance .nsub (rdNsub (s.atElem .nsub))) = _
    rw [rdNsub_atElem, andThen_ok]
  · exact (congrArg beginSubchunks (ht.atElem .nsub).noValue).trans (beginSubchunks_atElem .nsub t)

/-! ### A subchunk (rule R156) -/

/-- `DECVAL` at a position, its value handed to the sequencer. -/
theorem val_thenAdvance (e : Elem) (r : Role) (s : State) :
    (decVal r (s.atElem e)).handOver.thenAdvance e
      = (decVal r s).andThen fun v t => .ok () (advance e (returning v (t.atElem e))) := by
  rw [thenAdvance_handOver, decVal_atElem, andThen_atElem]

theorem step_litVal (h : s.Midway) : step (s.atElem .litVal)
    = ((decVal .lit s).andThen fun run t =>
        .ok () (if run ≠ 0 then t.atElem (.litCopy run) else afterLiteralRun t)).finish := by
  refine h.step_at (f := fun run t => advance .litVal (returning run t)) (val_thenAdvance .litVal .lit s)
    (decVal_runs quiet_stream .lit s) fun run t ht => ?_
  change (if run ≠ 0 then State.atElem (.litCopy run) { t.atElem .litVal with ret := .unit }
    else afterLiteralRun { t.atElem .litVal with ret := .unit }) = _
  rw [(ht.atElem .litVal).noValue, afterLiteralRun_atElem]
  rfl

theorem step_litCopy (h : s.Midway) (run : Nat) : step (s.atElem (.litCopy run))
    = ((cpyLit run s).andThen fun _ t => .ok () (afterLiteralRun t)).finish := by
  refine h.step_at (f := fun _ => advance (.litCopy run)) ?_ (cpyLit_runs quiet_stream quiet_output run s) fun _ t ht => ?_
  · change (cpyLit run (s.atElem (.litCopy run))).thenAdvance _ = _
    rw [Res.thenAdvance, cpyLit_atElem, andThen_atElem]
  · exact (congrArg afterLiteralRun (ht.atElem (.litCopy run)).noValue).trans (afterLiteralRun_atElem (.litCopy run) t)

theorem step_distVal (h : s.Midway) : step (s.atElem .distVal)
    = ((decVal .dist s).andThen fun v1 t => .ok () (t.atElem (.cntVal v1))).finish := by
  refine h.step_at (f := fun v1 t => advance .distVal (returning v1 t)) (val_thenAdvance .distVal .dist s)
    (decVal_runs quiet_stream .dist s) fun v1 t ht => ?_
  change State.atElem (.cntVal v1) { t with ret := .unit } = _
  rw [ht.noValue]

theorem step_cntVal (h : s.Midway) (v1 : Nat) : step (s.atElem (.cntVal v1))
    = ((decVal .cnt s).andThen fun v2 t => .ok () (t.atElem (.matchCopy v1 v2))).finish := by
  refine h.step_at (f := fun v2 t => advance (.cntVal v1) (returning v2 t)) (val_thenAdvance (.cntVal v1) .cnt s)
    (decVal_runs quiet_stream .cnt s) fun v2 t ht => ?_
  change State.atElem (.matchCopy v1 v2) { t with ret := .unit } = _
  rw [ht.noValue]

theorem step_matchCopy (h : s.Midway) (v1 v2 : Nat) : step (s.atElem (.matchCopy v1 v2))
    = ((cpyMatch (v1 + 1) (v2 + 2) s).andThen fun _ t => .ok () (endSubchunk t)).finish := by
  refine h.step_at (f := fun _ => advance (.matchCopy v1 v2)) ?_ (cpyMatch_runs quiet_output _ _ s) fun _ t ht => ?_
  · change (cpyMatch (v1 + 1) (v2 + 2) (s.atElem (.matchCopy v1 v2))).thenAdvance _ = _
    rw [Res.thenAdvance, cpyMatch_atElem, andThen_atElem]
  · exact (congrArg endSubchunk (ht.atElem (.matchCopy v1 v2)).noValue).trans (endSubchunk_atElem (.matchCopy v1 v2) t)

end Sys2Proof.Machine
end

section
/-! SUPPORT. A bounded number of the model's steps against an operation of the pseudocode, one element after another
(44_sequencer.md rule R162). -/

namespace Sys2Proof.Machine

variable {s t : State} {n : Nat} {o : Host.Outcome State Fault Refusal} {α : Type}

/-- Within `n` steps the model comes to the outcome. -/
def Completes (n : Nat) (s : State) (o : Host.Outcome State Fault Refusal) : Prop := ∃ m ≤ n, stepRun m s = o

theorem stepRun_next (h : step s = .next t) (n : Nat) : stepRun (n + 1) s = stepRun n t := by rw [stepRun, h]

theorem Completes.here (n : Nat) (s : State) : Completes n s (.next s) := ⟨0, Nat.zero_le n, rfl⟩

theorem Completes.step (h : Machine.step s = .next t) (ht : Completes n t o) : Completes (n + 1) s o := by
  obtain ⟨m, hm, hrun⟩ := ht
  exact ⟨m + 1, Nat.succ_le_succ hm, (stepRun_next h m).trans hrun⟩

theorem Completes.mono {m : Nat} (hm : m ≤ n) (h : Completes m s o) : Completes n s o := by
  obtain ⟨k, hk, hrun⟩ := h
  exact ⟨k, hk.trans hm, hrun⟩

/-- A step that runs an operation, then the rest of the pseudocode: an error ends both (60_exceptions.md rule R190). -/
theorem Completes.element {r : Res α} {f : α → State → State} {g : α → State → Res Unit}
    (hstep : Machine.step s = (r.andThen fun a t => .ok () (f a t)).finish)
    (hrest : ∀ a t, r = .ok a t → Completes n (f a t) (g a t).finish) : Completes (n + 1) s (r.andThen g).finish := by
  cases r with
  | ok a t => exact .step hstep (hrest a t rfl)
  | raised t => exact .step hstep (.here n t)

/-! ### A subchunk -/

/-- `StepSubchunk` from the end of its literal run on (rule R156). -/
def subchunkTail (s : State) : Res Unit :=
  (if hasMatch s then lzMatch s else .ok () s).andThen fun _ t => .ok () (endSubchunk t)

/-- `StepSubchunk` from the first of its `VAL`s on, as one sequence of operations. -/
theorem stepSubchunk_sequence (s : State) :
    stepSubchunk s = (decVal .lit s).andThen fun run t =>
      (if run ≠ 0 then cpyLit run t else .ok () t).andThen fun _ u => subchunkTail u :=
  andThen_assoc ..

theorem lzMatch_sequence (s : State) :
    (lzMatch s).andThen (fun _ u => .ok () (endSubchunk u)) = (decVal .dist s).andThen fun v1 t =>
      (decVal .cnt t).andThen fun v2 u => (cpyMatch (v1 + 1) (v2 + 2) u).andThen fun _ v => .ok () (endSubchunk v) := by
  rw [lzMatch, andThen_assoc]
  exact andThen_congr fun v1 t _ => andThen_assoc ..

/-- The three elements of a match. -/
theorem match_completes (h : s.Midway) :
    Completes 3 (s.atElem .distVal) ((lzMatch s).andThen fun _ u => .ok () (endSubchunk u)).finish := by
  rw [lzMatch_sequence]
  refine .element (step_distVal h) fun v1 t ht => ?_
  have ht' := h.after (decVal_runs quiet_stream .dist s) ht
  refine .element (step_cntVal ht' v1) fun v2 u hu => ?_
  have hu' := ht'.after (decVal_runs quiet_stream .cnt t) hu
  exact .element (step_matchCopy hu' v1 v2) fun _ v _ => .here 0 (endSubchunk v)

theorem subchunkTail_completes (h : s.Midway) : Completes 3 (afterLiteralRun s) (subchunkTail s).finish := by
  unfold afterLiteralRun subchunkTail
  split
  case isTrue => exact match_completes h
  case isFalse => exact .here 3 (endSubchunk s)

theorem stepSubchunk_completes (h : s.Midway) : Completes 5 (s.atElem .litVal) (stepSubchunk s).finish := by
  rw [stepSubchunk_sequence]
  refine .element (step_litVal h) fun run t ht => ?_
  have ht' := h.after (decVal_runs quiet_stream .lit s) ht
  split
  case isTrue =>
    refine .element (step_litCopy ht' run) fun _ u hu => subchunkTail_completes ?_
    exact ht'.after (cpyLit_runs quiet_stream quiet_output run t) hu
  case isFalse => exact (subchunkTail_completes ht').mono (by decide)

end Sys2Proof.Machine
end

section
/-! The statements that the model's steps come to those of the spec. -/

namespace Sys2Proof.Machine

/-- Settles O48: `HDR`, which may raise, then `PAD2`, which may not. -/
theorem headerElementsRefineStepHeader : Obligations.HeaderElementsRefineStepHeader := by
  intro s hs hh hret hp he
  have h : s.Midway := ⟨hs, hh, hret, busy_iff.2 (.inl hp)⟩
  have hstep : step s = ((hdr s).thenAdvance .hdr).finish := (step_nil hh).trans (blockStep_header h.busy he)
  change Completes 2 s ((hdr s).andThen fun _ t => .ok () (endHeader (pad2 t))).finish
  refine .element hstep fun _ t ht => ?_
  have ht' := h.after (hdr_runs quiet_stream quiet_header s) ht
  rw [advance_hdr ht']
  exact .step (step_pad2 ht') (.here 0 _)

/-- Settles O49: four elements, none of which raises. -/
theorem blockElementsRefineStepBlock : Obligations.BlockElementsRefineStepBlock := by
  intro s hs hh hret hp he
  have h : s.Midway := ⟨hs, hh, hret, busy_iff.2 (.inr (.inl hp))⟩
  have hlit : (huftab .lit s).Midway := h.run (huftab_run quiet_stream quiet_tables .lit s)
  have hdist : (huftab .dist (huftab .lit s)).Midway := hlit.run (huftab_run quiet_stream quiet_tables .dist _)
  have hcnt : (huftab .cnt (huftab .dist (huftab .lit s))).Midway :=
    hdist.run (huftab_run quiet_stream quiet_tables .cnt _)
  rw [← atElem_of_elem he, stepRun_next (step_tab h fun _ => rfl), stepRun_next (step_tab hlit fun _ => rfl),
    stepRun_next (step_tab hdist fun _ => rfl), stepRun_next (step_nsub hcnt), atElem_of_elem he]
  rfl

/-- Settles O50: the literal run is one or two elements, a match three, and an error of any of them ends both
(`stepSubchunk_completes`). -/
theorem subchunkElementsRefineStepSubchunk : Obligations.SubchunkElementsRefineStepSubchunk := by
  intro s hs hh hret hp he
  have h : s.Midway := ⟨hs, hh, hret, busy_iff.2 (.inr (.inr hp))⟩
  have hrun := stepSubchunk_completes h
  rwa [atElem_of_elem he] at hrun

end Sys2Proof.Machine
end

section
/-! SUPPORT. How many steps a run still has to take (44_sequencer.md rule R161). `v` says how many steps of the present phase
visit are left at a position; a block then costs its tables and at most 65535 subchunks, and a run at most 255 blocks. The
tails of the steps leave no more than what they found. -/

namespace Sys2Proof.Machine

/-- Steps of a block: those of its tables, and those of as many subchunks as its count can ask for. -/
def blockCost (v : Elem → Nat) : Nat := v (.tab .lit) + v .litVal * 65535

/-- The most steps that can follow the present phase visit. -/
def State.rest (v : Elem → Nat) (s : State) : Nat :=
  match s.phase with
  | .header => 255 * blockCost v
  | .perBlock => (s.hBlocks.toNat - s.blk - 1) * blockCost v + v .litVal * 65535
  | .perSubchunk => (s.hBlocks.toNat - s.blk - 1) * blockCost v + v .litVal * (s.nsub - s.sub - 1)
  | .idle | .done | .failed => 0

/-- The most steps that can follow. -/
def State.rank (v : Elem → Nat) (s : State) : Nat := if s.busy then v s.elem + s.rest v else 0

variable {v : Elem → Nat} {W : Bank → Prop} {s t : State}

theorem rest_header (h : s.phase = .header) : s.rest v = 255 * blockCost v := by rw [State.rest, h]

theorem rest_perBlock (h : s.phase = .perBlock) :
    s.rest v = (s.hBlocks.toNat - s.blk - 1) * blockCost v + v .litVal * 65535 := by rw [State.rest, h]

theorem rest_perSubchunk (h : s.phase = .perSubchunk) :
    s.rest v = (s.hBlocks.toNat - s.blk - 1) * blockCost v + v .litVal * (s.nsub - s.sub - 1) := by rw [State.rest, h]

theorem rank_busy (h : s.busy = true) : s.rank v = v s.elem + s.rest v := if_pos h

theorem rank_standing (h : s.busy = false) : s.rank v = 0 := if_neg (by simp [h])

theorem rank_pos (h : s.busy = true) (hv : 0 < v s.elem) : 0 < s.rank v := by
  rw [rank_busy h]
  exact Nat.add_pos_left hv _

/-- A whole block, its tables not yet read. -/
theorem rank_blockStart (hp : s.phase = .perBlock) (he : s.elem = .tab .lit) :
    s.rank v = (s.hBlocks.toNat - s.blk - 1 + 1) * blockCost v := by
  rw [rank_busy (busy_iff.2 (.inr (.inl hp))), rest_perBlock hp, he, Nat.succ_mul, blockCost]
  omega

theorem rank_subchunkStart (hp : s.phase = .perSubchunk) (he : s.elem = .litVal) :
    s.rank v = (s.hBlocks.toNat - s.blk - 1) * blockCost v + v .litVal * (s.nsub - s.sub - 1 + 1) := by
  rw [rank_busy (busy_iff.2 (.inr (.inr hp))), rest_perSubchunk hp, he, Nat.mul_succ]
  omega

/-! ### What a run of operations leaves of it -/

theorem Run.rest_perBlock (hc : ¬ W .control) (hh : ¬ W .header) (h : Run W s t) (hp : s.phase = .perBlock) :
    t.phase = .perBlock ∧ t.rest v = s.rest v := by
  obtain ⟨hphase, hblk, _, _⟩ := h.control_fields hc
  have hp' := hphase.trans hp
  exact ⟨hp', by rw [Machine.rest_perBlock hp', Machine.rest_perBlock hp, hblk, h.hBlocks_eq hh]⟩

theorem Run.rest_perSubchunk (hc : ¬ W .control) (hh : ¬ W .header) (hn : ¬ W .count) (h : Run W s t)
    (hp : s.phase = .perSubchunk) : t.rest v = s.rest v := by
  obtain ⟨hphase, hblk, hsub, _⟩ := h.control_fields hc
  rw [Machine.rest_perSubchunk (hphase.trans hp), Machine.rest_perSubchunk hp, hblk, hsub, h.hBlocks_eq hh,
    h.nsub_eq hn]

/-! ### The tails of the steps -/

theorem endHeader_rank (s : State) : (endHeader s).rank v ≤ 255 * blockCost v := by
  unfold endHeader
  split
  case isTrue => exact (rank_standing rfl).trans_le (Nat.zero_le _)
  case isFalse h0 =>
    have hpos : s.hBlocks.toNat ≠ 0 := fun h => h0 (BitVec.eq_of_toNat_eq h)
    have hmax := s.hBlocks.isLt
    rw [rank_blockStart rfl rfl]
    exact Nat.mul_le_mul_right _ (by dsimp only; omega)

theorem endBlock_rank (h : s.InBlock) : (endBlock s).rank v ≤ (s.hBlocks.toNat - s.blk - 1) * blockCost v := by
  have hblk := h.blk
  unfold endBlock
  split
  case isTrue => exact (rank_standing rfl).trans_le (Nat.zero_le _)
  case isFalse hmore =>
    rw [rank_blockStart rfl rfl]
    exact Nat.mul_le_mul_right _ (by dsimp only; omega)

theorem beginSubchunks_rank (h : s.InBlock) (hp : s.phase = .perBlock) : (beginSubchunks s).rank v ≤ s.rest v := by
  have hcount := h.nsub
  rw [rest_perBlock hp]
  unfold beginSubchunks
  split
  case isTrue => exact (endBlock_rank (s := { s with sub := 0 }) ⟨h.blk, h.nsub, h.err⟩).trans (Nat.le_add_right ..)
  case isFalse hn =>
    rw [rank_subchunkStart rfl rfl]
    exact Nat.add_le_add_left (Nat.mul_le_mul_left _ (by dsimp only; omega)) _

theorem endSubchunk_rank (h : s.InSubchunk) : (endSubchunk s).rank v ≤ s.rest v := by
  have hsub := h.sub
  rw [rest_perSubchunk h.phase]
  unfold endSubchunk
  split
  case isTrue =>
    exact (endBlock_rank (s := { s with sub := s.sub + 1 }) ⟨h.blk, h.nsub, h.err⟩).trans (Nat.le_add_right ..)
  case isFalse hmore =>
    rw [rank_subchunkStart (s := { s with sub := s.sub + 1, elem := .litVal }) h.phase rfl]
    exact Nat.add_le_add_left (Nat.mul_le_mul_left _ (by dsimp only; omega)) _

/-! ### The subchunk count -/

theorem rdNsub_nsub_le (s : State) : (rdNsub s).nsub ≤ 65535 :=
  Nat.le_of_lt_succ (Nat.and_lt_two_pow (ensure 16 s).bqVal (show mask 16 < 2 ^ 16 by decide))

/-- Whatever the count is, the block stays the one it was. -/
theorem rdNsub_inBlock (h : s.InBlock) : (rdNsub s).InBlock := by
  have hbits : Run (fun b => b = .stream) s (rdBits 16 s).2 := rdBits_run (W := fun b => b = .stream) rfl (by decide) s
  have hblock := hbits.inBlock (by simp) (by simp) (by simp) h
  exact ⟨hblock.blk, rdNsub_nsub_le s, hblock.err⟩

/-- A block's last element, with what the sequencer does after it. -/
theorem countedBlock_rank (h : s.InBlock) (hp : s.phase = .perBlock) :
    (beginSubchunks (rdNsub s)).Controlled ∧ (beginSubchunks (rdNsub s)).rank v ≤ s.rest v := by
  have hrun : Run (fun b => b = .stream ∨ b = .count) s (rdNsub s) := rdNsub_run (.inl rfl) (.inr rfl) s
  obtain ⟨hp', hrest⟩ := hrun.rest_perBlock (v := v) (by simp) (by simp) hp
  have hblock := rdNsub_inBlock h
  exact ⟨beginSubchunks_controlled hblock, (beginSubchunks_rank hblock hp').trans_eq hrest⟩

end Sys2Proof.Machine
end

section
/-! SUPPORT. A run at phase granularity: every step of the spec lowers the rank in which a visit is one step
(44_sequencer.md rules R159, R161). -/

namespace Sys2Proof.Machine

variable {s t u : State} {W : Bank → Prop}

/-- At phase granularity a visit is one step. -/
def wholeVisit (_ : Elem) : Nat := 1

/-- A state of a run begun by `START`. -/
def State.Running (s : State) : Prop := s.phase = .failed ∨ s.Controlled

/-- A step of the spec: a next state of the run, with fewer steps to come. -/
def LowersRank (s : State) (o : Host.Outcome State Fault Refusal) : Prop :=
  ∃ t, o = .next t ∧ t.Running ∧ t.rank wholeVisit < s.rank wholeVisit

/-- A step is operations that may raise, then a tail that stays within what the visit leaves. -/
theorem LowersRank.of_tail {r : Res Unit} {f : State → State} (hb : s.busy = true) (hr : r.Runs W s)
    (hf : ∀ u, Run W s u → (f u).Controlled ∧ (f u).rank wholeVisit ≤ s.rest wholeVisit) :
    LowersRank s (r.andThen fun _ u => .ok () (f u)).finish := by
  cases r with
  | ok a u =>
    obtain ⟨hcontrolled, hrank⟩ := hf u hr
    refine ⟨f u, rfl, .inr hcontrolled, ?_⟩
    rw [rank_busy hb, wholeVisit]
    omega
  | raised u =>
    obtain ⟨e, w, _, rfl⟩ := hr
    refine ⟨errorEntry e w, rfl, .inl rfl, ?_⟩
    rw [rank_standing rfl]
    exact rank_pos hb Nat.one_pos

theorem State.Controlled.err_none (h : s.Controlled) (hp : s.phase ≠ .failed) : s.err = none :=
  Classical.not_not.1 fun he => hp (h.error.1 he)

theorem State.Controlled.atBlock (h : s.Controlled) (hp : s.phase = .perBlock) : s.InBlock :=
  ⟨h.inBlock hp, h.counts.2, h.err_none (by simp [hp])⟩

theorem State.Controlled.atSubchunk (h : s.Controlled) (hp : s.phase = .perSubchunk) : s.InSubchunk :=
  ⟨⟨(h.inSubchunk hp).2, h.counts.2, h.err_none (by simp [hp])⟩, hp, (h.inSubchunk hp).1⟩

theorem stepHeader_lowersRank (h : s.Controlled) (hp : s.phase = .header) : LowersRank s (stepHeader s).finish := by
  have hhdr : (hdr s).Runs (fun b => b = .stream ∨ b = .header) s := hdr_runs (.inl rfl) (.inr rfl) s
  have hread : ((hdr s).andThen fun _ t => .ok () (pad2 t)).Runs (fun b => b = .stream ∨ b = .header) s :=
    hhdr.andThen fun _ t _ => .ok (rdBits_run (.inl rfl) (by decide) t)
  have hseq : stepHeader s = ((hdr s).andThen fun _ t => .ok () (pad2 t)).andThen fun _ u => .ok () (endHeader u) := by
    rw [andThen_assoc]
    rfl
  rw [hseq]
  refine .of_tail (busy_iff.2 (.inl hp)) hread fun u hrun => ⟨endHeader_controlled ?_ ?_, ?_⟩
  · exact hrun.err_eq.trans (h.err_none (by simp [hp]))
  · obtain ⟨_, _, hsub, _⟩ := hrun.control_fields (by simp)
    rw [hsub, hrun.nsub_eq (by simp)]
    exact h.counts
  · rw [rest_header hp]
    exact endHeader_rank u

theorem stepBlock_lowersRank (h : s.Controlled) (hp : s.phase = .perBlock) : LowersRank s (stepBlock s).finish := by
  have htabs : Run (fun b => b = .stream ∨ b = .tables) s (huftab .cnt (huftab .dist (huftab .lit s))) :=
    ((huftab_run (.inl rfl) (.inr rfl) .lit s).trans (huftab_run (.inl rfl) (.inr rfl) .dist _)).trans
      (huftab_run (.inl rfl) (.inr rfl) .cnt _)
  refine .of_tail (r := .ok () _) (f := fun u => beginSubchunks (rdNsub u)) (busy_iff.2 (.inr (.inl hp))) htabs
    fun u hrun => ?_
  obtain ⟨hp', hrest⟩ := hrun.rest_perBlock (v := wholeVisit) (by simp) (by simp) hp
  rw [← hrest]
  exact countedBlock_rank (hrun.inBlock (by simp) (by simp) (by simp) (h.atBlock hp)) hp'

theorem stepSubchunk_lowersRank (h : s.Controlled) (hp : s.phase = .perSubchunk) :
    LowersRank s (stepSubchunk s).finish := by
  have hcopies : ((litRun s).andThen fun _ t => if hasMatch t then lzMatch t else .ok () t).Runs
      (fun b => b = .stream ∨ b = .output) s := by
    refine (litRun_runs_stream_output s).andThen fun _ t _ => ?_
    split
    · exact lzMatch_runs_stream_output t
    · exact .ok .refl
  have hseq : stepSubchunk s = ((litRun s).andThen fun _ t => if hasMatch t then lzMatch t else .ok () t).andThen
      fun _ u => .ok () (endSubchunk u) := (andThen_assoc ..).symm
  rw [hseq]
  refine .of_tail (busy_iff.2 (.inr (.inr hp))) hcopies fun u hrun => ?_
  have hsubchunk := hrun.inSubchunk (by simp) (by simp) (by simp) (h.atSubchunk hp)
  exact ⟨endSubchunk_controlled hsubchunk,
    (endSubchunk_rank hsubchunk).trans_eq (hrun.rest_perSubchunk (by simp) (by simp) (by simp) hp)⟩

/-- The step relation of the spec, one step. -/
theorem phaseInstr_lowersRank (h : s.Controlled) (hb : s.busy = true) :
    ∃ i, phaseInstr s = some i ∧ LowersRank s (exec i s) := by
  rcases busy_iff.1 hb with hp | hp | hp
  · exact ⟨.stepHeader, by rw [phaseInstr, hp], stepHeader_lowersRank h hp⟩
  · exact ⟨.stepBlock, by rw [phaseInstr, hp], stepBlock_lowersRank h hp⟩
  · exact ⟨.stepSubchunk, by rw [phaseInstr, hp], stepSubchunk_lowersRank h hp⟩

theorem phaseInstr_standing (hb : s.busy = false) : phaseInstr s = none := by
  rcases not_busy_iff.1 hb with hp | hp | hp <;> rw [phaseInstr, hp]

theorem phaseRun_standing (hb : s.busy = false) (n : Nat) : phaseRun n s = .next s := by
  cases n with
  | zero => rfl
  | succ n => rw [phaseRun, phaseInstr_standing hb]

/-- A run that stands has ended: it does not go back to `IDLE`. -/
theorem State.Running.ended (h : s.Running) (hb : s.busy = false) : s.phase = .done ∨ s.phase = .failed := by
  rcases h with hf | hc
  · exact .inr hf
  · exact (not_busy_iff.1 hb).resolve_left hc.phase

theorem phaseRun_ends (n : Nat) (h : s.Running) (hn : s.rank wholeVisit ≤ n) :
    ∃ u, phaseRun n s = .next u ∧ (u.phase = .done ∨ u.phase = .failed) := by
  induction n generalizing s with
  | zero =>
    have hb : s.busy = false := Bool.eq_false_iff.2 fun hb => absurd (rank_pos hb Nat.one_pos) (Nat.not_lt.2 hn)
    exact ⟨s, rfl, h.ended hb⟩
  | succ n ih =>
    cases hb : s.busy with
    | false => exact ⟨s, phaseRun_standing hb _, h.ended hb⟩
    | true =>
      have hc : s.Controlled := h.resolve_left (not_failed_of_busy hb)
      obtain ⟨i, hi, t, he, ht, hlt⟩ := phaseInstr_lowersRank hc hb
      rw [phaseRun, hi]
      simp only [he]
      exact ih ht (by omega)

theorem clearRegisters_controlled (s : State) : (clearRegisters .header s).Controlled :=
  header_controlled rfl rfl rfl ⟨Nat.le_refl 0, Nat.zero_le _⟩ (.inl rfl)

/-- The bound of rule R161: a header, and 255 blocks of one step for the tables and 65535 subchunks. -/
theorem clearRegisters_rank (s : State) : (clearRegisters .header s).rank wholeVisit = 16711681 := by
  rw [rank_busy rfl, rest_header rfl]
  norm_num [blockCost, wholeVisit]

end Sys2Proof.Machine
end


section
/-! SUPPORT. A run at the granularity of the model: every element lowers the rank in which a visit takes the steps that are
left at its position (44_sequencer.md rule R161; log entry 1). -/

namespace Sys2Proof.Machine

variable {s t u : State} {pos : Elem}

/-- The most steps of the model that a phase visit still takes at a position, this one counted. -/
def stepsLeft : Elem → Nat
  | .hdr => 2
  | .pad2 => 1
  | .tab .lit => 4
  | .tab .dist => 3
  | .tab .cnt => 2
  | .nsub => 1
  | .litVal => 5
  | .litCopy _ => 4
  | .distVal => 3
  | .cntVal _ => 2
  | .matchCopy _ _ => 1

theorem stepsLeft_bounds (e : Elem) : 0 < stepsLeft e ∧ stepsLeft e ≤ 5 := by
  cases e with
  | tab r => cases r <;> decide
  | _ => simp [stepsLeft]

/-- Between two elements of a visit what follows the visit is the same, and fewer steps of it are left. -/
theorem rank_goto {e : Elem} (hb : s.busy = true) (he : s.elem = pos) (he' : t.elem = e) (hlt : stepsLeft e < stepsLeft pos)
    (hphase : t.phase = s.phase) (hrest : t.rest stepsLeft = s.rest stepsLeft) :
    t.rank stepsLeft < s.rank stepsLeft := by
  have hb' : t.busy = true := by
    rw [State.busy, hphase]
    exact hb
  rw [rank_busy hb, rank_busy hb', hrest, he, he']
  exact Nat.add_lt_add_right hlt _

/-- After the last element of a visit no more is left than what follows the visit. -/
theorem rank_tail (hb : s.busy = true) (h : t.rank stepsLeft ≤ s.rest stepsLeft) :
    t.rank stepsLeft < s.rank stepsLeft := by
  have hpos := (stepsLeft_bounds s.elem).1
  rw [rank_busy hb]
  omega

/-- A `VAL` leaves its value in `ret`. -/
theorem handOver_ret {r : Res Nat} {a : Unit} (h : r.handOver = .ok a u) : ∃ x, u.ret = .value x := by
  cases r with
  | ok x t => cases h; exact ⟨x, rfl⟩
  | raised t => cases h

/-- What an element of a subchunk keeps. -/
theorem subchunk_kept (hs : s.Inv) (hp : s.phase = .perSubchunk) (hrun : Run (writtenAt pos) s u) (hhdr : pos ≠ .hdr)
    (hnsub : pos ≠ .nsub) : u.phase = s.phase ∧ u.InSubchunk ∧ u.rest stepsLeft = s.rest stepsLeft := by
  have hc := not_writtenAt_control pos
  have hh : ¬ writtenAt pos .header := fun h => hhdr (h.2.1 rfl)
  have hn : ¬ writtenAt pos .count := fun h => hnsub (h.2.2 rfl)
  obtain ⟨hphase, _⟩ := hrun.control_fields hc
  exact ⟨hphase, hrun.inSubchunk hc hh hn (hs.atSubchunk hp), hrun.rest_perSubchunk hc hh hn hp⟩

/-- After the literal run: the match, or the tail. -/
theorem afterLiteralRun_rank (hb : s.busy = true) (he : s.elem = pos) (hlt : 3 < stepsLeft pos)
    (hphase : u.phase = s.phase) (hsub : u.InSubchunk) (hrest : u.rest stepsLeft = s.rest stepsLeft) :
    (afterLiteralRun u).rank stepsLeft < s.rank stepsLeft := by
  unfold afterLiteralRun
  split
  case isTrue => exact rank_goto hb he rfl hlt hphase hrest
  case isFalse => exact rank_tail hb ((endSubchunk_rank hsub).trans_eq hrest)

theorem advance_litVal_lowersRank (hs : s.Inv) (hb : s.busy = true) (he : s.elem = .litVal) (hp : s.phase = .perSubchunk)
    (hrun : Run (writtenAt .litVal) s u) {x : Nat} (hx : u.ret = .value x) :
    (advance .litVal u).rank stepsLeft < s.rank stepsLeft := by
  obtain ⟨hphase, hsub, hrest⟩ := subchunk_kept hs hp hrun nofun nofun
  simp only [advance, hx]
  split
  case isTrue => exact rank_goto hb he rfl (Nat.lt_succ_self 4) hphase hrest
  case isFalse =>
    exact afterLiteralRun_rank (u := { u with ret := .unit }) hb he (by decide) hphase (hsub.ret .unit) hrest

/-- The element at the position ran to its end: with the sequencer's own work, fewer steps are left. -/
theorem advance_lowersRank (hs : s.Inv) (hb : s.busy = true) (hop : operationAt s.elem s = .ok () u) :
    (advance s.elem u).rank stepsLeft < s.rank stepsLeft := by
  have hrun : Run (writtenAt s.elem) s u := by
    have hruns := operationAt_runs s.elem s
    rwa [hop] at hruns
  obtain ⟨hphase, _⟩ := hrun.control_fields (not_writtenAt_control _)
  have hok := hs.position
  unfold State.positionOk at hok
  cases he : s.elem <;> rw [he] at hop hrun hok
  case hdr =>
    have hp := hs.header_of_busy hb he
    exact rank_goto hb he rfl (Nat.lt_succ_self 1) hphase ((rest_header (hphase.trans hp)).trans (rest_header hp).symm)
  case pad2 => exact rank_tail hb ((endHeader_rank _).trans_eq (rest_header hok).symm)
  case tab r =>
    obtain ⟨-, hrest⟩ := hrun.rest_perBlock (v := stepsLeft) (not_writtenAt_control _) (by simp [writtenAt]) hok
    cases r with
    | lit | dist | cnt => exact rank_goto hb he rfl (Nat.lt_succ_self _) hphase hrest
  case nsub =>
    cases hop
    obtain ⟨hp, hrest⟩ := hrun.rest_perBlock (v := stepsLeft) (not_writtenAt_control _) (by simp [writtenAt]) hok
    exact rank_tail hb ((beginSubchunks_rank ((rdNsub_inBlock (hs.atBlock hok)).ret .unit) hp).trans_eq hrest)
  case litVal =>
    obtain ⟨x, hx⟩ := handOver_ret hop
    exact advance_litVal_lowersRank hs hb he hok hrun hx
  case litCopy run =>
    obtain ⟨-, hsub, hrest⟩ := subchunk_kept hs hok.1 hrun nofun nofun
    exact afterLiteralRun_rank (u := { u with ret := .unit }) hb he (Nat.lt_succ_self 3) hphase (hsub.ret .unit) hrest
  case distVal =>
    obtain ⟨x, hx⟩ := handOver_ret hop
    obtain ⟨-, -, hrest⟩ := subchunk_kept hs hok.1 hrun nofun nofun
    simp only [advance, hx]
    exact rank_goto hb he rfl (Nat.lt_succ_self 2) hphase hrest
  case cntVal v1 =>
    obtain ⟨x, hx⟩ := handOver_ret hop
    obtain ⟨-, -, hrest⟩ := subchunk_kept hs hok.1 hrun nofun nofun
    simp only [advance, hx]
    exact rank_goto hb he rfl (Nat.lt_succ_self 1) hphase hrest
  case matchCopy v1 v2 =>
    obtain ⟨-, hsub, hrest⟩ := subchunk_kept hs hok.1 hrun nofun nofun
    exact rank_tail hb ((endSubchunk_rank (hsub.ret .unit)).trans_eq hrest)

/-- A step of a busy block: a next state, the host's list as it was, fewer steps to come. -/
theorem blockStep_lowersRank (hs : s.Inv) (hb : s.busy = true) :
    ∃ t, blockStep s = .next t ∧ t.hostIn = s.hostIn ∧ t.rank stepsLeft < s.rank stepsLeft := by
  have hruns := operationAt_runs s.elem s
  rw [blockStep_eq hs.reads hb]
  cases hop : operationAt s.elem s with
  | ok a u =>
    rw [hop] at hruns
    have hadv : Run (fun _ => True) u (advance s.elem u) := advance_run trivial trivial _ _
    exact ⟨_, rfl, hadv.hostIn_eq.trans (Run.hostIn_eq hruns), advance_lowersRank hs hb hop⟩
  | raised u =>
    rw [hop] at hruns
    obtain ⟨e, w, hrun, rfl⟩ := hruns
    refine ⟨_, rfl, hrun.hostIn_eq, ?_⟩
    rw [rank_standing (s := errorEntry e w) rfl]
    exact rank_pos hb (stepsLeft_bounds _).1

/-- As many steps as the rank says are enough. -/
theorem stepRun_ends (n : Nat) (hs : s.Inv) (hh : s.hostIn = []) (hn : s.rank stepsLeft ≤ n) :
    ∃ m ≤ n, ∃ t, stepRun m s = .next t ∧ t.busy = false := by
  induction n generalizing s with
  | zero =>
    have hb : s.busy = false :=
      Bool.eq_false_iff.2 fun hb => absurd (rank_pos hb (stepsLeft_bounds _).1) (Nat.not_lt.2 hn)
    exact ⟨0, Nat.le_refl 0, s, rfl, hb⟩
  | succ n ih =>
    cases hb : s.busy with
    | false => exact ⟨0, Nat.zero_le _, s, rfl, hb⟩
    | true =>
      obtain ⟨t, hstep, hhost, hlt⟩ := blockStep_lowersRank hs hb
      obtain ⟨m, hm, u, hrun, hu⟩ := ih (blockStep_inv hs hstep) (hhost.trans hh) (by omega)
      exact ⟨m + 1, Nat.succ_le_succ hm, u, (stepRun_next ((step_nil hh).trans hstep) m).trans hrun, hu⟩

/-- In the header phase stand the header and the pad bits alone. -/
theorem State.Inv.stepsLeft_header (hs : s.Inv) (hp : s.phase = .header) : stepsLeft s.elem ≤ 2 := by
  have hok := hs.position
  unfold State.positionOk at hok
  cases he : s.elem <;> simp [he, hp, stepsLeft] at hok ⊢

/-- Two steps of the header, and 255 blocks of four steps and 65535 subchunks of five. -/
theorem State.Inv.rank_le (hs : s.Inv) : s.rank stepsLeft ≤ 2 + 255 * (4 + 5 * 65535) := by
  have hcost : blockCost stepsLeft = 4 + 5 * 65535 := rfl
  have hleft := (stepsLeft_bounds s.elem).2
  have hblocks := s.hBlocks.isLt
  have hcount := hs.counts.2
  cases hb : s.busy with
  | false => exact (rank_standing hb).trans_le (Nat.zero_le _)
  | true =>
    rw [rank_busy hb]
    rcases busy_iff.1 hb with hp | hp | hp
    · have hhead := hs.stepsLeft_header hp
      rw [rest_header hp, hcost]
      omega
    · rw [rest_perBlock hp, hcost, show stepsLeft .litVal = 5 from rfl]
      omega
    · rw [rest_perSubchunk hp, hcost, show stepsLeft .litVal = 5 from rfl]
      omega

end Sys2Proof.Machine
end

section
/-! The statements about the length of a run (44_sequencer.md rule R161). -/

namespace Sys2Proof.Machine

/-- Settles O51: a run begun by `START` has a rank of exactly the bound, every step of the spec lowers the rank
(`phaseInstr_lowersRank`), and a run that stands has ended. -/
theorem everyRunTerminates : Obligations.EveryRunTerminates := by
  intro s hp
  refine ⟨clearRegisters .header s, execStart_standing (not_busy_iff.2 hp), ?_⟩
  exact phaseRun_ends 16711681 (.inr (clearRegisters_controlled s)) (clearRegisters_rank s).le

/-- Settles O52: every element lowers the rank (`advance_lowersRank`), and so does an error, which ends the run. -/
theorem everyElementRunTerminates : Obligations.EveryElementRunTerminates :=
  fun _ hs hh => stepRun_ends _ hs hh hs.rank_le

end Sys2Proof.Machine
end

section
/-! No step stops. An operation that may raise has no other answer than a next state (60_exceptions.md rule R183), and no step
comes to the two calls that stop: the widths the sequencer asks for are at most 16 (40_byte_and_bit_reader.md rule R98), and
its distances are `v1 + 1`, never 0 (43_lz_expander.md rule R138). -/

namespace Sys2Proof.Machine

variable {s : State}

theorem finish_next (r : Res Unit) : ∃ t, r.finish = .next t := by
  cases r with
  | ok a t => exact ⟨t, finish_ok t⟩
  | raised t => exact ⟨t, finish_raised t⟩

/-- `RESET` and `START` answer a next state wherever they come (rules R150, R200). -/
theorem exec_hostOp_next (op : HostOp) (s : State) : ∃ t, exec op.instr s = .next t := by
  cases op with
  | reset => exact ⟨_, rfl⟩
  | start =>
    cases hb : s.busy with
    | true => exact ⟨s, execStart_busy hb⟩
    | false => exact ⟨_, execStart_standing hb⟩

/-- A standing block stays, and a busy one takes the step of the operation at its position (`blockStep_eq`). -/
theorem blockStep_next (hs : s.Reads) : ∃ t, blockStep s = .next t := by
  cases hb : s.busy with
  | false => exact ⟨s, blockStep_standing hb⟩
  | true =>
    rw [blockStep_eq hs hb]
    exact finish_next _

/-- Settles O14: the host's entry is an operation (`exec_hostOp_next`) or a pass, and the block's own step needs of the
invariant only what the bit reader does (`blockStep_next`). -/
theorem noStepStops : Obligations.NoStepStops := by
  intro s hs
  match hh : s.hostIn with
  | [] =>
    rw [step_nil hh]
    exact blockStep_next hs.reads
  | none :: rest =>
    rw [step_none hh]
    exact blockStep_next (hs.withHostIn rest).reads
  | some op :: rest =>
    rw [step_some hh]
    exact exec_hostOp_next op _

end Sys2Proof.Machine
end

section
/-! The statement about `RESET` (70_reset_and_hazards.md rule R200). -/

namespace Sys2Proof.Machine

/-- `RESET` looks at no register, the phase included: it clears them wherever it comes (rule R200). -/
theorem exec_reset (s : State) : exec .reset s = .next (clearRegisters .idle s) := rfl

/-- Settles O10: `RESET` clears the registers (`exec_reset`), and the cleared registers are those of the table of rule
R23, the parameters being the ones `clearRegisters` takes from the state it is given. -/
theorem resetClearsEveryRegister : Obligations.ResetClearsEveryRegister :=
  fun s => exec_reset s

end Sys2Proof.Machine
end
